-- ==== Sys2Proof/Word.lean ====
section
/-! DEFINITION. The word types of the block: a bus access moves one 32-bit word, a byte lane is 8 bits wide, and the
BBS registers and the OUT entries are 64 bits wide (00_scope.md R10, R16; 20_memory.md R62). -/

namespace Sys2Proof

/-- One byte lane of the bus (R62). -/
abbrev Byte := BitVec 8

/-- A 32-bit register, command word or bus word (R10, R20, R60). -/
abbrev Word := BitVec 32

/-- A 64-bit BBS value, BBS modulus or OUT entry (R10). -/
abbrev DWord := BitVec 64

end Sys2Proof
end

