-- ==== Sys2Proof/Config.lean ====
section
/-! DEFINITION. What an implementation or its platform fixes (00_scope.md R9), and the free values. Every constant that the
spec leaves open is opaque: no proof can see what it is. LATENCY is not here: the host and engine turns of
State.schedule stand for it (assumption 3). BUS_PROTOCOL is below the transaction level that is modelled (assumption 4). -/

namespace Sys2Proof.Config

/-- One less than LMAX; R9 allows 1 ≤ LMAX ≤ 8192. -/
opaque lmaxPred : Fin 8192

/-- The capacity of each buffer, in entries (R9, R44). -/
def LMAX : Nat := lmaxPred.val + 1

/-- BASE divided by 0x80000; R9 makes BASE a multiple of 0x80000. -/
opaque baseIndex : Nat

/-- The bus address of offset 0 of the block (R9, R67). -/
def BASE : Nat := 0x80000 * baseIndex

/-- ANY_32: the unspecified word a read returns, drawn anew at each read (R60, R65; U2, U3, U4). The argument is the number
of the draw. -/
opaque freeWord : Nat → Word

end Sys2Proof.Config
end

