-- ==== Sys2Proof/Syntax.lean ====
section
/-! DEFINITION. The commands of the block, one constructor per row of spec/opcode_table.json (30_encoding.md R85), the fields
of a command word (R80), the names of the register map (10_state.md R52), and the host's side: its assembly
(R89 to R94) and the turns of the schedule. -/

namespace Sys2Proof

/-- The thirteen commands (R85). No command word carries an operand (R83). -/
inductive Instr where
  | lcgLoad
  | lcgNext
  | lcgGen
  | bbsLoad
  | bbsNext
  | bbsGenLsb
  | bbsGenParity
  | bbsGenRaw
  | construct
  | encryptBbs
  | encryptLcg
  | decryptBbs
  | decryptLcg
  deriving DecidableEq, Repr

/-- The nine operations of the OP field (R81). -/
inductive Operation where
  | lcgLoad
  | lcgNext
  | lcgGen
  | bbsLoad
  | bbsNext
  | bbsGen
  | construct
  | encrypt
  | decrypt
  deriving DecidableEq, Repr

/-- The extraction policy of BBS_GEN (R82, R124). -/
inductive BbsMethod where
  | lsb
  | parity
  | raw
  deriving DecidableEq, Repr

/-- The keystream that ENCRYPT and DECRYPT use (R82, R143, R146). -/
inductive CipherMethod where
  | bbs
  | lcg
  deriving DecidableEq, Repr

/-- The three fields of a command word (R80): OP in bits 7:0, METHOD in bits 9:8, RSVD in bits 31:10. -/
structure CommandFields where
  op     : BitVec 8
  method : BitVec 2
  rsvd   : BitVec 22
  deriving DecidableEq, Repr

/-- The result codes of STATUS.ERR (60_exceptions.md R160). Codes 9 to 15 are never produced (U9), so they have no name. -/
inductive ErrCode where
  | ok
  | invalidModulus
  | lengthMismatch
  | codepointOverflow
  | badCommand
  | badParameter
  | notConstructed
  | capacity
  | notLoaded
  deriving DecidableEq, Repr

/-- The registers of the map (R52), by name. -/
inductive Reg where
  | cmd
  | status
  | lcgSeed
  | lcgA
  | lcgC
  | lcgM
  | bbsSeed
  | bbsP
  | bbsQ
  | keyLen
  | genLen
  | inLen
  | lcgState
  | lcgOut
  | bbsXLo
  | bbsXHi
  | bbsMLo
  | bbsMHi
  | bbsRawLo
  | bbsRawHi
  | bbsPar
  | bbsLsb
  | ksLen
  | outLen
  | cap
  deriving DecidableEq, Repr

/-- What a mapped offset of the window names (R52, R73): a register, or one word of a buffer entry. -/
inductive Place where
  | reg (r : Reg)
  | inEntry (i : Nat)
  | outLo (i : Nat)
  | outHi (i : Nat)
  | ksBbs (i : Nat)
  | ksLcg (i : Nat)
  deriving DecidableEq, Repr

/-- A target of the host assembly (R89): a named place, or a raw offset written `@0x…`. -/
inductive Target where
  | place (p : Place)
  | raw (off : Nat)
  deriving DecidableEq, Repr

/-- One host action: a raw bus access of any address and size (20_memory.md R60, R61), or a line of the host assembly
(R89 to R94). -/
inductive HostInstr where
  /-- MemRead(addr, size), R60. -/
  | memRead (addr size : Nat)
  /-- MemWrite(addr, size, v), R61. -/
  | memWrite (addr size : Nat) (v : Word)
  /-- `wr target, value`, R89. -/
  | wr (t : Target) (v : Word)
  /-- `rd target`, and with `some v` the form `rd target -> v`, R89. -/
  | rd (t : Target) (expected : Option Word)
  /-- `issue mnemonic`, R91. -/
  | issue (i : Instr)
  /-- `cmd mnemonic`, R92. -/
  | cmd (i : Instr)
  /-- `wait`, R93. -/
  | wait
  /-- `expect_err code`, R94. -/
  | expectErr (code : ErrCode)
  deriving DecidableEq, Repr

/-- Who moves next (70_reset_and_hazards.md R184): the host, the command engine, or the reset input (R181). -/
inductive Turn where
  | host
  | engine
  | assertReset
  | releaseReset
  deriving DecidableEq, Repr

end Sys2Proof
end

