-- ==== Sys2Proof/WellFormed.lean ====
section
/-! DEFINITION. Which command-word fields are legal (30_encoding.md R80, R81, R82, R87), and which terms of the host assembly
are (R89). A command itself has no field, so all thirteen are well formed. -/

namespace Sys2Proof

/-- The nine values of OP (R81). -/
def legalOps : List (BitVec 8) :=
  [0x01#8, 0x02#8, 0x03#8, 0x11#8, 0x12#8, 0x13#8, 0x21#8, 0x31#8, 0x32#8]

/-- The number of legal METHOD values, which count from 0 (R82): three for BBS_GEN, two for ENCRYPT and DECRYPT, one for the
rest. -/
def methodCount (op : BitVec 8) : Nat :=
  if op = 0x13#8 then 3 else if op = 0x31#8 ∨ op = 0x32#8 then 2 else 1

/-- RSVD is 0 (R80). -/
def CommandFields.rsvdOk (f : CommandFields) : Bool := f.rsvd = 0#22

/-- OP is one of the nine (R81). -/
def CommandFields.opOk (f : CommandFields) : Bool := legalOps.contains f.op

/-- METHOD is legal for OP (R82). -/
def CommandFields.methodOk (f : CommandFields) : Bool := f.method.toNat < methodCount f.op

/-- The fields make one of the thirteen legal words (R85, R87). -/
def CommandFields.wellFormed (f : CommandFields) : Bool := f.rsvdOk && f.opOk && f.methodOk

/-- Every command is well formed: none has a field (R83). -/
def Instr.wellFormed (_ : Instr) : Bool := true

/-- A buffer entry's index is below LMAX (R73). -/
def Place.wellFormed (lmax : Nat) : Place → Bool
  | .reg _ => true
  | .inEntry i => i < lmax
  | .outLo i => i < lmax
  | .outHi i => i < lmax
  | .ksBbs i => i < lmax
  | .ksLcg i => i < lmax

/-- A target the assembler of R89 takes without meeting a bus error on a named place; a raw offset is taken as it is. -/
def Target.wellFormed (lmax : Nat) : Target → Bool
  | .place p => p.wellFormed lmax
  | .raw _ => true

/-- A line of the host assembly whose targets are well formed. -/
def HostInstr.wellFormed (lmax : Nat) : HostInstr → Bool
  | .memRead _ _ => true
  | .memWrite _ _ _ => true
  | .wr t _ => t.wellFormed lmax
  | .rd t _ => t.wellFormed lmax
  | .issue i => i.wellFormed
  | .cmd i => i.wellFormed
  | .wait => true
  | .expectErr _ => true

end Sys2Proof
end

