-- ==== Sys2Proof/Decode.lean ====
section
/-! DEFINITION. The decoder of 30_encoding.md R86, total on all 32-bit words and naming why a word is illegal (R87), and then
the encoder, written from the encoding list of R81, R82 and R85, and the mnemonics of R85 and R90. -/

namespace Sys2Proof

/-- Why a word is illegal, in the order R86 finds it (R87). -/
inductive Illegal where
  /-- RSVD is not 0. -/
  | reservedBits (rsvd : BitVec 22)
  /-- OP is not one of the nine of R81. -/
  | unknownOp (op : BitVec 8)
  /-- METHOD is not legal for this operation (R82). -/
  | badMethod (op : Operation) (method : BitVec 2)
  deriving DecidableEq, Repr

/-- What R86's decode answers: a command or Illegal. -/
inductive Decoded where
  | legal (i : Instr)
  | illegal (why : Illegal)
  deriving DecidableEq, Repr

/-- The command, if there is one. -/
def Decoded.instr? : Decoded → Option Instr
  | .legal i => some i
  | .illegal _ => none

/-- The fields of a word (R80): `w[7:0]`, `w[9:8]`, `w[31:10]`. -/
def splitWord (w : Word) : CommandFields where
  op := w.extractLsb' 0 8
  method := w.extractLsb' 8 2
  rsvd := w.extractLsb' 10 22

/-- The operation of an OP value (R81). -/
def operationOf (op : BitVec 8) : Option Operation :=
  if op = 0x01#8 then some .lcgLoad
  else if op = 0x02#8 then some .lcgNext
  else if op = 0x03#8 then some .lcgGen
  else if op = 0x11#8 then some .bbsLoad
  else if op = 0x12#8 then some .bbsNext
  else if op = 0x13#8 then some .bbsGen
  else if op = 0x21#8 then some .construct
  else if op = 0x31#8 then some .encrypt
  else if op = 0x32#8 then some .decrypt
  else none

/-- The command of an operation that has no variant: METHOD must be 0 (R82). -/
def onlyMethodZero (i : Instr) (m : BitVec 2) : Option Instr :=
  if m = 0#2 then some i else none

/-- The command that METHOD selects (R82). -/
def instrOf (o : Operation) (m : BitVec 2) : Option Instr :=
  match o with
  | .lcgLoad => onlyMethodZero .lcgLoad m
  | .lcgNext => onlyMethodZero .lcgNext m
  | .lcgGen => onlyMethodZero .lcgGen m
  | .bbsLoad => onlyMethodZero .bbsLoad m
  | .bbsNext => onlyMethodZero .bbsNext m
  | .bbsGen =>
    if m = 0#2 then some .bbsGenLsb
    else if m = 1#2 then some .bbsGenParity
    else if m = 2#2 then some .bbsGenRaw
    else none
  | .construct => onlyMethodZero .construct m
  | .encrypt => if m = 0#2 then some .encryptBbs else if m = 1#2 then some .encryptLcg else none
  | .decrypt => if m = 0#2 then some .decryptBbs else if m = 1#2 then some .decryptLcg else none

/-- The decoder on fields (R86). -/
def decodeFields (f : CommandFields) : Decoded :=
  if f.rsvd ≠ 0#22 then .illegal (.reservedBits f.rsvd)
  else
    match operationOf f.op with
    | none => .illegal (.unknownOp f.op)
    | some o =>
      match instrOf o f.method with
      | none => .illegal (.badMethod o f.method)
      | some i => .legal i

/-- The decoder (R86): total on all 2^32 words. -/
def decode (w : Word) : Decoded := decodeFields (splitWord w)

/-- The decoder on a word whose bits are numbered as spec/opcode_table.json numbers them. Every command is one 32-bit word
(R88), so a number that does not fit 32 bits is no command. -/
def decodeTableWord (nbits w : Nat) : Option Instr :=
  if w % 2 ^ nbits < 2 ^ 32 then (decode (BitVec.ofNat 32 (w % 2 ^ nbits))).instr? else none

/-- The OP and METHOD of a command (R81, R82, R85); RSVD is 0 (R80). -/
def Instr.fields : Instr → CommandFields
  | .lcgLoad => ⟨0x01, 0, 0⟩
  | .lcgNext => ⟨0x02, 0, 0⟩
  | .lcgGen => ⟨0x03, 0, 0⟩
  | .bbsLoad => ⟨0x11, 0, 0⟩
  | .bbsNext => ⟨0x12, 0, 0⟩
  | .bbsGenLsb => ⟨0x13, 0, 0⟩
  | .bbsGenParity => ⟨0x13, 1, 0⟩
  | .bbsGenRaw => ⟨0x13, 2, 0⟩
  | .construct => ⟨0x21, 0, 0⟩
  | .encryptBbs => ⟨0x31, 0, 0⟩
  | .encryptLcg => ⟨0x31, 1, 0⟩
  | .decryptBbs => ⟨0x32, 0, 0⟩
  | .decryptLcg => ⟨0x32, 1, 0⟩

/-- The word that has these fields (R80), `{RSVD, METHOD, OP}` in the notation of R16. -/
def joinFields (f : CommandFields) : Word := f.rsvd ++ f.method ++ f.op

/-- The encoder: the command word of a command (R85). -/
def encode (i : Instr) : Word := joinFields i.fields

/-- The mnemonic of a command (R85). -/
def Instr.mnemonic : Instr → String
  | .lcgLoad => "lcg.load"
  | .lcgNext => "lcg.next"
  | .lcgGen => "lcg.gen"
  | .bbsLoad => "bbs.load"
  | .bbsNext => "bbs.next"
  | .bbsGenLsb => "bbs.gen.lsb"
  | .bbsGenParity => "bbs.gen.parity"
  | .bbsGenRaw => "bbs.gen.raw"
  | .construct => "construct"
  | .encryptBbs => "encrypt.bbs"
  | .encryptLcg => "encrypt.lcg"
  | .decryptBbs => "decrypt.bbs"
  | .decryptLcg => "decrypt.lcg"

/-- The three aliases that select the source's defaults (R90). -/
def mnemonicAliases : List (String × Instr) :=
  [("bbs.gen", .bbsGenLsb), ("encrypt", .encryptBbs), ("decrypt", .decryptBbs)]

/-- All commands, in the order of R85. -/
def allInstrs : List Instr :=
  [.lcgLoad, .lcgNext, .lcgGen, .bbsLoad, .bbsNext, .bbsGenLsb, .bbsGenParity, .bbsGenRaw, .construct,
    .encryptBbs, .encryptLcg, .decryptBbs, .decryptLcg]

/-- The command a mnemonic or an alias stands for (R85, R90). -/
def assemble (m : String) : Option Instr :=
  ((allInstrs.map fun i => (i.mnemonic, i)) ++ mnemonicAliases).lookup m

end Sys2Proof
end

