-- ==== Sys2Proof/Machine/State.lean ====
section
/-! DEFINITION. The state of the block (10_state.md R20 to R50), the host agent and the schedule beside it (00_scope.md R12;
70_reset_and_hazards.md R184), the reasons a step can stop, and the state after reset (R180). -/

namespace Sys2Proof.Machine

/-- A buffer of w-bit entries (R47 to R50): the written entries only, as (index, content) pairs, indices strictly rising. An
index that is not listed is unwritten, and its content is unspecified (R56). -/
abbrev Buffer (w : Nat) := List (Nat × BitVec w)

/-- Why a step stops with a fault. -/
inductive Fault where
  /-- A host access that is misaligned, of the wrong size, or to an unmapped offset (R64, R161; U1 asks for a fault).
  Raised by a host access. Safe: the block's state is unchanged and the run stops. -/
  | busError (addr size : Nat)
  /-- ENCRYPT or DECRYPT reads an IN entry that nothing has written since reset (R56; U5 asks for a fault). Raised by the
  four cipher commands. Safe: the run stops. -/
  | unwrittenInput (i : Nat)
  /-- ENCRYPT or DECRYPT reads a keystream entry below KS_LEN that was never written. Raised by the four cipher commands, only
  in states that R55(c) rules out. Safe: no run from reset meets it. -/
  | unwrittenKeystream (i : Nat)
  /-- A host access while reset is asserted: the block does not answer, the host has no step (R181; U13 asks for
  stuck). Raised by a host access. Safe: the run stops. -/
  | accessDuringReset (addr : Nat)
  /-- A host-side assertion that does not hold: `expect_err`, or `rd target -> value` (R89, R94). Raised by the host's
  assembly, never by the block. Safe: the run stops. -/
  | expectationFailed
  deriving DecidableEq, Repr

/-- Why a step is refused. -/
inductive Refusal where
  /-- The instruction has no meaning yet. Raised by an arm of exec. Safe: the run stops. -/
  | notModelled (mnemonic : String)
  /-- A host access outside [BASE, BASE + 0x80000): it is not the block's, and the platform decides what it does (R64).
  Raised by a host access. Safe: the run stops. -/
  | outsideBlock (addr : Nat)
  deriving DecidableEq, Repr

/-- The state. Each register has one home; STATUS.BUSY is computed from `pending` (R46), and the STATUS word from its fields
(R23). -/
structure State where
  /-- CMD, the last accepted command word (R24). -/
  cmd : Word
  /-- PENDING, the command in flight; STATUS.BUSY is 1 exactly when it is not none (R46). -/
  pending : Option Word
  /-- STATUS.LCG_LOADED (R23). -/
  lcgLoaded : Bool
  /-- STATUS.BBS_LOADED (R23). -/
  bbsLoaded : Bool
  /-- STATUS.CONSTRUCTED (R23). -/
  constructed : Bool
  /-- STATUS.OVERRUN (R23, R162). -/
  overrun : Bool
  /-- STATUS.ERR (R23, R160). -/
  err : ErrCode
  /-- LCG_SEED (R25). -/
  lcgSeed : Word
  /-- LCG_A, bits 15:0; the others read 0 (R26). -/
  lcgA : BitVec 16
  /-- LCG_C, bits 15:0; the others read 0 (R27). -/
  lcgC : BitVec 16
  /-- LCG_M (R28). -/
  lcgM : Word
  /-- BBS_SEED (R29). -/
  bbsSeed : Word
  /-- BBS_P (R30). -/
  bbsP : Word
  /-- BBS_Q (R31). -/
  bbsQ : Word
  /-- KEYLEN (R32). -/
  keyLen : Word
  /-- GEN_LEN (R33). -/
  genLen : Word
  /-- IN_LEN (R34). -/
  inLen : Word
  /-- LCG_STATE (R35). -/
  lcgState : Word
  /-- LCG_OUT, bits 6:0; the others read 0 (R36). -/
  lcgOut : BitVec 7
  /-- BBS_X (R37). -/
  bbsX : DWord
  /-- BBS_M (R38). -/
  bbsM : DWord
  /-- BBS_RAW (R39). -/
  bbsRaw : DWord
  /-- BBS_PAR, bit 0; the others read 0 (R40). -/
  bbsPar : BitVec 1
  /-- BBS_LSB, bit 0; the others read 0 (R41). -/
  bbsLsb : BitVec 1
  /-- KS_LEN (R42). -/
  ksLen : Word
  /-- OUT_LEN (R43). -/
  outLen : Word
  /-- CAP, hardwired to LMAX (R44): no step changes it. -/
  cap : Word
  /-- LCG_A_L, the latched multiplier (R45). -/
  lcgAL : BitVec 16
  /-- LCG_C_L, the latched increment (R45). -/
  lcgCL : BitVec 16
  /-- LCG_M_L, the latched modulus (R45). -/
  lcgML : Word
  /-- IN (R47). -/
  inBuf : Buffer 32
  /-- OUT (R48). -/
  outBuf : Buffer 64
  /-- KS_BBS (R49). -/
  ksBbs : Buffer 1
  /-- KS_LCG (R50). -/
  ksLcg : Buffer 7
  /-- BASE, the bus address of offset 0 (R9, R67): no step changes it. -/
  base : Nat
  /-- Whether the reset input is asserted (R181). -/
  inReset : Bool
  /-- The model's own: whose turns come next (assumption 3). -/
  schedule : List Turn
  /-- The host agent's: the host actions still to come, in program order (R12, R69). -/
  program : List HostInstr
  /-- The host agent's: the address and the data of every answered read, newest first. -/
  reads : List (Nat × Word)
  /-- The host agent's: the STATUS value that the last `wait` returned (R93, R94). -/
  waitStatus : Option Word
  /-- The model's own: how many free words have been drawn (R60: "drawn anew at each read"). -/
  draws : Nat
  deriving DecidableEq, Repr

/-- The state right after reset (R180, R182): every register at the value of R180, CAP at LMAX, every buffer entry unwritten,
reset released, and nothing loaded into the host agent. -/
def State.reset : State where
  cmd := 0
  pending := none
  lcgLoaded := false
  bbsLoaded := false
  constructed := false
  overrun := false
  err := .ok
  lcgSeed := 0
  lcgA := 0
  lcgC := 0
  lcgM := 0
  bbsSeed := 0
  bbsP := 0
  bbsQ := 0
  keyLen := 0
  genLen := 0
  inLen := 0
  lcgState := 0
  lcgOut := 0
  bbsX := 0
  bbsM := 0
  bbsRaw := 0
  bbsPar := 0
  bbsLsb := 0
  ksLen := 0
  outLen := 0
  cap := BitVec.ofNat 32 Config.LMAX
  lcgAL := 0
  lcgCL := 0
  lcgML := 0
  inBuf := []
  outBuf := []
  ksBbs := []
  ksLcg := []
  base := Config.BASE
  inReset := false
  schedule := []
  program := []
  reads := []
  waitStatus := none
  draws := 0

end Sys2Proof.Machine
end

