-- ==== Sys2Proof/Machine/Flags.lean ====
section
/-! DEFINITION. The flags of the block: the STATUS word and its fields (10_state.md R23, R51), the numbers of the result codes
(60_exceptions.md R160), and the even-parity bit of a BBS value (42_bbs.md R123; 00_scope.md R15). -/

namespace Sys2Proof

/-- The number of a result code (R160). -/
def ErrCode.code : ErrCode → BitVec 4
  | .ok => 0
  | .invalidModulus => 1
  | .lengthMismatch => 2
  | .codepointOverflow => 3
  | .badCommand => 4
  | .badParameter => 5
  | .notConstructed => 6
  | .capacity => 7
  | .notLoaded => 8

end Sys2Proof

namespace Sys2Proof.Machine

/-- STATUS.BUSY: 1 exactly when PENDING is not none (R46). -/
def State.busy (s : State) : Bool := s.pending.isSome

/-- The STATUS word (R23): ERR in bits 11:8, OVERRUN in bit 4, CONSTRUCTED, BBS_LOADED, LCG_LOADED and BUSY in bits 3 to 0, and
0 in the reserved bits. -/
def State.statusWord (s : State) : Word :=
  0#20 ++ s.err.code ++ 0#3 ++ BitVec.ofBool s.overrun ++ BitVec.ofBool s.constructed ++ BitVec.ofBool s.bbsLoaded
    ++ BitVec.ofBool s.lcgLoaded ++ BitVec.ofBool s.busy

/-- Bit 0 of a STATUS word (R23, R93). -/
def statusBusyBit (v : Word) : Bool := v.getLsbD 0

/-- Bits 11:8 of a STATUS word (R23, R93). -/
def statusErrField (v : Word) : BitVec 4 := v.extractLsb' 8 4

/-- The number of 1 bits among the low `k` bits of `v` (R15). -/
def popcountUpTo : Nat → Nat → Nat
  | 0, _ => 0
  | k + 1, v => v % 2 + popcountUpTo k (v / 2)

/-- The number of 1 bits of a 64-bit value (R15). -/
def popcount (v : DWord) : Nat := popcountUpTo 64 v.toNat

/-- The even-parity bit: popcount mod 2, which is 1 for an odd number of 1 bits (R123, glossary). -/
def evenParityBit (v : DWord) : BitVec 1 := BitVec.ofNat 1 (popcount v % 2)

/-- The least-significant bit (R123). -/
def leastSignificantBit (v : DWord) : BitVec 1 := BitVec.ofNat 1 (v.toNat % 2)

end Sys2Proof.Machine
end

