-- ==== Sys2Proof/Machine/Operands.lean ====
section
/-! DEFINITION. Buffer entries, the operands of the commands (30_encoding.md R83, R84) and the values they select: a buffer's
entry (10_state.md R47 to R50), the value a BBS step emits (42_bbs.md R124), the keystream value of a method and
the valid code points (43_cipher.md R144, R148). -/

namespace Sys2Proof.Machine

/-- The content of entry `i`, or none while it is unwritten (R56). -/
def Buffer.read {w : Nat} : Buffer w → Nat → Option (BitVec w)
  | [], _ => none
  | (j, u) :: t, i => if j = i then some u else Buffer.read t i

/-- Write entry `i`, keeping the indices strictly rising. -/
def Buffer.write {w : Nat} : Buffer w → Nat → BitVec w → Buffer w
  | [], i, v => [(i, v)]
  | (j, u) :: t, i, v =>
    if i < j then (i, v) :: (j, u) :: t else if i = j then (i, v) :: t else (j, u) :: Buffer.write t i v

/-- Write entries `i`, `i + 1`, … in order. -/
def Buffer.writeFrom {w : Nat} : Buffer w → Nat → List (BitVec w) → Buffer w
  | b, _, [] => b
  | b, i, v :: vs => Buffer.writeFrom (Buffer.write b i v) (i + 1) vs

/-- Every index is at least `lo` and below `lmax`, and the indices rise strictly. -/
def Buffer.wfFrom {w : Nat} (lmax : Nat) : Nat → Buffer w → Bool
  | _, [] => true
  | lo, (j, _) :: t => decide (lo ≤ j) && decide (j < lmax) && Buffer.wfFrom lmax (j + 1) t

/-- The canonical form of a buffer of `lmax` entries. -/
def Buffer.wf {w : Nat} (lmax : Nat) (b : Buffer w) : Bool := Buffer.wfFrom lmax 0 b

/-- LMAX, as CAP holds it (R44). -/
abbrev State.lmax (s : State) : Nat := s.cap.toNat

/-- The canonical form of all four buffers, the block's whole memory (R47 to R50). -/
def Memory.wf (s : State) : Bool :=
  Buffer.wf s.lmax s.inBuf && Buffer.wf s.lmax s.outBuf && Buffer.wf s.lmax s.ksBbs && Buffer.wf s.lmax s.ksLcg

/-- What one BBS step derives (R123): the raw residue, its even-parity bit and its least-significant bit. -/
structure BbsOut where
  raw : DWord
  par : BitVec 1
  lsb : BitVec 1
  deriving DecidableEq, Repr

/-- The value a BBS sequence emits, zero-extended to an OUT entry (R124, R126). -/
def extract (m : BbsMethod) (o : BbsOut) : DWord :=
  match m with
  | .lsb => o.lsb.setWidth 64
  | .parity => o.par.setWidth 64
  | .raw => o.raw

/-- The keystream value of entry `i`, zero-extended to a word (R144). -/
def State.keystream (s : State) (m : CipherMethod) (i : Nat) : Option Word :=
  match m with
  | .bbs => (Buffer.read s.ksBbs i).map (BitVec.setWidth 32)
  | .lcg => (Buffer.read s.ksLcg i).map (BitVec.setWidth 32)

/-- A valid code point is at most 0x10FFFF, surrogates included (R148). -/
def validCp (v : Word) : Bool := decide (v.toNat ≤ 0x10FFFF)

/-- GEN_LEN as an unbounded natural (R84). -/
abbrev State.genCount (s : State) : Nat := s.genLen.toNat

/-- KEYLEN as an unbounded natural (R84). -/
abbrev State.keyCount (s : State) : Nat := s.keyLen.toNat

/-- IN_LEN as an unbounded natural (R84). -/
abbrev State.inCount (s : State) : Nat := s.inLen.toNat

end Sys2Proof.Machine
end

