-- ==== Sys2Proof/Machine/Ops.lean ====
section
/-! DEFINITION. The shared operations: how a command ends (10_state.md R22; 60_exceptions.md R165), acceptance (R22), the
register map (R52, R73), the two bus primitives (20_memory.md R60, R61, R64, R65) and reset (70_reset_and_hazards.md
R181). -/

namespace Sys2Proof.Machine

/-! ## How a command ends -/

/-- The last part of completion (R22(3)): ERR takes the result code, PENDING is cleared and so BUSY is 0. -/
def State.finish (s : State) (code : ErrCode) : State := { s with err := code, pending := none }

/-- `raise <Error>` (R17, R165): the one way a command fails. It writes ERR and clears BUSY; nothing else changes. There is no
trap, no saved state and no handler (R169, R171). -/
def raise (code : ErrCode) (s : State) : Host.Outcome State Fault Refusal := .next (s.finish code)

/-- A command succeeds with the state its rule gives, ERR = 0 (R22(3)). -/
def succeed (s : State) : Host.Outcome State Fault Refusal := .next (s.finish .ok)

/-- Acceptance of a word while BUSY = 0 (R22(2)). -/
def State.accept (s : State) (w : Word) : State := { s with cmd := w, pending := some w, err := .ok }

/-! ## The register map -/

/-- All registers of the map, in the order of R52. -/
def allRegs : List Reg :=
  [.cmd, .status, .lcgSeed, .lcgA, .lcgC, .lcgM, .bbsSeed, .bbsP, .bbsQ, .keyLen, .genLen, .inLen, .lcgState, .lcgOut,
    .bbsXLo, .bbsXHi, .bbsMLo, .bbsMHi, .bbsRawLo, .bbsRawHi, .bbsPar, .bbsLsb, .ksLen, .outLen, .cap]

/-- The offset of a register (R52). -/
def regOffset : Reg → Nat
  | .cmd => 0x000
  | .status => 0x004
  | .lcgSeed => 0x010
  | .lcgA => 0x014
  | .lcgC => 0x018
  | .lcgM => 0x01C
  | .bbsSeed => 0x020
  | .bbsP => 0x024
  | .bbsQ => 0x028
  | .keyLen => 0x030
  | .genLen => 0x034
  | .inLen => 0x038
  | .lcgState => 0x040
  | .lcgOut => 0x044
  | .bbsXLo => 0x050
  | .bbsXHi => 0x054
  | .bbsMLo => 0x058
  | .bbsMHi => 0x05C
  | .bbsRawLo => 0x060
  | .bbsRawHi => 0x064
  | .bbsPar => 0x068
  | .bbsLsb => 0x06C
  | .ksLen => 0x070
  | .outLen => 0x074
  | .cap => 0x078

/-- The offset of a place (R52, R73). -/
def placeOffset : Place → Nat
  | .reg r => regOffset r
  | .inEntry i => 0x10000 + 4 * i
  | .outLo i => 0x20000 + 8 * i
  | .outHi i => 0x20000 + 8 * i + 4
  | .ksBbs i => 0x30000 + 4 * i
  | .ksLcg i => 0x40000 + 4 * i

/-- The offset of an assembly target (R89). -/
def targetOffset : Target → Nat
  | .place p => placeOffset p
  | .raw off => off

/-- An entry of a buffer window, if its index is below LMAX (R73, R64(c)). -/
def entryAt (lmax : Nat) (mk : Nat → Place) (i : Nat) : Option Place := if i < lmax then some (mk i) else none

/-- What a word-aligned offset names, or none where it is unmapped (R52, R64(b) and (c), R73). -/
def placeAt (lmax off : Nat) : Option Place :=
  if off % 4 ≠ 0 then none
  else if off < 0x10000 then (allRegs.find? fun r => regOffset r == off).map .reg
  else if off < 0x20000 then entryAt lmax .inEntry ((off - 0x10000) / 4)
  else if off < 0x30000 then entryAt lmax (if off % 8 = 0 then .outLo else .outHi) ((off - 0x20000) / 8)
  else if off < 0x40000 then entryAt lmax .ksBbs ((off - 0x30000) / 4)
  else if off < 0x50000 then entryAt lmax .ksLcg ((off - 0x40000) / 4)
  else none

/-- `decodes(off, size)` with the place it finds (R63, R64): only 32-bit accesses decode. -/
def decodeAccess (lmax off size : Nat) : Option Place := if size = 4 then placeAt lmax off else none

/-- Whether an address is the block's (R54, R64). -/
def State.owns (s : State) (addr : Nat) : Bool := decide (s.base ≤ addr) && decide (addr < s.base + 0x80000)

/-! ## Reading -/

/-- Bits 31:0 of a 64-bit quantity, at its lower offset (R62). -/
def lowWord (v : DWord) : Word := v.extractLsb' 0 32

/-- Bits 63:32 of a 64-bit quantity, at offset + 4 (R62). -/
def highWord (v : DWord) : Word := v.extractLsb' 32 32

/-- The word a register reads as, reserved bits 0 (R20, R60). -/
def State.regWord (s : State) : Reg → Word
  | .cmd => s.cmd
  | .status => s.statusWord
  | .lcgSeed => s.lcgSeed
  | .lcgA => s.lcgA.setWidth 32
  | .lcgC => s.lcgC.setWidth 32
  | .lcgM => s.lcgM
  | .bbsSeed => s.bbsSeed
  | .bbsP => s.bbsP
  | .bbsQ => s.bbsQ
  | .keyLen => s.keyLen
  | .genLen => s.genLen
  | .inLen => s.inLen
  | .lcgState => s.lcgState
  | .lcgOut => s.lcgOut.setWidth 32
  | .bbsXLo => lowWord s.bbsX
  | .bbsXHi => highWord s.bbsX
  | .bbsMLo => lowWord s.bbsM
  | .bbsMHi => highWord s.bbsM
  | .bbsRawLo => lowWord s.bbsRaw
  | .bbsRawHi => highWord s.bbsRaw
  | .bbsPar => s.bbsPar.setWidth 32
  | .bbsLsb => s.bbsLsb.setWidth 32
  | .ksLen => s.ksLen
  | .outLen => s.outLen
  | .cap => s.cap

/-- Whether the host may read keystream entry `i` (R60). -/
def State.ksVisible (s : State) (i : Nat) : Bool := s.constructed && decide (i < s.ksLen.toNat)

/-- Whether the host may read OUT entry `i` (R60). -/
def State.outVisible (s : State) (i : Nat) : Bool := decide (i < s.outLen.toNat)

/-- What a place reads as while idle; none where R60 answers ANY_32. -/
def State.placeWord (s : State) : Place → Option Word
  | .reg r => some (s.regWord r)
  | .inEntry i => Buffer.read s.inBuf i
  | .outLo i => if s.outVisible i then (Buffer.read s.outBuf i).map lowWord else none
  | .outHi i => if s.outVisible i then (Buffer.read s.outBuf i).map highWord else none
  | .ksBbs i => if s.ksVisible i then (Buffer.read s.ksBbs i).map (BitVec.setWidth 32) else none
  | .ksLcg i => if s.ksVisible i then (Buffer.read s.ksLcg i).map (BitVec.setWidth 32) else none

/-- What the block answers to a read of its window. -/
inductive Answer where
  /-- A bus error (R64). -/
  | busError
  /-- ANY_32 (R60). -/
  | anyWord
  /-- This word. -/
  | word (v : Word)
  deriving DecidableEq, Repr

/-- MemRead at an offset of the window, as a function of the state, which it does not change (R60, R64, R65, R66). -/
def State.answer (s : State) (off size : Nat) : Answer :=
  match decodeAccess s.lmax off size with
  | none => .busError
  | some p =>
    if s.busy && decide (p ≠ .reg .status) then .anyWord
    else
      match s.placeWord p with
      | none => .anyWord
      | some v => .word v

/-- Byte lane `k` of a word: bits 8k+7 : 8k (R62). -/
def byteLane (v : Word) (k : Nat) : Byte := v.extractLsb' (8 * k) 8

/-- The byte at byte offset `off`, where the block gives it a value: byte lane `k` of the word at a word offset has byte offset
k more (R62). It is a view of the word access, not an access: the only legal access is 32 bits wide (R63). -/
def State.byteAt (s : State) (off : Nat) : Option Byte :=
  match s.answer (off - off % 4) 4 with
  | .word v => some (byteLane v (off % 4))
  | .anyWord => none
  | .busError => none

/-- Hand a read's word to the host. -/
def State.deliver (s : State) (addr : Nat) (v : Word) : State := { s with reads := (addr, v) :: s.reads }

/-- One host read, MemRead(addr, size) (R60, R64): the word, and the state after it. No state of the block changes (R66);
ANY_32 takes a fresh draw. -/
def memRead (addr size : Nat) (s : State) : Host.Outcome (Word × State) Fault Refusal :=
  if s.owns addr then
    if s.inReset then .fault (.accessDuringReset addr)
    else
      match s.answer (addr - s.base) size with
      | .busError => .fault (.busError addr size)
      | .anyWord =>
        .next (Config.freeWord s.draws, { s.deliver addr (Config.freeWord s.draws) with draws := s.draws + 1 })
      | .word v => .next (v, s.deliver addr v)
  else .refused (.outsideBlock addr)

/-! ## Writing -/

/-- A write to a register while BUSY = 0 (R61, R53). -/
def State.writeReg (s : State) (r : Reg) (v : Word) : State :=
  match r with
  | .cmd => s.accept v
  | .lcgSeed => { s with lcgSeed := v }
  | .lcgA => { s with lcgA := v.extractLsb' 0 16 }
  | .lcgC => { s with lcgC := v.extractLsb' 0 16 }
  | .lcgM => { s with lcgM := v }
  | .bbsSeed => { s with bbsSeed := v }
  | .bbsP => { s with bbsP := v }
  | .bbsQ => { s with bbsQ := v }
  | .keyLen => { s with keyLen := v }
  | .genLen => { s with genLen := v }
  | .inLen => { s with inLen := v }
  | .status => s
  | .lcgState => s
  | .lcgOut => s
  | .bbsXLo => s
  | .bbsXHi => s
  | .bbsMLo => s
  | .bbsMHi => s
  | .bbsRawLo => s
  | .bbsRawHi => s
  | .bbsPar => s
  | .bbsLsb => s
  | .ksLen => s
  | .outLen => s
  | .cap => s

/-- A write to a mapped place other than STATUS while BUSY = 0 (R61, R53). -/
def State.writeIdle (s : State) (p : Place) (v : Word) : State :=
  match p with
  | .reg r => s.writeReg r v
  | .inEntry i => { s with inBuf := Buffer.write s.inBuf i v }
  | .outLo _ => s
  | .outHi _ => s
  | .ksBbs _ => s
  | .ksLcg _ => s

/-- A write to STATUS: bit 4 is write-1-to-clear, and nothing else changes (R23, R61). -/
def State.writeStatus (s : State) (v : Word) : State := if v.getLsbD 4 then { s with overrun := false } else s

/-- A write to a mapped place (R61, R65): STATUS at any time, every other place only while BUSY = 0; else OVERRUN is set. -/
def State.writePlace (s : State) (p : Place) (v : Word) : State :=
  if p = .reg .status then s.writeStatus v else if s.busy then { s with overrun := true } else s.writeIdle p v

/-- One host write, MemWrite(addr, size, v) (R61, R64). -/
def memWrite (addr size : Nat) (v : Word) (s : State) : Host.Outcome State Fault Refusal :=
  if s.owns addr then
    if s.inReset then .fault (.accessDuringReset addr)
    else
      match decodeAccess s.lmax (addr - s.base) size with
      | none => .fault (.busError addr size)
      | some p => .next (s.writePlace p v)
  else .refused (.outsideBlock addr)

/-! ## Reset -/

/-- Reset is asserted (R181): every item of R180 takes its reset value and a command in flight is abandoned. CAP and BASE are
wired; the host agent and the schedule are not the block's, and keep what they hold. -/
def State.assertReset (s : State) : State :=
  { State.reset with
    cap := s.cap, base := s.base, inReset := true, schedule := s.schedule, program := s.program, reads := s.reads,
    waitStatus := s.waitStatus, draws := s.draws }

/-- Reset is released (R181, R182). -/
def State.releaseReset (s : State) : State := { s with inReset := false }

end Sys2Proof.Machine
end

