-- ==== Sys2Proof/Machine/Bbs.lean ====
section
/-! DEFINITION. The BBS generator commands (42_bbs.md). -/

namespace Sys2Proof.Machine

/-- No `d` with `lo ≤ d < lo + 2^k` and d² ≤ n divides `n`. The range is halved, so that the recursion is `k` deep. -/
def noDivisorIn (n : Nat) : Nat → Nat → Bool
  | 0, lo => Nat.blt n (lo * lo) || !Nat.beq (n % lo) 0
  | k + 1, lo => Nat.blt n (lo * lo) || (noDivisorIn n k lo && noDivisorIn n k (lo + 2 ^ k))

/-- `prime(v)` of R17, exact for every v < 2^32 (R121, U7): a composite v < 2^32 has a divisor in [2, 2^16). -/
def primeWord (v : Word) : Bool := decide (2 ≤ v.toNat) && noDivisorIn v.toNat 16 2

/-- `blum_ok(p, q)` (R121). -/
def blumOk (p q : Word) : Bool :=
  primeWord p && primeWord q && decide (p.toNat % 4 = 3) && decide (q.toNat % 4 = 3) && decide (p ≠ q)

/-- `bbs_step` (R123): x' = x² mod M, exact, with the three values derived from it. For M ≥ 1 the result is below M. -/
def bbsStep (m x : DWord) : BbsOut :=
  let x' := BitVec.ofNat 64 (x.toNat * x.toNat % m.toNat)
  ⟨x', evenParityBit x', leastSignificantBit x'⟩

/-- The load of BBS_LOAD and of CONSTRUCT (R120, R140): M = p·q, exact, and the seed reduced. -/
def State.loadBbs (s : State) : State :=
  { s with
    bbsM := BitVec.ofNat 64 (s.bbsP.toNat * s.bbsQ.toNat)
    bbsX := BitVec.ofNat 64 (s.bbsSeed.toNat % (s.bbsP.toNat * s.bbsQ.toNat)), bbsLoaded := true }

/-- One BBS step on the state (R122): BBS_X, BBS_RAW, BBS_PAR and BBS_LSB are written. -/
def State.bbsTick (s : State) : State :=
  { s with
    bbsX := (bbsStep s.bbsM s.bbsX).raw, bbsRaw := (bbsStep s.bbsM s.bbsX).raw
    bbsPar := (bbsStep s.bbsM s.bbsX).par, bbsLsb := (bbsStep s.bbsM s.bbsX).lsb }

/-- What the last BBS step left in the result registers (R39, R40, R41). -/
def State.bbsResult (s : State) : BbsOut := ⟨s.bbsRaw, s.bbsPar, s.bbsLsb⟩

/-- `n` BBS steps, with what each derives, in order (R126, R140). -/
def State.bbsTicks : Nat → State → List BbsOut × State
  | 0, s => ([], s)
  | n + 1, s =>
    let s1 := s.bbsTick
    let r := State.bbsTicks n s1
    (s1.bbsResult :: r.1, r.2)

/-- BBS_GEN with a method (R126). -/
def bbsGen (m : BbsMethod) (s : State) : Host.Outcome State Fault Refusal :=
  if s.bbsLoaded then
    if s.lmax < s.genCount then raise .capacity s
    else
      let r := State.bbsTicks s.genCount s
      succeed { r.2 with outBuf := Buffer.writeFrom s.outBuf 0 (r.1.map (extract m)), outLen := s.genLen }
  else raise .notLoaded s

/-- BBS_LOAD (R120). -/
def execBbsLoad (s : State) : Host.Outcome State Fault Refusal :=
  if blumOk s.bbsP s.bbsQ then succeed s.loadBbs else raise .invalidModulus s

/-- BBS_NEXT (R122). -/
def execBbsNext (s : State) : Host.Outcome State Fault Refusal :=
  if s.bbsLoaded then succeed s.bbsTick else raise .notLoaded s

/-- bbs.gen.lsb (R126, METHOD 0). -/
def execBbsGenLsb (s : State) : Host.Outcome State Fault Refusal := bbsGen .lsb s

/-- bbs.gen.parity (R126, METHOD 1). -/
def execBbsGenParity (s : State) : Host.Outcome State Fault Refusal := bbsGen .parity s

/-- bbs.gen.raw (R126, METHOD 2). -/
def execBbsGenRaw (s : State) : Host.Outcome State Fault Refusal := bbsGen .raw s

end Sys2Proof.Machine
end

