-- ==== Sys2Proof/Machine/Lcg.lean ====
section
/-! DEFINITION. The LCG generator commands (41_lcg.md). -/

namespace Sys2Proof.Machine

/-- `lcg_step` (R102): s' = (a·s + c) mod m, exact, and out = s' mod 128. For m ≥ 1 the result is below m. -/
def lcgStep (a c : BitVec 16) (m s : Word) : Word × BitVec 7 :=
  let s' := (a.toNat * s.toNat + c.toNat) % m.toNat
  (BitVec.ofNat 32 s', BitVec.ofNat 7 (s' % 128))

/-- The load of LCG_LOAD and of CONSTRUCT (R100, R140): latch a, c and m, and reduce the seed. -/
def State.loadLcg (s : State) : State :=
  { s with
    lcgAL := s.lcgA, lcgCL := s.lcgC, lcgML := s.lcgM
    lcgState := BitVec.ofNat 32 (s.lcgSeed.toNat % s.lcgM.toNat), lcgLoaded := true }

/-- One LCG step on the state (R101, R36): LCG_STATE and LCG_OUT are written. -/
def State.lcgTick (s : State) : State :=
  { s with
    lcgState := (lcgStep s.lcgAL s.lcgCL s.lcgML s.lcgState).1
    lcgOut := (lcgStep s.lcgAL s.lcgCL s.lcgML s.lcgState).2 }

/-- `n` LCG steps, with the outputs in order (R103, R140). -/
def State.lcgTicks : Nat → State → List (BitVec 7) × State
  | 0, s => ([], s)
  | n + 1, s =>
    let s1 := s.lcgTick
    let r := State.lcgTicks n s1
    (s1.lcgOut :: r.1, r.2)

/-- LCG_LOAD (R100). -/
def execLcgLoad (s : State) : Host.Outcome State Fault Refusal :=
  if s.lcgM = 0 then raise .badParameter s else succeed s.loadLcg

/-- LCG_NEXT (R101). -/
def execLcgNext (s : State) : Host.Outcome State Fault Refusal :=
  if s.lcgLoaded then succeed s.lcgTick else raise .notLoaded s

/-- LCG_GEN (R103). -/
def execLcgGen (s : State) : Host.Outcome State Fault Refusal :=
  if s.lcgLoaded then
    if s.lmax < s.genCount then raise .capacity s
    else
      let r := State.lcgTicks s.genCount s
      succeed { r.2 with outBuf := Buffer.writeFrom s.outBuf 0 (r.1.map (BitVec.setWidth 64)), outLen := s.genLen }
  else raise .notLoaded s

end Sys2Proof.Machine
end

