-- ==== Sys2Proof/Machine/Cipher.lean ====
section
/-! DEFINITION. The stream-cipher commands (43_cipher.md). -/

namespace Sys2Proof.Machine

/-- Fill both keystreams (R140): L steps of each generator, the LCG outputs into KS_LCG, the least-significant bits (the
default policy) into KS_BBS. The two generators share no state, so their steps need not be interleaved. -/
def State.drain (s : State) (n : Nat) : State :=
  let l := State.lcgTicks n s
  let b := State.bbsTicks n l.2
  { b.2 with
    ksLcg := Buffer.writeFrom s.ksLcg 0 l.1, ksBbs := Buffer.writeFrom s.ksBbs 0 (b.1.map BbsOut.lsb) }

/-- CONSTRUCT (R140), its checks in the order of R166. -/
def execConstruct (s : State) : Host.Outcome State Fault Refusal :=
  if s.lmax < s.keyCount then raise .capacity s
  else if s.lcgM = 0 then raise .badParameter s
  else if blumOk s.bbsP s.bbsQ then
    succeed { s.loadLcg.loadBbs.drain s.keyCount with ksLen := s.keyLen, constructed := true }
  else raise .invalidModulus s

/-- The results `IN[i] xor zext_32(k)` for `n` entries from entry `i` on (R144), or the fault of the first entry that nothing
has written (R56, U5). -/
def xorFrom (m : CipherMethod) (s : State) : Nat → Nat → Except Fault (List Word)
  | 0, _ => .ok []
  | n + 1, i =>
    match Buffer.read s.inBuf i with
    | none => .error (.unwrittenInput i)
    | some v =>
      match s.keystream m i with
      | none => .error (.unwrittenKeystream i)
      | some k =>
        match xorFrom m s n (i + 1) with
        | .error f => .error f
        | .ok rs => .ok ((v ^^^ k) :: rs)

/-- `xor_transform(method)` (R144), all or nothing. -/
def xorTransform (m : CipherMethod) (s : State) : Host.Outcome State Fault Refusal :=
  if s.constructed then
    if s.inLen ≠ s.ksLen then raise .lengthMismatch s
    else
      match xorFrom m s s.inCount 0 with
      | .error f => .fault f
      | .ok rs =>
        if rs.all validCp then
          succeed { s with outBuf := Buffer.writeFrom s.outBuf 0 (rs.map (BitVec.setWidth 64)), outLen := s.inLen }
        else raise .codepointOverflow s
  else raise .notConstructed s

/-- encrypt.bbs (R143, METHOD 0). -/
def execEncryptBbs (s : State) : Host.Outcome State Fault Refusal := xorTransform .bbs s

/-- encrypt.lcg (R143, METHOD 1). -/
def execEncryptLcg (s : State) : Host.Outcome State Fault Refusal := xorTransform .lcg s

/-- decrypt.bbs (R146, METHOD 0): the same datapath as ENCRYPT. -/
def execDecryptBbs (s : State) : Host.Outcome State Fault Refusal := xorTransform .bbs s

/-- decrypt.lcg (R146, METHOD 1): the same datapath as ENCRYPT. -/
def execDecryptLcg (s : State) : Host.Outcome State Fault Refusal := xorTransform .lcg s

end Sys2Proof.Machine
end

