-- ==== Sys2Proof/Machine/Dispatch.lean ====
section
/-! DEFINITION. The meaning of every command, arm by arm: the completion of a decoded command (10_state.md R22(3)). -/

namespace Sys2Proof.Machine

def exec (i : Instr) (s : State) : Host.Outcome State Fault Refusal :=
  match i with
  | .lcgLoad => Sys2Proof.Machine.execLcgLoad s
  | .lcgNext => Sys2Proof.Machine.execLcgNext s
  | .lcgGen => Sys2Proof.Machine.execLcgGen s
  | .bbsLoad => Sys2Proof.Machine.execBbsLoad s
  | .bbsNext => Sys2Proof.Machine.execBbsNext s
  | .bbsGenLsb => Sys2Proof.Machine.execBbsGenLsb s
  | .bbsGenParity => Sys2Proof.Machine.execBbsGenParity s
  | .bbsGenRaw => Sys2Proof.Machine.execBbsGenRaw s
  | .construct => Sys2Proof.Machine.execConstruct s
  | .encryptBbs => Sys2Proof.Machine.execEncryptBbs s
  | .encryptLcg => Sys2Proof.Machine.execEncryptLcg s
  | .decryptBbs => Sys2Proof.Machine.execDecryptBbs s
  | .decryptLcg => Sys2Proof.Machine.execDecryptLcg s

end Sys2Proof.Machine
end

