-- ==== Sys2Proof/Machine/Agents.lean ====
section
/-! DEFINITION. The two agents of 00_scope.md R12: the command engine, whose one step completes PENDING
(70_reset_and_hazards.md R184), and the host, whose steps are bus accesses (20_memory.md R60, R61) that it writes in the
assembly of 30_encoding.md R89 to R94. -/

namespace Sys2Proof.Machine

/-- The engine's step (R22(3), R86, R87, R184): decode PENDING and complete it in one atomic step; an illegal word completes
with BAD_COMMAND. With nothing pending the step is not enabled, and the turn passes with nothing done. -/
def engineStep (s : State) : Host.Outcome State Fault Refusal :=
  match s.pending with
  | none => .next s
  | some w =>
    match decode w with
    | .legal i => exec i s
    | .illegal _ => raise .badCommand s

/-- Go on with the word of a read and the state after it. -/
def afterRead (o : Host.Outcome (Word × State) Fault Refusal) (k : Word → State → Host.Outcome State Fault Refusal) :
    Host.Outcome State Fault Refusal :=
  match o with
  | .next r => k r.1 r.2
  | .fault f => .fault f
  | .refused r => .refused r

/-- A host-side assertion (R89, R94): it does not touch the block. -/
def expect (ok : Bool) (s : State) : Host.Outcome State Fault Refusal :=
  if ok then .next s else .fault .expectationFailed

/-- MemRead of STATUS, and what `wait` does with it (R93): go round again while bit 0 is 1, else keep the value. -/
def pollStatus (s : State) : Host.Outcome State Fault Refusal :=
  afterRead (memRead (s.base + regOffset .status) 4 s) fun v t =>
    if statusBusyBit v then .next { t with program := .wait :: t.program } else .next { t with waitStatus := some v }

/-- One host action, already taken off the program. -/
def hostAction (h : HostInstr) (s : State) : Host.Outcome State Fault Refusal :=
  match h with
  | .memRead addr size => afterRead (memRead addr size s) fun _ t => .next t
  | .memWrite addr size v => memWrite addr size v s
  | .wr t v => memWrite (s.base + targetOffset t) 4 v s
  | .rd t none => afterRead (memRead (s.base + targetOffset t) 4 s) fun _ t => .next t
  | .rd t (some e) => afterRead (memRead (s.base + targetOffset t) 4 s) fun v t => expect (decide (v = e)) t
  | .issue i => memWrite (s.base + regOffset .cmd) 4 (encode i) s
  | .cmd i => memWrite (s.base + regOffset .cmd) 4 (encode i) { s with program := .wait :: s.program }
  | .wait => pollStatus s
  | .expectErr c =>
    expect (match s.waitStatus with
      | some v => decide (statusErrField v = c.code)
      | none => false) s

/-- The host's step: the next action of its program, in order (R69). A host with nothing more to do leaves everything as it
is. -/
def hostStep (s : State) : Host.Outcome State Fault Refusal :=
  match s.program with
  | [] => .next s
  | h :: rest => hostAction h { s with program := rest }

/-- One turn of the schedule. -/
def takeTurn (t : Turn) (s : State) : Host.Outcome State Fault Refusal :=
  match t with
  | .host => hostStep s
  | .engine => engineStep s
  | .assertReset => .next s.assertReset
  | .releaseReset => .next s.releaseReset

/-- The turn when the schedule names none: the engine's while a command is in flight, so that every command completes (R185,
weak fairness), else the host's. -/
def defaultTurn (s : State) : Turn := if s.busy then .engine else .host

/-- Whose turn the next step is. -/
def nextTurn (s : State) : Turn :=
  match s.schedule with
  | [] => defaultTurn s
  | t :: _ => t

/-- A command word in flight and the engine's turn next, as the acceptance of a CMD write leaves them (R22(2)). -/
def loadWord (s : State) (w : Word) : State := { s.accept w with inReset := false, schedule := .engine :: s.schedule }

end Sys2Proof.Machine
end

