-- ==== Sys2Proof/Machine/Step.lean ====
section
/-! DEFINITION. One step of the machine: the next turn of the schedule (70_reset_and_hazards.md R184). -/

namespace Sys2Proof.Machine

/-- One step: the schedule says whose turn it is; with no turn left it is the default turn. -/
def step (s : State) : Host.Outcome State Fault Refusal :=
  match s.schedule with
  | [] => takeTurn (defaultTurn s) s
  | t :: rest => takeTurn t { s with schedule := rest }

/-- The state with a command word accepted, so that the very next step completes it (R22(2), R72). A command is one 32-bit
word (R88): the bits above `nbits` are 0. -/
def State.withFetchWord (s : State) (nbits w : Nat) : State := loadWord s (BitVec.ofNat 32 (w % 2 ^ nbits))

end Sys2Proof.Machine
end

