-- ==== Sys2Proof/Machine/Program.lean ====
section
/-! DEFINITION. The end of a host program (70_reset_and_hazards.md R190): the state after its last host instruction, provided
that this is a `wait`, or the `wait` that a `cmd` ends in. -/

namespace Sys2Proof.Machine

/-- A read or a host-side assertion: it changes no state of the block (20_memory.md R60, R66; 30_encoding.md R94). -/
def observes : HostInstr → Bool
  | .memRead _ _ => true
  | .memWrite _ _ _ => false
  | .wr _ _ => false
  | .rd _ _ => true
  | .issue _ => false
  | .cmd _ => false
  | .wait => false
  | .expectErr _ => true

/-- Whether, after the step from `s` to `t`, the last instruction of the host that does more than observe is a `wait` that has
returned, with no reset since (R93, R190). `waited` says it of `s`. That the programs of 95_test_vectors.md may observe after
their last `wait` is assumption 21. -/
def waitedAfter (waited : Bool) (s t : State) : Bool :=
  match nextTurn s with
  | .host =>
    match s.program with
    | [] => waited
    | .wait :: rest => decide (t.program = rest)
    | h :: _ => observes h && waited
  | .engine => waited
  | .assertReset => false
  | .releaseReset => waited

/-- The step from `s` to `t` is the host's last instruction: its program ends with it. -/
def lastInstruction (s t : State) : Bool := decide (nextTurn s = .host) && !s.program.isEmpty && t.program.isEmpty

/-- The state after the last host instruction, if it comes within `k` steps and R190 gives the program an end state. -/
def endFrom : Nat → Bool → State → Option State
  | 0, _, _ => none
  | k + 1, waited, s =>
    match step s with
    | .next t =>
      if lastInstruction s t then if waitedAfter waited s t then some t else none
      else endFrom k (waitedAfter waited s t) t
    | .fault _ => none
    | .refused _ => none

/-- The end of the host program of `s` (R190), if it comes within `k` steps; none for a program that stops, or whose last
instruction is no `wait`. -/
def programEnd (k : Nat) (s : State) : Option State := endFrom k false s

/-- The end state as R190 defines it: what a MemRead of the word at this offset returns; none where the definition does not say
(unwritten and stale entries, a read that is not answered). -/
def endValue (s : State) (off : Nat) : Option Word :=
  if s.inReset then none
  else
    match s.answer off 4 with
    | .word v => some v
    | .anyWord => none
    | .busError => none

end Sys2Proof.Machine
end

