-- ==== Sys2Proof/Safety.lean ====
section
/-! DEFINITION. What claims are stated in terms of: the next state of an outcome, the part of a state that is the block's, the
invariants of 10_state.md R55 with the ones the model adds, and a safe run. -/

namespace Sys2Proof.Machine

/-- The next state, if there is one. -/
def nextState? (o : Host.Outcome State Fault Refusal) : Option State :=
  match o with
  | .next s => some s
  | .fault _ => none
  | .refused _ => none

/-- `t` holds the same block state as `s`: only the host agent's fields, the schedule and the model's draw counter may
differ. -/
def State.sameBlock (s t : State) : Prop :=
  t = { s with
    schedule := t.schedule, program := t.program, reads := t.reads, waitStatus := t.waitStatus, draws := t.draws }

/-- The command that the next step completes, if it completes a legal one. -/
def completing (s : State) : Option Instr :=
  match nextTurn s, s.pending with
  | .engine, some w => (decode w).instr?
  | _, _ => none

/-- The invariants. `lcg`, `bbs`, `ks` and `out` are R55(a) to (d); the others are the model's reading of R9, R23, R39 to R41,
R67 and R181, and the canonical form of the buffers. -/
structure Invariants (s : State) : Prop where
  /-- 1 ≤ LMAX ≤ 8192 (R9). -/
  cap : 1 ≤ s.cap.toNat ∧ s.cap.toNat ≤ 8192
  /-- BASE is a multiple of 0x80000 (R9, R67). -/
  base : 0x80000 ∣ s.base
  /-- ERR reads 0 while BUSY = 1 (R23). -/
  busyErr : s.pending ≠ none → s.err = .ok
  /-- No command is in flight while reset is asserted (R181). -/
  inReset : s.inReset = true → s.pending = none
  /-- R55(a). -/
  lcg : s.lcgLoaded = true → 1 ≤ s.lcgML.toNat ∧ s.lcgState.toNat < s.lcgML.toNat
  /-- R55(b). -/
  bbs : s.bbsLoaded = true →
    (∃ p q : Nat, p.Prime ∧ q.Prime ∧ p % 4 = 3 ∧ q % 4 = 3 ∧ p ≠ q ∧ s.bbsM.toNat = p * q) ∧
      s.bbsX.toNat < s.bbsM.toNat
  /-- R55(c); that an entry is 0 or 1, or at most 127, is in the entries' widths. -/
  ks : s.constructed = true →
    s.ksLen.toNat ≤ s.cap.toNat ∧
      ∀ i, i < s.ksLen.toNat → (Buffer.read s.ksBbs i).isSome = true ∧ (Buffer.read s.ksLcg i).isSome = true
  /-- R55(d), and that the entries below OUT_LEN are written (R43). -/
  out : s.outLen.toNat ≤ s.cap.toNat ∧ ∀ i, i < s.outLen.toNat → (Buffer.read s.outBuf i).isSome = true
  /-- BBS_PAR and BBS_LSB are those of BBS_RAW (R39, R40, R41). -/
  bbsResult : s.bbsPar = evenParityBit s.bbsRaw ∧ s.bbsLsb = leastSignificantBit s.bbsRaw
  /-- The buffers keep their canonical form. -/
  mem : Memory.wf s = true

/-- A run of `k` steps that meets no fault. -/
def safeRun (k : Nat) (s : State) : Prop := ∀ f : Fault, Sys2Proof.core.run k s ≠ .fault f

end Sys2Proof.Machine
end

