-- ==== Sys2Proof/Certificates/Slice0/Obligations.lean ====
section
/-! DEFINITION. The statements for the provers, each a Prop, from the numbered rules of spec/. `Sys2Proof.Spec` holds the words
they use: the generators' recurrences over the naturals, the tables of the spec, and how a failed command ends. -/

namespace Sys2Proof.Spec

open Sys2Proof.Machine

/-- state ← (a·state + c) mod m (R102). -/
def lcgNat (a c m x : Nat) : Nat := (a * x + c) % m

/-- x ← x² mod M (R123). -/
def bbsNat (m x : Nat) : Nat := x * x % m

/-- The even-parity bit: the number of 1 bits, mod 2 (R15, R123). -/
def parity (x : Nat) : Nat := (Nat.digits 2 x).count 1 % 2

/-- What `blum_ok(p, q)` asks (R121). -/
def blum (p q : Nat) : Prop := p.Prime ∧ q.Prime ∧ p % 4 = 3 ∧ q % 4 = 3 ∧ p ≠ q

/-- The value a method emits at a BBS value (R124). -/
def emitted : BbsMethod → Nat → Nat
  | .lsb, x => x % 2
  | .parity, x => parity x
  | .raw, x => x

/-- The state after a command that fails with this code (R165). -/
def failed (e : ErrCode) (s : State) : State := { s with err := e, pending := none }

/-- The thirteen legal words (R85). -/
def wordTable : List (Word × Instr) :=
  [(0x00000001, .lcgLoad), (0x00000002, .lcgNext), (0x00000003, .lcgGen), (0x00000011, .bbsLoad),
    (0x00000012, .bbsNext), (0x00000013, .bbsGenLsb), (0x00000113, .bbsGenParity), (0x00000213, .bbsGenRaw),
    (0x00000021, .construct), (0x00000031, .encryptBbs), (0x00000131, .encryptLcg), (0x00000032, .decryptBbs),
    (0x00000132, .decryptLcg)]

/-- The thirteen words and their mnemonics (R85). -/
def mnemonicTable : List (Word × String) :=
  [(0x00000001, "lcg.load"), (0x00000002, "lcg.next"), (0x00000003, "lcg.gen"), (0x00000011, "bbs.load"),
    (0x00000012, "bbs.next"), (0x00000013, "bbs.gen.lsb"), (0x00000113, "bbs.gen.parity"),
    (0x00000213, "bbs.gen.raw"), (0x00000021, "construct"), (0x00000031, "encrypt.bbs"),
    (0x00000131, "encrypt.lcg"), (0x00000032, "decrypt.bbs"), (0x00000132, "decrypt.lcg")]

/-- The illegal words as R87 lists them, by the fields of R80. -/
def illegalWord (w : Word) : Prop :=
  let op := w.toNat % 256
  let method := w.toNat / 256 % 4
  let rsvd := w.toNat / 1024
  rsvd ≠ 0 ∨ op ∉ [0x01, 0x02, 0x03, 0x11, 0x12, 0x13, 0x21, 0x31, 0x32] ∨ (op = 0x13 ∧ method = 3) ∨
    ((op = 0x31 ∨ op = 0x32) ∧ (method = 2 ∨ method = 3)) ∨
    (op ≠ 0x13 ∧ op ≠ 0x31 ∧ op ≠ 0x32 ∧ method ≠ 0)

/-- The registers and their offsets (R52). -/
def registerTable : List (Nat × Reg) :=
  [(0x000, .cmd), (0x004, .status), (0x010, .lcgSeed), (0x014, .lcgA), (0x018, .lcgC), (0x01C, .lcgM), (0x020, .bbsSeed),
    (0x024, .bbsP), (0x028, .bbsQ), (0x030, .keyLen), (0x034, .genLen), (0x038, .inLen), (0x040, .lcgState),
    (0x044, .lcgOut), (0x050, .bbsXLo), (0x054, .bbsXHi), (0x058, .bbsMLo), (0x05C, .bbsMHi), (0x060, .bbsRawLo),
    (0x064, .bbsRawHi), (0x068, .bbsPar), (0x06C, .bbsLsb), (0x070, .ksLen), (0x074, .outLen), (0x078, .cap)]

/-- An offset that R52 does not list and that is no buffer entry of R73. -/
def unmapped (lmax off : Nat) : Prop :=
  (∀ r, (off, r) ∉ registerTable) ∧
    ∀ i, i < lmax → off ≠ 0x10000 + 4 * i ∧ off ≠ 0x20000 + 8 * i ∧ off ≠ 0x20000 + 8 * i + 4 ∧
      off ≠ 0x30000 + 4 * i ∧ off ≠ 0x40000 + 4 * i

/-- An access the block answers with a bus error (R64). -/
def badAccess (lmax off size : Nat) : Prop := size ≠ 4 ∨ off % 4 ≠ 0 ∨ unmapped lmax off

/-- The LCG generator's state, with its result register (R35, R36, R45). -/
def lcgPart (s : State) : Bool × BitVec 16 × BitVec 16 × Word × Word × BitVec 7 :=
  (s.lcgLoaded, s.lcgAL, s.lcgCL, s.lcgML, s.lcgState, s.lcgOut)

/-- The BBS generator's state, with its result registers (R37 to R41). -/
def bbsPart (s : State) : Bool × DWord × DWord × DWord × BitVec 1 × BitVec 1 :=
  (s.bbsLoaded, s.bbsM, s.bbsX, s.bbsRaw, s.bbsPar, s.bbsLsb)

/-- The cipher instance (R42, R49, R50). -/
def ksPart (s : State) : Bool × Word × Buffer 1 × Buffer 7 := (s.constructed, s.ksLen, s.ksBbs, s.ksLcg)

/-- What the host has written: the parameter registers, CMD and IN (R24 to R34, R47). -/
def hostPart (s : State) :
    Word × Word × BitVec 16 × BitVec 16 × Word × Word × Word × Word × Word × Word × Word × Buffer 32 :=
  (s.cmd, s.lcgSeed, s.lcgA, s.lcgC, s.lcgM, s.bbsSeed, s.bbsP, s.bbsQ, s.keyLen, s.genLen, s.inLen, s.inBuf)

/-- The four cipher commands and the keystream each uses (R143, R146). -/
def cipherCommands : List (Instr × CipherMethod) :=
  [(.encryptBbs, .bbs), (.encryptLcg, .lcg), (.decryptBbs, .bbs), (.decryptLcg, .lcg)]

/-- The three BBS_GEN commands and the method each uses (R126). -/
def bbsGenCommands : List (Instr × BbsMethod) :=
  [(.bbsGenLsb, .lsb), (.bbsGenParity, .parity), (.bbsGenRaw, .raw)]

/-- `k` is the keystream value of entry `i` under the method, zero-extended (R144). -/
def keystreamValue (s : State) (m : CipherMethod) (i : Nat) (k : Word) : Prop :=
  match m with
  | .bbs => ∃ b, Buffer.read s.ksBbs i = some b ∧ k = b.setWidth 32
  | .lcg => ∃ b, Buffer.read s.ksLcg i = some b ∧ k = b.setWidth 32

/-- The cause R160 gives for a code that a command raises. -/
def cause (i : Instr) (e : ErrCode) (s : State) : Prop :=
  match e with
  | .ok => True
  | .invalidModulus => (i = .bbsLoad ∨ i = .construct) ∧ ¬ blum s.bbsP.toNat s.bbsQ.toNat
  | .lengthMismatch => (∃ m, (i, m) ∈ cipherCommands) ∧ s.inLen ≠ s.ksLen
  | .codepointOverflow =>
    ∃ m, (i, m) ∈ cipherCommands ∧ ∃ j v k, j < s.inLen.toNat ∧ Buffer.read s.inBuf j = some v ∧
      keystreamValue s m j k ∧ 0x10FFFF < (v ^^^ k).toNat
  | .badCommand => False
  | .badParameter => (i = .lcgLoad ∨ i = .construct) ∧ s.lcgM = 0
  | .notConstructed => (∃ m, (i, m) ∈ cipherCommands) ∧ s.constructed = false
  | .capacity =>
    ((i = .lcgGen ∨ ∃ m, (i, m) ∈ bbsGenCommands) ∧ s.cap.toNat < s.genLen.toNat) ∨
      (i = .construct ∧ s.cap.toNat < s.keyLen.toNat)
  | .notLoaded =>
    ((i = .lcgNext ∨ i = .lcgGen) ∧ s.lcgLoaded = false) ∨
      ((i = .bbsNext ∨ ∃ m, (i, m) ∈ bbsGenCommands) ∧ s.bbsLoaded = false)

/-- The bus write a host action makes, if it makes one: address, size and value (R61, R89, R91, R92). -/
def writeOf (s : State) : HostInstr → Option (Nat × Nat × Word)
  | .memWrite addr size v => some (addr, size, v)
  | .wr t v => some (s.base + targetOffset t, 4, v)
  | .issue i => some (s.base, 4, encode i)
  | .cmd i => some (s.base, 4, encode i)
  | .memRead _ _ => none
  | .rd _ _ => none
  | .wait => none
  | .expectErr _ => none

/-- The STATUS word as a natural (R23). -/
def statusNat (s : State) : Nat :=
  (if s.pending = none then 0 else 1) + (if s.lcgLoaded = true then 2 else 0) + (if s.bbsLoaded = true then 4 else 0) +
    (if s.constructed = true then 8 else 0) + (if s.overrun = true then 16 else 0) + 256 * s.err.code.toNat

/-- What each register reads as, as a natural, its reserved bits 0 (R20, R23 to R44, R62). -/
def regNat (s : State) : Reg → Nat
  | .cmd => s.cmd.toNat
  | .status => statusNat s
  | .lcgSeed => s.lcgSeed.toNat
  | .lcgA => s.lcgA.toNat
  | .lcgC => s.lcgC.toNat
  | .lcgM => s.lcgM.toNat
  | .bbsSeed => s.bbsSeed.toNat
  | .bbsP => s.bbsP.toNat
  | .bbsQ => s.bbsQ.toNat
  | .keyLen => s.keyLen.toNat
  | .genLen => s.genLen.toNat
  | .inLen => s.inLen.toNat
  | .lcgState => s.lcgState.toNat
  | .lcgOut => s.lcgOut.toNat
  | .bbsXLo => s.bbsX.toNat % 2 ^ 32
  | .bbsXHi => s.bbsX.toNat / 2 ^ 32
  | .bbsMLo => s.bbsM.toNat % 2 ^ 32
  | .bbsMHi => s.bbsM.toNat / 2 ^ 32
  | .bbsRawLo => s.bbsRaw.toNat % 2 ^ 32
  | .bbsRawHi => s.bbsRaw.toNat / 2 ^ 32
  | .bbsPar => s.bbsPar.toNat
  | .bbsLsb => s.bbsLsb.toNat
  | .ksLen => s.ksLen.toNat
  | .outLen => s.outLen.toNat
  | .cap => s.cap.toNat

/-- `n` commands in a row, each completing with a next state. -/
def execTimes (i : Instr) : Nat → State → Host.Outcome State Fault Refusal
  | 0, s => .next s
  | n + 1, s =>
    match exec i s with
    | .next t => execTimes i n t
    | .fault f => .fault f
    | .refused r => .refused r

end Sys2Proof.Spec

open Sys2Proof Sys2Proof.Machine

/-! ## Encoding -/

/-- The words of R85, written out from its table, decode to their commands. -/
def Obligations.TableWordsDecode : Prop :=
  decode 0x00000001#32 = .legal .lcgLoad ∧ decode 0x00000113#32 = .legal .bbsGenParity ∧
    decode 0x00000021#32 = .legal .construct ∧ decode 0x00000132#32 = .legal .decryptLcg ∧
    decode 0x00000401#32 = .illegal (.reservedBits 1) ∧ decode 0x00000004#32 = .illegal (.unknownOp 4) ∧
    decode 0x00000313#32 = .illegal (.badMethod .bbsGen 3)

/-- R85: there are exactly thirteen legal words, each decoding to its command, with its mnemonic. -/
def Obligations.LegalWordsAreTheThirteen : Prop :=
  ∀ (w : Word) (i : Instr), (decode w = .legal i ↔ (w, i) ∈ Spec.wordTable) ∧
    (decode w = .legal i ↔ (w, i.mnemonic) ∈ Spec.mnemonicTable)

/-- Decode and encode agree in both directions, for all commands and all words. -/
def Obligations.DecodeAndEncodeAgree : Prop :=
  ∀ i : Instr, i.wellFormed = true →
    decode (encode i) = .legal i ∧ (∀ w : Word, decode w = .legal i → w = encode i) ∧
      decodeTableWord 32 (encode i).toNat = some i

/-- R86, R87: decode is total, and answers Illegal exactly on the words R87 lists. -/
def Obligations.DecodeRejectsExactlyTheIllegalWords : Prop :=
  ∀ w : Word, ((∃ why, decode w = .illegal why) ↔ Spec.illegalWord w) ∧
    ((∃ i, decode w = .legal i) ↔ ¬ Spec.illegalWord w)

/-- R87: an illegal word is accepted like any other, reads back from CMD, completes with BAD_COMMAND and has no other
effect. -/
def Obligations.IllegalWordCompletesWithBadCommand : Prop :=
  ∀ (s : State) (w : Word), s.pending = none → s.inReset = false → Spec.illegalWord w →
    ∃ t, memWrite s.base 4 w s = .next t ∧ t.busy = true ∧ t.cmd = w ∧ t.err = .ok ∧
      engineStep t = .next { s with cmd := w, err := .badCommand }

/-- R85, R90: the thirteen mnemonics stand for their words, and the three aliases for the default variants. -/
def Obligations.MnemonicsStandForTheirWords : Prop :=
  (∀ w m, (w, m) ∈ Spec.mnemonicTable → (assemble m).map encode = some w) ∧
    (∀ i : Instr, assemble i.mnemonic = some i) ∧
    assemble "bbs.gen" = assemble "bbs.gen.lsb" ∧ assemble "encrypt" = assemble "encrypt.bbs" ∧
    assemble "decrypt" = assemble "decrypt.bbs"

/-! ## The step -/

/-- A step at the engine's turn is exec of the decoded command, after the turn is taken off the schedule; with an empty schedule
and a command in flight it is the engine's turn (the model's choice, assumption 3).
`withFetchWord` is the model's stand-in for the acceptance of a word, with reset released and the engine's turn put next (the
model's choice, assumption 12): the next step runs that word. -/
def Obligations.StepRunsTheDecodedCommand : Prop :=
  ∀ (s : State) (w : Word) (i : Instr), decode w = .legal i →
    (∀ rest, s.schedule = .engine :: rest → s.pending = some w → step s = exec i { s with schedule := rest }) ∧
      (s.schedule = [] → s.pending = some w → step s = exec i s) ∧
      step (s.withFetchWord 32 w.toNat) = exec i { s with cmd := w, pending := some w, err := .ok, inReset := false }

/-- R22(1), R22(2): a CMD write is accepted while BUSY = 0, and only sets OVERRUN while BUSY = 1. -/
def Obligations.CmdWriteIsAcceptedOnlyWhileIdle : Prop :=
  ∀ (s : State) (w : Word), s.inReset = false →
    (s.busy = false → memWrite s.base 4 w s = .next { s with cmd := w, pending := some w, err := .ok }) ∧
      (s.busy = true → memWrite s.base 4 w s = .next { s with overrun := true })

/-- R22(3), R83: whatever a command does, it ends with BUSY = 0 and ERR a result code, and it writes nothing outside the
generators, their flags and results, the cipher instance and OUT. -/
def Obligations.CompletionFrame : Prop :=
  ∀ (i : Instr) (s t : State), exec i s = .next t →
    t = { s with
      pending := none, err := t.err, lcgLoaded := t.lcgLoaded, lcgAL := t.lcgAL, lcgCL := t.lcgCL, lcgML := t.lcgML
      lcgState := t.lcgState, lcgOut := t.lcgOut, bbsLoaded := t.bbsLoaded, bbsM := t.bbsM, bbsX := t.bbsX
      bbsRaw := t.bbsRaw, bbsPar := t.bbsPar, bbsLsb := t.bbsLsb, constructed := t.constructed, ksLen := t.ksLen
      ksBbs := t.ksBbs, ksLcg := t.ksLcg, outBuf := t.outBuf, outLen := t.outLen }

/-- R184, R185: from any state that meets the invariants with a command in flight, within the schedule's length the run comes to a
state with the same command in flight whose next step leaves none in flight. The only other ends are a stop of the host at
its own turn (an access or an assertion of the host's), and U5 at the engine's. The default turn is the model's choice
(assumption 3). -/
def Obligations.EveryCommandCompletes : Prop :=
  ∀ (s : State) (w : Word), Invariants s → s.pending = some w →
    ∃ (k : Nat) (t : State), k ≤ s.schedule.length ∧ Sys2Proof.core.run k s = .next t ∧ t.pending = some w ∧
      ((∃ u, step t = .next u ∧ u.pending = none) ∨
        (nextTurn t = .host ∧ ∀ u, step t ≠ .next u) ∨
        (nextTurn t = .engine ∧ ∃ i m j, decode w = .legal i ∧ (i, m) ∈ Spec.cipherCommands ∧ j < t.inLen.toNat ∧
          Buffer.read t.inBuf j = none ∧ step t = .fault (.unwrittenInput j)))

/-- R22: while a command is in flight, nothing the host does changes the block's state, but for OVERRUN. -/
def Obligations.HostCannotChangeACommandInFlight : Prop :=
  ∀ s t : State, s.pending ≠ none → hostStep s = .next t → State.sameBlock { s with overrun := t.overrun } t

/-- R22, R69, R185: however many host turns come between acceptance and completion, the command leaves the block's state that
it would have left at once, but for OVERRUN. -/
def Obligations.LatencyDoesNotAffectTheResult : Prop :=
  ∀ (k : Nat) (rest : List Turn) (w : Word) (i : Instr) (s t u : State),
    s.pending = some w → decode w = .legal i → s.schedule = List.replicate k .host ++ .engine :: rest →
    exec i s = .next t → Sys2Proof.core.run (k + 1) s = .next u →
    State.sameBlock { t with overrun := State.overrun u } u

/-! ## Rules about the whole machine -/

/-- R106: LCG state changes only at reset, by a successful LCG_LOAD or CONSTRUCT, and by an LCG step. -/
def Obligations.LcgStateChangesInThreeWays : Prop :=
  ∀ s t : State, step s = .next t → Spec.lcgPart t ≠ Spec.lcgPart s →
    nextTurn s = .assertReset ∨
      ∃ i ∈ [Instr.lcgLoad, .lcgNext, .lcgGen, .construct], completing s = some i ∧ t.err = .ok

/-- R128: BBS state changes only at reset, by a successful BBS_LOAD or CONSTRUCT, and by a BBS step. -/
def Obligations.BbsStateChangesInThreeWays : Prop :=
  ∀ s t : State, step s = .next t → Spec.bbsPart t ≠ Spec.bbsPart s →
    nextTurn s = .assertReset ∨
      ∃ i ∈ [Instr.bbsLoad, .bbsNext, .bbsGenLsb, .bbsGenParity, .bbsGenRaw, .construct],
        completing s = some i ∧ t.err = .ok

/-- R142: only a successful CONSTRUCT writes the keystreams and KS_LEN (reset unwrites them), and ENCRYPT and DECRYPT change
neither the keystreams nor the generators. -/
def Obligations.KeystreamsAreImmutable : Prop :=
  (∀ s t : State, step s = .next t → Spec.ksPart t ≠ Spec.ksPart s →
    nextTurn s = .assertReset ∨ (completing s = some .construct ∧ t.err = .ok)) ∧
    ∀ (s t : State) (i : Instr) (m : CipherMethod), (i, m) ∈ Spec.cipherCommands → exec i s = .next t →
      Spec.ksPart t = Spec.ksPart s ∧ Spec.lcgPart t = Spec.lcgPart s ∧ Spec.bbsPart t = Spec.bbsPart s

/-- R83: what the host wrote (CMD, the parameters, IN) changes only at a host turn or at reset. -/
def Obligations.ParametersChangeOnlyByTheHost : Prop :=
  ∀ s t : State, step s = .next t → Spec.hostPart t ≠ Spec.hostPart s →
    nextTurn s = .assertReset ∨ (nextTurn s = .host ∧ s.pending = none ∧ s.inReset = false)

/-- R23: LCG_LOADED, BBS_LOADED and CONSTRUCTED are never cleared except by reset. -/
def Obligations.LoadedFlagsStayUntilReset : Prop :=
  ∀ s t : State, step s = .next t → nextTurn s ≠ .assertReset →
    (s.lcgLoaded = true → t.lcgLoaded = true) ∧ (s.bbsLoaded = true → t.bbsLoaded = true) ∧
      (s.constructed = true → t.constructed = true)

/-- R44: CAP reads LMAX, and no step changes it, reset included. -/
def Obligations.CapIsHardwired : Prop :=
  State.reset.cap.toNat = Config.LMAX ∧
    (∀ s : State, s.busy = false → s.answer 0x078 4 = .word s.cap) ∧
    ∀ s t : State, step s = .next t → t.cap = s.cap ∧ t.base = s.base

/-- R162: OVERRUN is set only by a host write while BUSY = 1, and cleared only by reset or by a host write of 1 to bit 4 of
STATUS. -/
def Obligations.OverrunIsSticky : Prop :=
  ∀ s t : State, step s = .next t →
    (s.overrun = false → t.overrun = true →
      nextTurn s = .host ∧ s.busy = true ∧
        ∃ h rest addr v, s.program = h :: rest ∧ Spec.writeOf s h = some (addr, 4, v) ∧ addr ≠ s.base + 0x004) ∧
      (s.overrun = true → t.overrun = false →
        nextTurn s = .assertReset ∨
          (nextTurn s = .host ∧
            ∃ h rest v, s.program = h :: rest ∧ Spec.writeOf s h = some (s.base + 0x004, 4, v) ∧ v.getLsbD 4 = true))

/-! ## Errors -/

/-- R165: a command that raises changes nothing except STATUS.ERR and STATUS.BUSY. -/
def Obligations.FailedCommandChangesNothingElse : Prop :=
  ∀ s t : State, s.pending ≠ none → engineStep s = .next t → t.err ≠ .ok → t = Spec.failed t.err s

/-- R160: the numbers of the codes as STATUS shows them, and for every code which commands raise it and why. -/
def Obligations.ErrCodesAndTheirCauses : Prop :=
  (∀ s : State, (statusErrField s.statusWord).toNat =
    match s.err with
    | .ok => 0
    | .invalidModulus => 1
    | .lengthMismatch => 2
    | .codepointOverflow => 3
    | .badCommand => 4
    | .badParameter => 5
    | .notConstructed => 6
    | .capacity => 7
    | .notLoaded => 8) ∧
    (∀ (i : Instr) (s t : State), exec i s = .next t → Spec.cause i t.err s) ∧
    ∀ (s t : State) (w : Word), s.pending = some w → engineStep s = .next t →
      (t.err = .badCommand ↔ Spec.illegalWord w)

/-- R166: when several errors apply, a command reports the first in the order of the rule. -/
def Obligations.ErrorPriority : Prop :=
  (∀ (s : State) (w : Word), s.pending = some w → Spec.illegalWord w →
    engineStep s = .next (Spec.failed .badCommand s)) ∧
  (∀ s : State, s.lcgM = 0 → exec .lcgLoad s = .next (Spec.failed .badParameter s)) ∧
  (∀ s : State, ¬ Spec.blum s.bbsP.toNat s.bbsQ.toNat → exec .bbsLoad s = .next (Spec.failed .invalidModulus s)) ∧
  (∀ (s : State) (i : Instr), i = .lcgNext ∨ i = .lcgGen → s.lcgLoaded = false →
    exec i s = .next (Spec.failed .notLoaded s)) ∧
  (∀ s : State, s.lcgLoaded = true → s.cap.toNat < s.genLen.toNat →
    exec .lcgGen s = .next (Spec.failed .capacity s)) ∧
  (∀ (s : State) (i : Instr), i = .bbsNext ∨ (∃ m, (i, m) ∈ Spec.bbsGenCommands) → s.bbsLoaded = false →
    exec i s = .next (Spec.failed .notLoaded s)) ∧
  (∀ (s : State) (i : Instr) (m : BbsMethod), (i, m) ∈ Spec.bbsGenCommands → s.bbsLoaded = true →
    s.cap.toNat < s.genLen.toNat → exec i s = .next (Spec.failed .capacity s)) ∧
  (∀ s : State,
    (s.cap.toNat < s.keyLen.toNat → exec .construct s = .next (Spec.failed .capacity s)) ∧
    (s.keyLen.toNat ≤ s.cap.toNat → s.lcgM = 0 → exec .construct s = .next (Spec.failed .badParameter s)) ∧
    (s.keyLen.toNat ≤ s.cap.toNat → s.lcgM ≠ 0 → ¬ Spec.blum s.bbsP.toNat s.bbsQ.toNat →
      exec .construct s = .next (Spec.failed .invalidModulus s))) ∧
  (∀ (s : State) (i : Instr) (m : CipherMethod), (i, m) ∈ Spec.cipherCommands →
    (s.constructed = false → exec i s = .next (Spec.failed .notConstructed s)) ∧
    (s.constructed = true → s.inLen ≠ s.ksLen → exec i s = .next (Spec.failed .lengthMismatch s)) ∧
    (s.constructed = true → s.inLen = s.ksLen →
      (∀ j, j < s.inLen.toNat → ∃ v k, Buffer.read s.inBuf j = some v ∧ Spec.keystreamValue s m j k) →
      (∃ j v k, j < s.inLen.toNat ∧ Buffer.read s.inBuf j = some v ∧ Spec.keystreamValue s m j k ∧
        0x10FFFF < (v ^^^ k).toNat) →
      exec i s = .next (Spec.failed .codepointOverflow s)))

/-! ## The LCG commands -/

/-- R100: LCG_LOAD latches the parameters and reduces the seed, or fails with BAD_PARAMETER when LCG_M = 0. -/
def Obligations.LcgLoadEffect : Prop :=
  decode 0x00000001#32 = .legal .lcgLoad ∧
  ∀ s : State,
    (s.lcgM = 0 → exec .lcgLoad s = .next (Spec.failed .badParameter s)) ∧
    (s.lcgM ≠ 0 → ∃ st : Word,
      exec .lcgLoad s = .next { s with
        lcgAL := s.lcgA, lcgCL := s.lcgC, lcgML := s.lcgM, lcgState := st, lcgLoaded := true
        err := .ok, pending := none } ∧
      st.toNat = s.lcgSeed.toNat % s.lcgM.toNat)

/-- R101, R102: LCG_NEXT performs one step, exact for every modulus m ≥ 1, or fails with NOT_LOADED. -/
def Obligations.LcgNextEffect : Prop :=
  decode 0x00000002#32 = .legal .lcgNext ∧
  ∀ s : State,
    (s.lcgLoaded = false → exec .lcgNext s = .next (Spec.failed .notLoaded s)) ∧
    (s.lcgLoaded = true → 1 ≤ s.lcgML.toNat → ∃ (st : Word) (out : BitVec 7),
      exec .lcgNext s = .next { s with lcgState := st, lcgOut := out, err := .ok, pending := none } ∧
      st.toNat = Spec.lcgNat s.lcgAL.toNat s.lcgCL.toNat s.lcgML.toNat s.lcgState.toNat ∧
      st.toNat < s.lcgML.toNat ∧ out.toNat = st.toNat % 128)

/-- R103: LCG_GEN performs GEN_LEN steps and stores their outputs in OUT, or fails with NOT_LOADED or CAPACITY. -/
def Obligations.LcgGenEffect : Prop :=
  decode 0x00000003#32 = .legal .lcgGen ∧
  ∀ s : State,
    (s.lcgLoaded = false → exec .lcgGen s = .next (Spec.failed .notLoaded s)) ∧
    (s.lcgLoaded = true → s.cap.toNat < s.genLen.toNat → exec .lcgGen s = .next (Spec.failed .capacity s)) ∧
    (s.lcgLoaded = true → 1 ≤ s.lcgML.toNat → s.genLen.toNat ≤ s.cap.toNat →
      ∃ (st : Word) (out : BitVec 7) (ob : Buffer 64),
        exec .lcgGen s = .next { s with
          lcgState := st, lcgOut := out, outBuf := ob, outLen := s.genLen, err := .ok, pending := none } ∧
        st.toNat = (Spec.lcgNat s.lcgAL.toNat s.lcgCL.toNat s.lcgML.toNat)^[s.genLen.toNat] s.lcgState.toNat ∧
        (s.genLen.toNat = 0 → out = s.lcgOut) ∧ (0 < s.genLen.toNat → out.toNat = st.toNat % 128) ∧
        (∀ i, i < s.genLen.toNat → Buffer.read ob i = some (BitVec.ofNat 64
          ((Spec.lcgNat s.lcgAL.toNat s.lcgCL.toNat s.lcgML.toNat)^[i + 1] s.lcgState.toNat % 128))) ∧
        ∀ i, s.genLen.toNat ≤ i → Buffer.read ob i = Buffer.read s.outBuf i)

/-- R103: LCG_GEN's effect equals GEN_LEN successive LCG_NEXT commands, plus the writes to OUT and OUT_LEN: OUT[i] is LCG_OUT after
i + 1 of them for every i below GEN_LEN, and every other entry is as it was. -/
def Obligations.LcgGenEqualsRepeatedNext : Prop :=
  ∀ s u : State, s.lcgLoaded = true → s.genLen.toNat ≤ s.cap.toNat →
    Spec.execTimes .lcgNext s.genLen.toNat s = .next u →
    ∃ ob, exec .lcgGen s = .next { u with outBuf := ob, outLen := s.genLen, err := .ok, pending := none } ∧
      (∀ i, i < s.genLen.toNat → ∃ v, Spec.execTimes .lcgNext (i + 1) s = .next v ∧
        Buffer.read ob i = some (BitVec.ofNat 64 v.lcgOut.toNat)) ∧
      ∀ i, s.genLen.toNat ≤ i → Buffer.read ob i = Buffer.read s.outBuf i

/-- R105(c): the LCG's state sequence is eventually periodic, with period at most m. -/
def Obligations.LcgSequenceIsEventuallyPeriodic : Prop :=
  ∀ s : State, 1 ≤ s.lcgML.toNat →
    ∃ start period, 1 ≤ period ∧ period ≤ s.lcgML.toNat ∧
      ∀ k, start ≤ k → (State.lcgTicks (k + period) s).2.lcgState = (State.lcgTicks k s).2.lcgState

/-- R100, R105(b): after a load, every LCG output depends only on (LCG_SEED mod LCG_M, LCG_A, LCG_C, LCG_M). -/
def Obligations.LcgOutputsDependOnTheReducedSeed : Prop :=
  ∀ s s' t t' u u' : State, s.lcgM = s'.lcgM → s.lcgA = s'.lcgA → s.lcgC = s'.lcgC → s.genLen = s'.genLen →
    s.lcgSeed.toNat % s.lcgM.toNat = s'.lcgSeed.toNat % s'.lcgM.toNat → s.lcgM ≠ 0 →
    s.genLen.toNat ≤ s.cap.toNat → s'.genLen.toNat ≤ s'.cap.toNat →
    exec .lcgLoad s = .next t → exec .lcgLoad s' = .next t' →
    exec .lcgGen t = .next u → exec .lcgGen t' = .next u' →
    u.lcgState = u'.lcgState ∧ ∀ i, i < s.genLen.toNat → Buffer.read u.outBuf i = Buffer.read u'.outBuf i

/-! ## The BBS commands -/

/-- R120, R121: BBS_LOAD latches M = p·q and reduces the seed when p and q are distinct primes (of the naturals) that are 3 mod 4,
else it fails with INVALID_MODULUS. -/
def Obligations.BbsLoadEffect : Prop :=
  decode 0x00000011#32 = .legal .bbsLoad ∧
  ∀ s : State,
    (¬ Spec.blum s.bbsP.toNat s.bbsQ.toNat → exec .bbsLoad s = .next (Spec.failed .invalidModulus s)) ∧
    (Spec.blum s.bbsP.toNat s.bbsQ.toNat → ∃ m x : DWord,
      exec .bbsLoad s = .next { s with bbsM := m, bbsX := x, bbsLoaded := true, err := .ok, pending := none } ∧
      m.toNat = s.bbsP.toNat * s.bbsQ.toNat ∧
      x.toNat = s.bbsSeed.toNat % (s.bbsP.toNat * s.bbsQ.toNat))

/-- R122, R123: BBS_NEXT performs one step, exact for every modulus M ≥ 1, and stores all three derived values, or fails with
NOT_LOADED. -/
def Obligations.BbsNextEffect : Prop :=
  decode 0x00000012#32 = .legal .bbsNext ∧
  ∀ s : State,
    (s.bbsLoaded = false → exec .bbsNext s = .next (Spec.failed .notLoaded s)) ∧
    (s.bbsLoaded = true → 1 ≤ s.bbsM.toNat → ∃ (x : DWord) (par lsb : BitVec 1),
      exec .bbsNext s = .next { s with
        bbsX := x, bbsRaw := x, bbsPar := par, bbsLsb := lsb, err := .ok, pending := none } ∧
      x.toNat = Spec.bbsNat s.bbsM.toNat s.bbsX.toNat ∧ x.toNat < s.bbsM.toNat ∧
      par.toNat = Spec.parity x.toNat ∧ lsb.toNat = x.toNat % 2)

/-- R124, R126: BBS_GEN performs GEN_LEN steps and stores the value its method selects in OUT, for each of the three methods, or
fails with NOT_LOADED or CAPACITY. -/
def Obligations.BbsGenEffect : Prop :=
  (decode 0x00000013#32 = .legal .bbsGenLsb ∧ decode 0x00000113#32 = .legal .bbsGenParity ∧
    decode 0x00000213#32 = .legal .bbsGenRaw) ∧
  ∀ (s : State) (i : Instr) (m : BbsMethod), (i, m) ∈ Spec.bbsGenCommands →
    (s.bbsLoaded = false → exec i s = .next (Spec.failed .notLoaded s)) ∧
    (s.bbsLoaded = true → s.cap.toNat < s.genLen.toNat → exec i s = .next (Spec.failed .capacity s)) ∧
    (s.bbsLoaded = true → 1 ≤ s.bbsM.toNat → s.genLen.toNat ≤ s.cap.toNat →
      ∃ (x raw : DWord) (par lsb : BitVec 1) (ob : Buffer 64),
        exec i s = .next { s with
          bbsX := x, bbsRaw := raw, bbsPar := par, bbsLsb := lsb, outBuf := ob, outLen := s.genLen
          err := .ok, pending := none } ∧
        x.toNat = (Spec.bbsNat s.bbsM.toNat)^[s.genLen.toNat] s.bbsX.toNat ∧
        (s.genLen.toNat = 0 → raw = s.bbsRaw ∧ par = s.bbsPar ∧ lsb = s.bbsLsb) ∧
        (0 < s.genLen.toNat → raw = x ∧ par.toNat = Spec.parity x.toNat ∧ lsb.toNat = x.toNat % 2) ∧
        (∀ j, j < s.genLen.toNat → Buffer.read ob j = some (BitVec.ofNat 64
          (Spec.emitted m ((Spec.bbsNat s.bbsM.toNat)^[j + 1] s.bbsX.toNat)))) ∧
        ∀ j, s.genLen.toNat ≤ j → Buffer.read ob j = Buffer.read s.outBuf j)

/-- R126: BBS_GEN's effect equals GEN_LEN successive BBS_NEXT commands, plus the writes to OUT and OUT_LEN, whichever the
method: OUT[j] is the result register that the method selects after j + 1 of them for every j below GEN_LEN, and every other
entry is as it was. -/
def Obligations.BbsGenEqualsRepeatedNext : Prop :=
  ∀ (s u : State) (i : Instr) (m : BbsMethod), (i, m) ∈ Spec.bbsGenCommands → s.bbsLoaded = true →
    s.genLen.toNat ≤ s.cap.toNat → Spec.execTimes .bbsNext s.genLen.toNat s = .next u →
    ∃ ob, exec i s = .next { u with outBuf := ob, outLen := s.genLen, err := .ok, pending := none } ∧
      (∀ j, j < s.genLen.toNat → ∃ v, Spec.execTimes .bbsNext (j + 1) s = .next v ∧
        Buffer.read ob j = some (match m with
          | .lsb => BitVec.ofNat 64 v.bbsLsb.toNat
          | .parity => BitVec.ofNat 64 v.bbsPar.toNat
          | .raw => v.bbsRaw)) ∧
      ∀ j, s.genLen.toNat ≤ j → Buffer.read ob j = Buffer.read s.outBuf j

/-- R120, R127(b): after a load, the three BBS sequences depend only on (BBS_SEED mod M, p·q). -/
def Obligations.BbsOutputsDependOnTheReducedSeed : Prop :=
  ∀ (s s' t t' u u' : State) (i : Instr) (m : BbsMethod), (i, m) ∈ Spec.bbsGenCommands →
    Spec.blum s.bbsP.toNat s.bbsQ.toNat → Spec.blum s'.bbsP.toNat s'.bbsQ.toNat →
    s.bbsP.toNat * s.bbsQ.toNat = s'.bbsP.toNat * s'.bbsQ.toNat →
    s.bbsSeed.toNat % (s.bbsP.toNat * s.bbsQ.toNat) = s'.bbsSeed.toNat % (s.bbsP.toNat * s.bbsQ.toNat) →
    s.genLen = s'.genLen → s.genLen.toNat ≤ s.cap.toNat → s'.genLen.toNat ≤ s'.cap.toNat →
    exec .bbsLoad s = .next t → exec .bbsLoad s' = .next t' → exec i t = .next u → exec i t' = .next u' →
    u.bbsX = u'.bbsX ∧ ∀ j, j < s.genLen.toNat → Buffer.read u.outBuf j = Buffer.read u'.outBuf j

/-- R129: a fixed point of the recurrence is no error: BBS_NEXT runs and keeps BBS_X; 0 and 1 are fixed points for every M ≥ 2,
and for M = 253 the fixed points are 0, 1, 23 and 231. -/
def Obligations.FixedPointsAreNotErrors : Prop :=
  (∀ s : State, s.bbsLoaded = true → 1 ≤ s.bbsM.toNat →
    Spec.bbsNat s.bbsM.toNat s.bbsX.toNat = s.bbsX.toNat →
    ∃ t, exec .bbsNext s = .next t ∧ t.err = .ok ∧ t.bbsX = s.bbsX ∧ t.bbsRaw = s.bbsX) ∧
  (∀ m, 2 ≤ m → Spec.bbsNat m 0 = 0 ∧ Spec.bbsNat m 1 = 1) ∧
  ∀ x, x < 253 → (Spec.bbsNat 253 x = x ↔ x ∈ [0, 1, 23, 231])

/-! ## The cipher commands -/

/-- R140, R141: CONSTRUCT loads both generators from the parameter registers, fills both keystreams with KEYLEN steps of each and
latches KS_LEN, or fails in the order CAPACITY, BAD_PARAMETER, INVALID_MODULUS. -/
def Obligations.ConstructEffect : Prop :=
  decode 0x00000021#32 = .legal .construct ∧
  ∀ s : State,
    (s.cap.toNat < s.keyLen.toNat → exec .construct s = .next (Spec.failed .capacity s)) ∧
    (s.keyLen.toNat ≤ s.cap.toNat → s.lcgM = 0 → exec .construct s = .next (Spec.failed .badParameter s)) ∧
    (s.keyLen.toNat ≤ s.cap.toNat → s.lcgM ≠ 0 → ¬ Spec.blum s.bbsP.toNat s.bbsQ.toNat →
      exec .construct s = .next (Spec.failed .invalidModulus s)) ∧
    (s.keyLen.toNat ≤ s.cap.toNat → s.lcgM ≠ 0 → Spec.blum s.bbsP.toNat s.bbsQ.toNat →
      ∃ (st : Word) (out : BitVec 7) (m x raw : DWord) (par lsb : BitVec 1) (kl : Buffer 7) (kb : Buffer 1),
        exec .construct s = .next { s with
          lcgAL := s.lcgA, lcgCL := s.lcgC, lcgML := s.lcgM, lcgState := st, lcgOut := out
          bbsM := m, bbsX := x, bbsRaw := raw, bbsPar := par, bbsLsb := lsb
          ksLcg := kl, ksBbs := kb, ksLen := s.keyLen, lcgLoaded := true, bbsLoaded := true, constructed := true
          err := .ok, pending := none } ∧
        m.toNat = s.bbsP.toNat * s.bbsQ.toNat ∧
        let f := Spec.lcgNat s.lcgA.toNat s.lcgC.toNat s.lcgM.toNat
        let g := Spec.bbsNat (s.bbsP.toNat * s.bbsQ.toNat)
        let s0 := s.lcgSeed.toNat % s.lcgM.toNat
        let x0 := s.bbsSeed.toNat % (s.bbsP.toNat * s.bbsQ.toNat)
        st.toNat = f^[s.keyLen.toNat] s0 ∧ x.toNat = g^[s.keyLen.toNat] x0 ∧
        (s.keyLen.toNat = 0 → out = s.lcgOut ∧ raw = s.bbsRaw ∧ par = s.bbsPar ∧ lsb = s.bbsLsb) ∧
        (0 < s.keyLen.toNat →
          out.toNat = st.toNat % 128 ∧ raw = x ∧ par.toNat = Spec.parity x.toNat ∧ lsb.toNat = x.toNat % 2) ∧
        (∀ i, i < s.keyLen.toNat →
          Buffer.read kl i = some (BitVec.ofNat 7 (f^[i + 1] s0 % 128)) ∧
          Buffer.read kb i = some (BitVec.ofNat 1 (g^[i + 1] x0 % 2))) ∧
        ∀ i, s.keyLen.toNat ≤ i →
          Buffer.read kl i = Buffer.read s.ksLcg i ∧ Buffer.read kb i = Buffer.read s.ksBbs i)

/-- R141: the keystreams of a successful CONSTRUCT are a pure function of the eight parameter registers; KEYLEN is their length. -/
def Obligations.KeystreamsDependOnlyOnTheParameters : Prop :=
  ∀ s s' t t' : State, s.keyLen = s'.keyLen → s.lcgSeed = s'.lcgSeed → s.lcgA = s'.lcgA → s.lcgC = s'.lcgC →
    s.lcgM = s'.lcgM → s.bbsSeed = s'.bbsSeed → s.bbsP = s'.bbsP → s.bbsQ = s'.bbsQ →
    exec .construct s = .next t → exec .construct s' = .next t' → t.err = .ok → t'.err = .ok →
    t.ksLen = t'.ksLen ∧ ∀ i, i < t.ksLen.toNat →
      Buffer.read t.ksLcg i = Buffer.read t'.ksLcg i ∧ Buffer.read t.ksBbs i = Buffer.read t'.ksBbs i

/-- R143, R144, R146, R148: with a cipher instance, IN_LEN = KS_LEN and every entry written, the four cipher commands XOR IN with
their keystream into OUT when every result is a valid code point, else they fail with CODEPOINT_OVERFLOW. -/
def Obligations.XorTransformEffect : Prop :=
  (decode 0x00000031#32 = .legal .encryptBbs ∧ decode 0x00000131#32 = .legal .encryptLcg ∧
    decode 0x00000032#32 = .legal .decryptBbs ∧ decode 0x00000132#32 = .legal .decryptLcg) ∧
  ∀ (s : State) (i : Instr) (m : CipherMethod), (i, m) ∈ Spec.cipherCommands →
    (s.constructed = false → exec i s = .next (Spec.failed .notConstructed s)) ∧
    (s.constructed = true → s.inLen ≠ s.ksLen → exec i s = .next (Spec.failed .lengthMismatch s)) ∧
    ∀ v k : Nat → Word, s.constructed = true → s.inLen = s.ksLen →
      (∀ j, j < s.inLen.toNat → Buffer.read s.inBuf j = some (v j) ∧ Spec.keystreamValue s m j (k j)) →
      ((∀ j, j < s.inLen.toNat → (v j ^^^ k j).toNat ≤ 0x10FFFF) →
        ∃ ob, exec i s = .next { s with outBuf := ob, outLen := s.inLen, err := .ok, pending := none } ∧
          (∀ j, j < s.inLen.toNat → Buffer.read ob j = some ((v j ^^^ k j).setWidth 64)) ∧
          ∀ j, s.inLen.toNat ≤ j → Buffer.read ob j = Buffer.read s.outBuf j) ∧
      ((∃ j, j < s.inLen.toNat ∧ 0x10FFFF < (v j ^^^ k j).toNat) →
        exec i s = .next (Spec.failed .codepointOverflow s))

/-- R149: a keystream value cannot move a code point out of range, so with a cipher instance in place the cipher commands complete,
and raise CODEPOINT_OVERFLOW exactly when some IN entry below IN_LEN is above 0x10FFFF. -/
def Obligations.OverflowExactlyOnInvalidInput : Prop :=
  ∀ (s : State) (i : Instr) (m : CipherMethod), (i, m) ∈ Spec.cipherCommands → Invariants s → s.constructed = true →
    s.inLen = s.ksLen → (∀ j, j < s.inLen.toNat → (Buffer.read s.inBuf j).isSome = true) →
    ∃ t, exec i s = .next t ∧
      ((∃ j v, j < s.inLen.toNat ∧ Buffer.read s.inBuf j = some v ∧ 0x10FFFF < v.toNat) →
        t.err = .codepointOverflow) ∧
      ((∀ j v, j < s.inLen.toNat → Buffer.read s.inBuf j = some v → v.toNat ≤ 0x10FFFF) →
        t.err = .ok ∧ t.outLen = s.inLen)

/-- R143, R149: a successful cipher command changes only bit 0 (BBS) or bits 6:0 (LCG) of each code point, so a surrogate gives
a surrogate and a non-surrogate a non-surrogate. -/
def Obligations.CipherChangesOnlyLowBits : Prop :=
  ∀ (s t : State) (i : Instr) (m : CipherMethod) (j : Nat) (v : Word), (i, m) ∈ Spec.cipherCommands →
    exec i s = .next t → t.err = .ok → j < s.inLen.toNat → Buffer.read s.inBuf j = some v →
    ∃ o, Buffer.read t.outBuf j = some o ∧
      (match m with
      | .bbs => o.toNat / 2 = v.toNat / 2
      | .lcg => o.toNat / 128 = v.toNat / 128) ∧
      ((0xD800 ≤ o.toNat ∧ o.toNat ≤ 0xDFFF) ↔ (0xD800 ≤ v.toNat ∧ v.toNat ≤ 0xDFFF))

/-- U5: a cipher command that reads an IN entry nothing has written since reset is a fault, at the first such entry
(which entry it names is the model's choice, assumption 7). -/
def Obligations.UnwrittenInputIsAFault : Prop :=
  ∀ (s : State) (i : Instr) (m : CipherMethod) (j : Nat), (i, m) ∈ Spec.cipherCommands → Invariants s →
    s.constructed = true → s.inLen = s.ksLen → j < s.inLen.toNat → Buffer.read s.inBuf j = none →
    (∀ j', j' < j → (Buffer.read s.inBuf j').isSome = true) →
    exec i s = .fault (.unwrittenInput j)

/-- R147: encrypt, copy OUT to IN, decrypt with the same method and instance: OUT holds the plaintext again. -/
def Obligations.DecryptOfEncryptIsThePlaintext : Prop :=
  ∀ (s : State) (e d : Instr) (x : Nat → Word) (inb : Buffer 32),
    (e, d) ∈ [(Instr.encryptBbs, Instr.decryptBbs), (.encryptLcg, .decryptLcg)] → Invariants s → s.constructed = true →
    s.inLen = s.ksLen → (∀ j, j < s.inLen.toNat → Buffer.read s.inBuf j = some (x j) ∧ (x j).toNat ≤ 0x10FFFF) →
    ∃ t, exec e s = .next t ∧ t.err = .ok ∧
      ((∀ j, j < s.inLen.toNat → Buffer.read inb j = (Buffer.read t.outBuf j).map lowWord) →
        ∃ u, exec d { t with inBuf := inb } = .next u ∧ u.err = .ok ∧ u.outLen = s.inLen ∧
          ∀ j, j < s.inLen.toNat → Buffer.read u.outBuf j = some ((x j).setWidth 64))

/-! ## The bus -/

/-- R73, with the offsets of R52: what each offset of the window names. -/
def Obligations.RegisterMapAndWindows : Prop :=
  ∀ lmax off : Nat, lmax ≤ 8192 →
    (∀ r, placeAt lmax off = some (.reg r) ↔ (off, r) ∈ Spec.registerTable) ∧
    (∀ i, placeAt lmax off = some (.inEntry i) ↔ i < lmax ∧ off = 0x10000 + 4 * i) ∧
    (∀ i, placeAt lmax off = some (.outLo i) ↔ i < lmax ∧ off = 0x20000 + 8 * i) ∧
    (∀ i, placeAt lmax off = some (.outHi i) ↔ i < lmax ∧ off = 0x20000 + 8 * i + 4) ∧
    (∀ i, placeAt lmax off = some (.ksBbs i) ↔ i < lmax ∧ off = 0x30000 + 4 * i) ∧
    ∀ i, placeAt lmax off = some (.ksLcg i) ↔ i < lmax ∧ off = 0x40000 + 4 * i

/-- R63, R64: a read or write is a bus error exactly when its size is not 4, its offset is not a multiple of 4 or is unmapped,
whether or not BUSY = 1. Outside the window the block does not answer, which the model calls a refusal (assumption 10). -/
def Obligations.BusErrorExactly : Prop :=
  ∀ (s : State) (size : Nat) (v : Word), s.cap.toNat ≤ 8192 →
    (∀ off, off < 0x80000 → s.inReset = false →
      (memRead (s.base + off) size s = .fault (.busError (s.base + off) size) ↔ Spec.badAccess s.cap.toNat off size) ∧
      (memWrite (s.base + off) size v s = .fault (.busError (s.base + off) size) ↔
        Spec.badAccess s.cap.toNat off size) ∧
      (¬ Spec.badAccess s.cap.toNat off size →
        (∃ r, memRead (s.base + off) size s = .next r) ∧ ∃ t, memWrite (s.base + off) size v s = .next t)) ∧
    ∀ addr, addr < s.base ∨ s.base + 0x80000 ≤ addr →
      memRead addr size s = .refused (.outsideBlock addr) ∧ memWrite addr size v s = .refused (.outsideBlock addr)

/-- R20, R60: what a read of each mapped place returns while BUSY = 0, register by register from the fields of the state, reserved
bits 0; where the rule answers ANY_32, some word. A read changes no state of the block. -/
def Obligations.ReadReturns : Prop :=
  ∀ (s : State) (p : Place), s.cap.toNat ≤ 8192 → p.wellFormed s.cap.toNat = true → s.inReset = false →
    s.busy = false →
    ∃ v t, memRead (s.base + placeOffset p) 4 s = .next (v, t) ∧ State.sameBlock s t ∧
      match p with
      | .reg r => v.toNat = Spec.regNat s r
      | .inEntry i => ∀ x, Buffer.read s.inBuf i = some x → v = x
      | .outLo i => ∀ x, i < s.outLen.toNat → Buffer.read s.outBuf i = some x → v.toNat = x.toNat % 2 ^ 32
      | .outHi i => ∀ x, i < s.outLen.toNat → Buffer.read s.outBuf i = some x → v.toNat = x.toNat / 2 ^ 32
      | .ksBbs i =>
        ∀ x, i < s.ksLen.toNat → s.constructed = true → Buffer.read s.ksBbs i = some x → v.toNat = x.toNat
      | .ksLcg i =>
        ∀ x, i < s.ksLen.toNat → s.constructed = true → Buffer.read s.ksLcg i = some x → v.toNat = x.toNat

/-- R61, R53: what a write to each mapped place does, while BUSY = 0 and while BUSY = 1. -/
def Obligations.WriteDoes : Prop :=
  ∀ (s : State) (p : Place) (v : Word), s.cap.toNat ≤ 8192 → p.wellFormed s.cap.toNat = true → s.inReset = false →
    (p = .reg .status →
      memWrite (s.base + placeOffset p) 4 v s =
        .next (if v.getLsbD 4 = true then { s with overrun := false } else s)) ∧
    (p ≠ .reg .status → s.busy = true → memWrite (s.base + placeOffset p) 4 v s = .next { s with overrun := true }) ∧
    (p ≠ .reg .status → s.busy = false →
      memWrite (s.base + placeOffset p) 4 v s = .next
        (match p with
        | .reg .cmd => { s with cmd := v, pending := some v, err := .ok }
        | .reg .lcgSeed => { s with lcgSeed := v }
        | .reg .lcgA => { s with lcgA := BitVec.ofNat 16 (v.toNat % 2 ^ 16) }
        | .reg .lcgC => { s with lcgC := BitVec.ofNat 16 (v.toNat % 2 ^ 16) }
        | .reg .lcgM => { s with lcgM := v }
        | .reg .bbsSeed => { s with bbsSeed := v }
        | .reg .bbsP => { s with bbsP := v }
        | .reg .bbsQ => { s with bbsQ := v }
        | .reg .keyLen => { s with keyLen := v }
        | .reg .genLen => { s with genLen := v }
        | .reg .inLen => { s with inLen := v }
        | .inEntry i => { s with inBuf := Buffer.write s.inBuf i v }
        | _ => s))

/-- R65: accesses while busy. STATUS reads exactly and writes as ever; every other mapped place reads as ANY_32 and a write to it
only sets OVERRUN. -/
def Obligations.AccessesWhileBusy : Prop :=
  ∀ (s : State) (p : Place) (v : Word), Invariants s → p.wellFormed s.cap.toNat = true → s.inReset = false → s.busy = true →
    (∃ t, memRead (s.base + 0x004) 4 s = .next (s.statusWord, t) ∧ State.sameBlock s t ∧
      s.statusWord.getLsbD 0 = true ∧ statusErrField s.statusWord = 0#4 ∧
      s.statusWord.getLsbD 1 = s.lcgLoaded ∧ s.statusWord.getLsbD 2 = s.bbsLoaded ∧
      s.statusWord.getLsbD 3 = s.constructed ∧ s.statusWord.getLsbD 4 = s.overrun) ∧
    (p ≠ .reg .status → s.answer (placeOffset p) 4 = .anyWord ∧
      ∃ x t, memRead (s.base + placeOffset p) 4 s = .next (x, t) ∧ State.sameBlock s t) ∧
    memWrite (s.base + 0x004) 4 v s = .next (if v.getLsbD 4 = true then { s with overrun := false } else s) ∧
    (p ≠ .reg .status → memWrite (s.base + placeOffset p) 4 v s = .next { s with overrun := true })

/-- R66: no read has a side effect on the block, and every later access is answered as it would have been before. -/
def Obligations.ReadsHaveNoSideEffect : Prop :=
  ∀ (s t : State) (addr size : Nat) (v : Word), memRead addr size s = .next (v, t) →
    State.sameBlock s t ∧ (∀ off size', t.answer off size' = s.answer off size') ∧
      (s.answer (addr - s.base) size = .word v ∨ s.answer (addr - s.base) size = .anyWord) ∧
      (s.answer (addr - s.base) size = .word v → ∃ t', memRead addr size t = .next (v, t') ∧ State.sameBlock s t')

/-- R66: a parameter register or an IN entry, once written while idle, reads back what the register holds, the same write again
changes nothing, and no other place reads differently, byte by byte. -/
def Obligations.WriteThenReadBack : Prop :=
  ∀ (s : State) (p : Place) (v : Word), s.cap.toNat ≤ 8192 → p.wellFormed s.cap.toNat = true →
    s.busy = false → s.inReset = false →
    ((∃ i, p = .inEntry i) ∨ ∃ r ∈ [Reg.lcgSeed, .lcgA, .lcgC, .lcgM, .bbsSeed, .bbsP, .bbsQ, .keyLen, .genLen, .inLen],
      p = .reg r) →
    ∃ t, memWrite (s.base + placeOffset p) 4 v s = .next t ∧
      t.answer (placeOffset p) 4 =
        .word (if p = .reg .lcgA ∨ p = .reg .lcgC then BitVec.ofNat 32 (v.toNat % 2 ^ 16) else v) ∧
      memWrite (s.base + placeOffset p) 4 v t = .next t ∧
      ∀ off, ¬ (placeOffset p ≤ off ∧ off < placeOffset p + 4) → t.byteAt off = s.byteAt off

/-- R62: the block is little-endian: byte k of a 64-bit quantity, k below 8, has byte address k above the quantity's lower
offset. -/
def Obligations.LittleEndian : Prop :=
  ∀ (s : State) (k : Nat), s.cap.toNat ≤ 8192 → s.busy = false → k < 8 →
    s.byteAt (0x050 + k) = some (BitVec.ofNat 8 (s.bbsX.toNat / 2 ^ (8 * k))) ∧
    s.byteAt (0x058 + k) = some (BitVec.ofNat 8 (s.bbsM.toNat / 2 ^ (8 * k))) ∧
    s.byteAt (0x060 + k) = some (BitVec.ofNat 8 (s.bbsRaw.toNat / 2 ^ (8 * k))) ∧
    (∀ i x, i < s.cap.toNat → i < s.outLen.toNat → Buffer.read s.outBuf i = some x →
      s.byteAt (0x20000 + 8 * i + k) = some (BitVec.ofNat 8 (x.toNat / 2 ^ (8 * k)))) ∧
    (k < 4 → s.byteAt (0x01C + k) = some (BitVec.ofNat 8 (s.lcgM.toNat / 2 ^ (8 * k))))

/-- R23: the fields of STATUS. -/
def Obligations.StatusFields : Prop := ∀ s : State, s.statusWord.toNat = Spec.statusNat s

/-! ## Reset -/

/-- R180, R182: the state right after reset. -/
def Obligations.ResetValues : Prop :=
  State.reset.statusWord = 0 ∧ (∀ r, r ≠ .cap → State.reset.regWord r = 0) ∧
    State.reset.regWord .cap = BitVec.ofNat 32 Config.LMAX ∧
    (State.reset.lcgAL = 0 ∧ State.reset.lcgCL = 0 ∧ State.reset.lcgML = 0 ∧ State.reset.pending = none) ∧
    ∀ i, Buffer.read State.reset.inBuf i = none ∧ Buffer.read State.reset.outBuf i = none ∧
      Buffer.read State.reset.ksBbs i = none ∧ Buffer.read State.reset.ksLcg i = none

/-- R181: asserting reset sets every item to its reset value and abandons a command in flight. While reset is asserted the block
answers no access, whatever the schedule holds, and only the release ends that. After release, however many turns lie between,
the block is as right after reset. The wired CAP and BASE, and the fields that are not the block's, keep their values. That a
fault stands for the missing answer, and what survives, is the model's choice (assumptions 11 and 15). -/
def Obligations.ResetAbandonsTheCommand : Prop :=
  (∀ (s : State) (rest : List Turn), s.schedule = .assertReset :: rest →
    ∃ t, step s = .next t ∧ t.pending = none ∧ t.inReset = true ∧ t.schedule = rest ∧
      ∀ rest', rest = .releaseReset :: rest' →
        step t = .next { State.reset with
          cap := s.cap, base := s.base, schedule := rest', program := s.program, reads := s.reads
          waitStatus := s.waitStatus, draws := s.draws }) ∧
  (∀ (s : State) (addr size : Nat) (v : Word), s.inReset = true → s.owns addr = true →
    memRead addr size s = .fault (.accessDuringReset addr) ∧
      memWrite addr size v s = .fault (.accessDuringReset addr)) ∧
  (∀ s t : State, s.inReset = true → nextTurn s ≠ .releaseReset → step s = .next t → t.inReset = true) ∧
  ∀ (s t : State) (us rest : List Turn), s.schedule = .assertReset :: (us ++ .releaseReset :: rest) →
    .releaseReset ∉ us → Sys2Proof.core.run (us.length + 2) s = .next t →
    State.sameBlock { State.reset with cap := s.cap, base := s.base } t ∧ State.schedule t = rest

/-! ## Invariants -/

/-- The invariants of R55, and the model's own, hold after reset. -/
def Obligations.ResetMeetsTheInvariants : Prop := Invariants State.reset

/-- R55: every step keeps the invariants. -/
def Obligations.StepKeepsTheInvariants : Prop :=
  ∀ s t : State, Invariants s → step s = .next t → Invariants t

/-! ## The host's assembly -/

/-- R93: `wait` reads STATUS; it goes round again while bit 0 is 1, and ends with the value read when bit 0 is 0, whose bits 11:8
are the completed command's ERR. -/
def Obligations.WaitPollsUntilIdle : Prop :=
  ∀ s : State, s.inReset = false →
    (s.busy = true → ∃ t, hostAction .wait s = .next t ∧ State.sameBlock s t ∧ t.program = .wait :: s.program ∧
      t.waitStatus = s.waitStatus) ∧
    (s.busy = false → ∃ t, hostAction .wait s = .next t ∧ State.sameBlock s t ∧ t.program = s.program ∧
      t.waitStatus = some s.statusWord ∧ statusErrField s.statusWord = s.err.code)

/-- R92: `cmd` is `issue` followed by `wait`: with the empty schedule, whose turns are the model's choice (assumption 3), it writes the command's word to CMD, the command completes,
and the wait ends with the STATUS the command leaves. -/
def Obligations.CmdIssuesAndWaits : Prop :=
  ∀ (s t : State) (i : Instr) (rest : List HostInstr), s.schedule = [] → s.program = .cmd i :: rest →
    s.pending = none → s.inReset = false →
    exec i { s with program := .wait :: rest, cmd := encode i, pending := some (encode i), err := .ok } = .next t →
    ∃ u, Sys2Proof.core.run 3 s = .next u ∧ State.sameBlock t u ∧ State.program u = rest ∧
      State.waitStatus u = some t.statusWord ∧ State.cmd u = encode i

/-- R190: the end of a host program is the state after its last instruction, when that is a `wait` or a `cmd`. Then nothing is in
flight, and the end state is what a read of each mapped offset returns. A program whose last instruction is another has no
end state. Reads and assertions that follow the last `wait` change no state and are passed over (the model's reading,
assumption 21). The last two clauses give a program its end with the empty schedule (assumption 3). -/
def Obligations.EndOfAHostProgram : Prop :=
  (∀ (k : Nat) (s t : State), programEnd k s = some t →
    (∃ j, j ≤ k ∧ Sys2Proof.core.run j s = .next t) ∧ t.program = [] ∧ t.pending = none ∧ t.inReset = false ∧
      ∀ p : Place, t.cap.toNat ≤ 8192 → p.wellFormed t.cap.toNat = true →
        ∃ v u, memRead (t.base + placeOffset p) 4 t = .next (v, u) ∧
          ∀ x, endValue t (placeOffset p) = some x → v = x) ∧
  (∀ (k : Nat) (s : State) (before after : List HostInstr), s.program = before ++ after → after.all observes = true →
    (∀ h, before.getLast? = some h → h ≠ .wait ∧ (∀ i, h ≠ .cmd i) ∧ observes h = false) → programEnd k s = none) ∧
  (∀ s : State, s.schedule = [] → s.program = [.wait] → s.pending = none → s.inReset = false →
    ∃ t, programEnd 1 s = some t ∧ State.sameBlock s t) ∧
  ∀ (s t : State) (i : Instr), s.schedule = [] → s.program = [.cmd i] → s.pending = none → s.inReset = false →
    exec i { s with program := [.wait], cmd := encode i, pending := some (encode i), err := .ok } = .next t →
    ∃ u, programEnd 3 s = some u ∧ State.sameBlock t u
end

