-- ==== Sys2Proof/Laws/Arith.lean ====
section
/-! SUPPORT. The arithmetic of the block against the naturals: the primality test is exact, the parity bit is the number of 1
bits mod 2, the steps of the two generators do not truncate, and the keystream values do not move a code point
out of range. -/

namespace Sys2Proof.Machine

/-! ## Primality -/

theorem noDivisorIn_iff (n : Nat) : ∀ k lo : Nat,
    noDivisorIn n k lo = true ↔ ∀ d, lo ≤ d → d < lo + 2 ^ k → d * d ≤ n → ¬ d ∣ n
  | 0, lo => by
    have : (Nat.blt n (lo * lo) = true) ↔ n < lo * lo := by simp [Nat.blt_eq]
    have hb : Nat.beq (n % lo) 0 = false ↔ n % lo ≠ 0 := by rw [← Bool.not_eq_true, Nat.beq_eq]
    simp only [noDivisorIn, Bool.or_eq_true, this, Bool.not_eq_true', hb, pow_zero]
    constructor
    · rintro (h | h) d h1 h2 h3 h4
      · obtain rfl : d = lo := by omega
        omega
      · obtain rfl : d = lo := by omega
        exact h (Nat.mod_eq_zero_of_dvd h4)
    · intro h
      by_cases hn : n < lo * lo
      · exact .inl hn
      · exact .inr fun h0 => h lo (le_refl _) (by omega) (by omega) (Nat.dvd_of_mod_eq_zero h0)
  | k + 1, lo => by
    have : (Nat.blt n (lo * lo) = true) ↔ n < lo * lo := by simp [Nat.blt_eq]
    simp only [noDivisorIn, Bool.or_eq_true, Bool.and_eq_true, this, noDivisorIn_iff n k]
    have e : 2 ^ (k + 1) = 2 ^ k + 2 ^ k := by ring
    constructor
    · rintro (h | ⟨h1, h2⟩) d hd1 hd2 hd3
      · have := Nat.mul_le_mul hd1 hd1
        omega
      · by_cases hc : d < lo + 2 ^ k
        · exact h1 d hd1 hc hd3
        · exact h2 d (by omega) (by omega) hd3
    · intro h
      exact .inr ⟨fun d h1 h2 => h d h1 (by omega), fun d h1 h2 => h d (by omega) (by omega)⟩

/-- The primality test of a 32-bit value is exact (R121, U7). -/
theorem primeWord_iff (v : Word) : primeWord v = true ↔ v.toNat.Prime := by
  have hv : v.toNat < 2 ^ 32 := v.isLt
  simp only [primeWord, Bool.and_eq_true, decide_eq_true_eq, noDivisorIn_iff]
  rw [Nat.prime_def_le_sqrt]
  refine and_congr_right fun _ => ⟨fun h d h2 hs => ?_, fun h d h2 _ hd => h d h2 (Nat.le_sqrt.2 hd)⟩
  have hdd : d * d ≤ v.toNat := Nat.le_sqrt.1 hs
  have : d < 2 ^ 16 := by
    by_contra hc
    have := Nat.mul_le_mul (not_lt.1 hc) (not_lt.1 hc)
    omega
  exact h d h2 (by omega) hdd

/-! ## Parity -/

theorem popcountUpTo_eq (k : Nat) : ∀ v : Nat, v < 2 ^ k → popcountUpTo k v = (Nat.digits 2 v).count 1 := by
  induction k with
  | zero => intro v h; simp [show v = 0 by simpa using h, popcountUpTo]
  | succ k ih =>
    intro v h
    rcases Nat.eq_zero_or_pos v with rfl | hv
    · have h0 := ih 0 (by positivity)
      simp only [Nat.digits_zero, List.count_nil] at h0
      simp [popcountUpTo, h0]
    · rw [popcountUpTo, Nat.digits_def' (by norm_num) hv, List.count_cons, ih (v / 2) (by omega)]
      rcases Nat.mod_two_eq_zero_or_one v with h2 | h2 <;> simp [h2, add_comm]

/-- popcount is the number of 1 bits (R15). -/
theorem popcount_eq (v : DWord) : popcount v = (Nat.digits 2 v.toNat).count 1 := popcountUpTo_eq 64 _ v.isLt

theorem evenParityBit_toNat (v : DWord) : (evenParityBit v).toNat = (Nat.digits 2 v.toNat).count 1 % 2 := by
  simp [evenParityBit, popcount_eq]

theorem leastSignificantBit_toNat (v : DWord) : (leastSignificantBit v).toNat = v.toNat % 2 := by
  simp [leastSignificantBit]

/-! ## The steps -/

/-- The LCG step is exact for m ≥ 1 (R11, R102). -/
theorem lcgStep_toNat (a c : BitVec 16) (m s : Word) (hm : 1 ≤ m.toNat) :
    (lcgStep a c m s).1.toNat = (a.toNat * s.toNat + c.toNat) % m.toNat ∧
      (lcgStep a c m s).2.toNat = (a.toNat * s.toNat + c.toNat) % m.toNat % 128 := by
  have h : (a.toNat * s.toNat + c.toNat) % m.toNat < m.toNat := Nat.mod_lt _ hm
  have := m.isLt
  constructor
  · simp only [lcgStep, BitVec.toNat_ofNat]; exact Nat.mod_eq_of_lt (by omega)
  · simp only [lcgStep, BitVec.toNat_ofNat]; omega

/-- The BBS step is exact for M ≥ 1 (R11, R123). -/
theorem bbsStep_raw_toNat (m x : DWord) (hm : 1 ≤ m.toNat) :
    (bbsStep m x).raw.toNat = x.toNat * x.toNat % m.toNat := by
  have h : x.toNat * x.toNat % m.toNat < m.toNat := Nat.mod_lt _ hm
  have := m.isLt
  simp only [bbsStep, BitVec.toNat_ofNat]
  exact Nat.mod_eq_of_lt (by omega)

theorem bbsStep_par (m x : DWord) : (bbsStep m x).par = evenParityBit (bbsStep m x).raw := rfl

theorem bbsStep_lsb (m x : DWord) : (bbsStep m x).lsb = leastSignificantBit (bbsStep m x).raw := rfl

/-- blum_ok against the naturals (R121). -/
theorem blumOk_iff (p q : Word) :
    blumOk p q = true ↔
      p.toNat.Prime ∧ q.toNat.Prime ∧ p.toNat % 4 = 3 ∧ q.toNat % 4 = 3 ∧ p.toNat ≠ q.toNat := by
  simp only [blumOk, Bool.and_eq_true, primeWord_iff, decide_eq_true_eq, ne_eq, BitVec.toNat_inj]
  tauto

/-- The product of two words fits 64 bits (R11). -/
theorem mul_words_lt (p q : Word) : p.toNat * q.toNat < 2 ^ 64 := by
  have hp := p.isLt
  have hq := q.isLt
  calc p.toNat * q.toNat < 2 ^ 32 * 2 ^ 32 := Nat.mul_lt_mul'' hp hq
    _ = 2 ^ 64 := by norm_num

/-! ## Code points -/

/-- A keystream value below 128 does not change whether a word is a valid code point (R149). -/
theorem validCp_xor (v k : Word) (hk : k.toNat < 128) : validCp (v ^^^ k) = validCp v := by
  have h : (v ^^^ k).toNat / 128 = v.toNat / 128 := by
    rw [BitVec.toNat_xor, show (128 : Nat) = 2 ^ 7 by norm_num, ← Nat.shiftRight_eq_div_pow,
      ← Nat.shiftRight_eq_div_pow, Nat.shiftRight_xor_distrib, Nat.shiftRight_eq_div_pow k.toNat,
      Nat.div_eq_of_lt (by omega), Nat.xor_zero]
  simp only [validCp, decide_eq_decide]
  omega

theorem keystream_lt (s : State) (m : CipherMethod) (i : Nat) (k : Word) (h : s.keystream m i = some k) :
    k.toNat < 128 := by
  cases m <;> simp only [State.keystream, Option.map_eq_some_iff] at h <;> obtain ⟨b, _, rfl⟩ := h
  · have := b.isLt
    simp only [BitVec.toNat_setWidth]; omega
  · have := b.isLt
    simp only [BitVec.toNat_setWidth]; omega

end Sys2Proof.Machine
end

