-- ==== Sys2Proof/Laws/Buffer.lean ====
section
/-! SUPPORT. The laws of buffers: a read after a write, a write leaves other entries alone, and every write keeps the canonical
form. -/

namespace Sys2Proof.Machine

theorem Buffer.read_write {w : Nat} (b : Buffer w) (i j : Nat) (v : BitVec w) :
    Buffer.read (Buffer.write b i v) j = if i = j then some v else Buffer.read b j := by
  induction b with
  | nil => simp [Buffer.write, Buffer.read]
  | cons h t ih =>
    obtain ⟨k, u⟩ := h
    simp only [Buffer.write]
    split
    · simp [Buffer.read]
    · split
      · subst_vars; simp only [Buffer.read]; split <;> rfl
      · simp only [Buffer.read, ih]
        split <;> split <;> first | rfl | omega

@[simp] theorem Buffer.read_write_same {w : Nat} (b : Buffer w) (i : Nat) (v : BitVec w) :
    Buffer.read (Buffer.write b i v) i = some v := by simp [Buffer.read_write]

theorem Buffer.read_write_other {w : Nat} (b : Buffer w) {i j : Nat} (v : BitVec w) (h : i ≠ j) :
    Buffer.read (Buffer.write b i v) j = Buffer.read b j := by simp [Buffer.read_write, h]

/-- What `writeFrom` leaves in entry `j`: the listed value where `j` is in its range, the old content elsewhere. -/
theorem Buffer.read_writeFrom {w : Nat} (vs : List (BitVec w)) (b : Buffer w) (i j : Nat) :
    Buffer.read (Buffer.writeFrom b i vs) j =
      if i ≤ j ∧ j < i + vs.length then vs[j - i]? else Buffer.read b j := by
  induction vs generalizing b i with
  | nil => simp [Buffer.writeFrom]
  | cons v vs ih =>
    rw [Buffer.writeFrom, ih, Buffer.read_write]
    by_cases h : i = j
    · subst h; simp
    · by_cases hr : i + 1 ≤ j ∧ j < i + 1 + vs.length
      · have h1 : i ≤ j ∧ j < i + (v :: vs).length := by simp; omega
        obtain ⟨k, hk⟩ : ∃ k, j - i = k + 1 := ⟨j - i - 1, by omega⟩
        have h2 : j - (i + 1) = k := by omega
        rw [if_pos hr, if_pos h1, hk, h2, List.getElem?_cons_succ]
      · have h1 : ¬(i ≤ j ∧ j < i + (v :: vs).length) := by simp; omega
        rw [if_neg hr, if_neg h1, if_neg h]

theorem Buffer.wfFrom_mono {w : Nat} {lmax lo lo' : Nat} (h : lo' ≤ lo) (b : Buffer w)
    (hb : Buffer.wfFrom lmax lo b = true) : Buffer.wfFrom lmax lo' b = true := by
  cases b with
  | nil => rfl
  | cons hd t =>
    simp only [Buffer.wfFrom, Bool.and_eq_true, decide_eq_true_eq] at hb ⊢
    exact ⟨⟨by omega, hb.1.2⟩, hb.2⟩

theorem Buffer.wfFrom_write {w : Nat} {lmax lo i : Nat} (v : BitVec w) (b : Buffer w) (hlo : lo ≤ i) (hi : i < lmax)
    (hb : Buffer.wfFrom lmax lo b = true) : Buffer.wfFrom lmax lo (Buffer.write b i v) = true := by
  induction b generalizing lo with
  | nil => simp [Buffer.write, Buffer.wfFrom, hlo, hi]
  | cons hd t ih =>
    obtain ⟨j, u⟩ := hd
    simp only [Buffer.wfFrom, Bool.and_eq_true, decide_eq_true_eq] at hb
    simp only [Buffer.write]
    split
    · simp only [Buffer.wfFrom, Bool.and_eq_true, decide_eq_true_eq]
      exact ⟨⟨hlo, hi⟩, ⟨by omega, hb.1.2⟩, hb.2⟩
    · split
      · subst_vars
        simp only [Buffer.wfFrom, Bool.and_eq_true, decide_eq_true_eq]
        exact ⟨⟨hlo, hi⟩, hb.2⟩
      · simp only [Buffer.wfFrom, Bool.and_eq_true, decide_eq_true_eq]
        exact ⟨hb.1, ih (by omega) hb.2⟩

/-- A write below LMAX keeps the canonical form. -/
theorem Buffer.wf_write {w lmax i : Nat} (v : BitVec w) (b : Buffer w) (hi : i < lmax) (hb : Buffer.wf lmax b = true) :
    Buffer.wf lmax (Buffer.write b i v) = true :=
  Buffer.wfFrom_write v b (Nat.zero_le i) hi hb

/-- Writes below LMAX keep the canonical form. -/
theorem Buffer.wf_writeFrom {w lmax : Nat} (vs : List (BitVec w)) (b : Buffer w) (i : Nat) (hi : i + vs.length ≤ lmax)
    (hb : Buffer.wf lmax b = true) : Buffer.wf lmax (Buffer.writeFrom b i vs) = true := by
  induction vs generalizing b i with
  | nil => exact hb
  | cons v vs ih =>
    simp only [List.length_cons] at hi
    exact ih _ _ (by omega) (Buffer.wf_write v b (by omega) hb)

@[simp] theorem Buffer.wf_nil {w lmax : Nat} : Buffer.wf lmax ([] : Buffer w) = true := rfl

/-- An entry of a buffer in canonical form lies below LMAX. -/
theorem Buffer.lt_of_read_wfFrom {w lmax lo i : Nat} (b : Buffer w) (hb : Buffer.wfFrom lmax lo b = true)
    (h : (Buffer.read b i).isSome = true) : lo ≤ i ∧ i < lmax := by
  induction b generalizing lo with
  | nil => simp [Buffer.read] at h
  | cons hd t ih =>
    obtain ⟨j, u⟩ := hd
    simp only [Buffer.wfFrom, Bool.and_eq_true, decide_eq_true_eq] at hb
    simp only [Buffer.read] at h
    split at h
    · subst_vars; exact hb.1
    · have := ih hb.2 h; omega

end Sys2Proof.Machine
end

