-- ==== Sys2Proof/Laws/State.lean ====
section
/-! SUPPORT. One lemma per field per update of the state, each true by rfl, so that no proof unfolds a record update. -/

namespace Sys2Proof.Machine

/-! ### State.finish -/

@[simp] theorem State.finish_cmd (s : State) (e : ErrCode) : (s.finish e).cmd = s.cmd := rfl
@[simp] theorem State.finish_pending (s : State) (e : ErrCode) : (s.finish e).pending = none := rfl
@[simp] theorem State.finish_lcgLoaded (s : State) (e : ErrCode) : (s.finish e).lcgLoaded = s.lcgLoaded := rfl
@[simp] theorem State.finish_bbsLoaded (s : State) (e : ErrCode) : (s.finish e).bbsLoaded = s.bbsLoaded := rfl
@[simp] theorem State.finish_constructed (s : State) (e : ErrCode) : (s.finish e).constructed = s.constructed := rfl
@[simp] theorem State.finish_overrun (s : State) (e : ErrCode) : (s.finish e).overrun = s.overrun := rfl
@[simp] theorem State.finish_err (s : State) (e : ErrCode) : (s.finish e).err = e := rfl
@[simp] theorem State.finish_lcgSeed (s : State) (e : ErrCode) : (s.finish e).lcgSeed = s.lcgSeed := rfl
@[simp] theorem State.finish_lcgA (s : State) (e : ErrCode) : (s.finish e).lcgA = s.lcgA := rfl
@[simp] theorem State.finish_lcgC (s : State) (e : ErrCode) : (s.finish e).lcgC = s.lcgC := rfl
@[simp] theorem State.finish_lcgM (s : State) (e : ErrCode) : (s.finish e).lcgM = s.lcgM := rfl
@[simp] theorem State.finish_bbsSeed (s : State) (e : ErrCode) : (s.finish e).bbsSeed = s.bbsSeed := rfl
@[simp] theorem State.finish_bbsP (s : State) (e : ErrCode) : (s.finish e).bbsP = s.bbsP := rfl
@[simp] theorem State.finish_bbsQ (s : State) (e : ErrCode) : (s.finish e).bbsQ = s.bbsQ := rfl
@[simp] theorem State.finish_keyLen (s : State) (e : ErrCode) : (s.finish e).keyLen = s.keyLen := rfl
@[simp] theorem State.finish_genLen (s : State) (e : ErrCode) : (s.finish e).genLen = s.genLen := rfl
@[simp] theorem State.finish_inLen (s : State) (e : ErrCode) : (s.finish e).inLen = s.inLen := rfl
@[simp] theorem State.finish_lcgState (s : State) (e : ErrCode) : (s.finish e).lcgState = s.lcgState := rfl
@[simp] theorem State.finish_lcgOut (s : State) (e : ErrCode) : (s.finish e).lcgOut = s.lcgOut := rfl
@[simp] theorem State.finish_bbsX (s : State) (e : ErrCode) : (s.finish e).bbsX = s.bbsX := rfl
@[simp] theorem State.finish_bbsM (s : State) (e : ErrCode) : (s.finish e).bbsM = s.bbsM := rfl
@[simp] theorem State.finish_bbsRaw (s : State) (e : ErrCode) : (s.finish e).bbsRaw = s.bbsRaw := rfl
@[simp] theorem State.finish_bbsPar (s : State) (e : ErrCode) : (s.finish e).bbsPar = s.bbsPar := rfl
@[simp] theorem State.finish_bbsLsb (s : State) (e : ErrCode) : (s.finish e).bbsLsb = s.bbsLsb := rfl
@[simp] theorem State.finish_ksLen (s : State) (e : ErrCode) : (s.finish e).ksLen = s.ksLen := rfl
@[simp] theorem State.finish_outLen (s : State) (e : ErrCode) : (s.finish e).outLen = s.outLen := rfl
@[simp] theorem State.finish_cap (s : State) (e : ErrCode) : (s.finish e).cap = s.cap := rfl
@[simp] theorem State.finish_lcgAL (s : State) (e : ErrCode) : (s.finish e).lcgAL = s.lcgAL := rfl
@[simp] theorem State.finish_lcgCL (s : State) (e : ErrCode) : (s.finish e).lcgCL = s.lcgCL := rfl
@[simp] theorem State.finish_lcgML (s : State) (e : ErrCode) : (s.finish e).lcgML = s.lcgML := rfl
@[simp] theorem State.finish_inBuf (s : State) (e : ErrCode) : (s.finish e).inBuf = s.inBuf := rfl
@[simp] theorem State.finish_outBuf (s : State) (e : ErrCode) : (s.finish e).outBuf = s.outBuf := rfl
@[simp] theorem State.finish_ksBbs (s : State) (e : ErrCode) : (s.finish e).ksBbs = s.ksBbs := rfl
@[simp] theorem State.finish_ksLcg (s : State) (e : ErrCode) : (s.finish e).ksLcg = s.ksLcg := rfl
@[simp] theorem State.finish_base (s : State) (e : ErrCode) : (s.finish e).base = s.base := rfl
@[simp] theorem State.finish_inReset (s : State) (e : ErrCode) : (s.finish e).inReset = s.inReset := rfl
@[simp] theorem State.finish_schedule (s : State) (e : ErrCode) : (s.finish e).schedule = s.schedule := rfl
@[simp] theorem State.finish_program (s : State) (e : ErrCode) : (s.finish e).program = s.program := rfl
@[simp] theorem State.finish_reads (s : State) (e : ErrCode) : (s.finish e).reads = s.reads := rfl
@[simp] theorem State.finish_waitStatus (s : State) (e : ErrCode) : (s.finish e).waitStatus = s.waitStatus := rfl
@[simp] theorem State.finish_draws (s : State) (e : ErrCode) : (s.finish e).draws = s.draws := rfl

/-! ### State.accept -/

@[simp] theorem State.accept_cmd (s : State) (w : Word) : (s.accept w).cmd = w := rfl
@[simp] theorem State.accept_pending (s : State) (w : Word) : (s.accept w).pending = some w := rfl
@[simp] theorem State.accept_lcgLoaded (s : State) (w : Word) : (s.accept w).lcgLoaded = s.lcgLoaded := rfl
@[simp] theorem State.accept_bbsLoaded (s : State) (w : Word) : (s.accept w).bbsLoaded = s.bbsLoaded := rfl
@[simp] theorem State.accept_constructed (s : State) (w : Word) : (s.accept w).constructed = s.constructed := rfl
@[simp] theorem State.accept_overrun (s : State) (w : Word) : (s.accept w).overrun = s.overrun := rfl
@[simp] theorem State.accept_err (s : State) (w : Word) : (s.accept w).err = ErrCode.ok := rfl
@[simp] theorem State.accept_lcgSeed (s : State) (w : Word) : (s.accept w).lcgSeed = s.lcgSeed := rfl
@[simp] theorem State.accept_lcgA (s : State) (w : Word) : (s.accept w).lcgA = s.lcgA := rfl
@[simp] theorem State.accept_lcgC (s : State) (w : Word) : (s.accept w).lcgC = s.lcgC := rfl
@[simp] theorem State.accept_lcgM (s : State) (w : Word) : (s.accept w).lcgM = s.lcgM := rfl
@[simp] theorem State.accept_bbsSeed (s : State) (w : Word) : (s.accept w).bbsSeed = s.bbsSeed := rfl
@[simp] theorem State.accept_bbsP (s : State) (w : Word) : (s.accept w).bbsP = s.bbsP := rfl
@[simp] theorem State.accept_bbsQ (s : State) (w : Word) : (s.accept w).bbsQ = s.bbsQ := rfl
@[simp] theorem State.accept_keyLen (s : State) (w : Word) : (s.accept w).keyLen = s.keyLen := rfl
@[simp] theorem State.accept_genLen (s : State) (w : Word) : (s.accept w).genLen = s.genLen := rfl
@[simp] theorem State.accept_inLen (s : State) (w : Word) : (s.accept w).inLen = s.inLen := rfl
@[simp] theorem State.accept_lcgState (s : State) (w : Word) : (s.accept w).lcgState = s.lcgState := rfl
@[simp] theorem State.accept_lcgOut (s : State) (w : Word) : (s.accept w).lcgOut = s.lcgOut := rfl
@[simp] theorem State.accept_bbsX (s : State) (w : Word) : (s.accept w).bbsX = s.bbsX := rfl
@[simp] theorem State.accept_bbsM (s : State) (w : Word) : (s.accept w).bbsM = s.bbsM := rfl
@[simp] theorem State.accept_bbsRaw (s : State) (w : Word) : (s.accept w).bbsRaw = s.bbsRaw := rfl
@[simp] theorem State.accept_bbsPar (s : State) (w : Word) : (s.accept w).bbsPar = s.bbsPar := rfl
@[simp] theorem State.accept_bbsLsb (s : State) (w : Word) : (s.accept w).bbsLsb = s.bbsLsb := rfl
@[simp] theorem State.accept_ksLen (s : State) (w : Word) : (s.accept w).ksLen = s.ksLen := rfl
@[simp] theorem State.accept_outLen (s : State) (w : Word) : (s.accept w).outLen = s.outLen := rfl
@[simp] theorem State.accept_cap (s : State) (w : Word) : (s.accept w).cap = s.cap := rfl
@[simp] theorem State.accept_lcgAL (s : State) (w : Word) : (s.accept w).lcgAL = s.lcgAL := rfl
@[simp] theorem State.accept_lcgCL (s : State) (w : Word) : (s.accept w).lcgCL = s.lcgCL := rfl
@[simp] theorem State.accept_lcgML (s : State) (w : Word) : (s.accept w).lcgML = s.lcgML := rfl
@[simp] theorem State.accept_inBuf (s : State) (w : Word) : (s.accept w).inBuf = s.inBuf := rfl
@[simp] theorem State.accept_outBuf (s : State) (w : Word) : (s.accept w).outBuf = s.outBuf := rfl
@[simp] theorem State.accept_ksBbs (s : State) (w : Word) : (s.accept w).ksBbs = s.ksBbs := rfl
@[simp] theorem State.accept_ksLcg (s : State) (w : Word) : (s.accept w).ksLcg = s.ksLcg := rfl
@[simp] theorem State.accept_base (s : State) (w : Word) : (s.accept w).base = s.base := rfl
@[simp] theorem State.accept_inReset (s : State) (w : Word) : (s.accept w).inReset = s.inReset := rfl
@[simp] theorem State.accept_schedule (s : State) (w : Word) : (s.accept w).schedule = s.schedule := rfl
@[simp] theorem State.accept_program (s : State) (w : Word) : (s.accept w).program = s.program := rfl
@[simp] theorem State.accept_reads (s : State) (w : Word) : (s.accept w).reads = s.reads := rfl
@[simp] theorem State.accept_waitStatus (s : State) (w : Word) : (s.accept w).waitStatus = s.waitStatus := rfl
@[simp] theorem State.accept_draws (s : State) (w : Word) : (s.accept w).draws = s.draws := rfl

/-! ### State.deliver -/

@[simp] theorem State.deliver_cmd (s : State) (a : Nat) (v : Word) : (s.deliver a v).cmd = s.cmd := rfl
@[simp] theorem State.deliver_pending (s : State) (a : Nat) (v : Word) : (s.deliver a v).pending = s.pending := rfl
@[simp] theorem State.deliver_lcgLoaded (s : State) (a : Nat) (v : Word) : (s.deliver a v).lcgLoaded = s.lcgLoaded := rfl
@[simp] theorem State.deliver_bbsLoaded (s : State) (a : Nat) (v : Word) : (s.deliver a v).bbsLoaded = s.bbsLoaded := rfl
@[simp] theorem State.deliver_constructed (s : State) (a : Nat) (v : Word) : (s.deliver a v).constructed = s.constructed := rfl
@[simp] theorem State.deliver_overrun (s : State) (a : Nat) (v : Word) : (s.deliver a v).overrun = s.overrun := rfl
@[simp] theorem State.deliver_err (s : State) (a : Nat) (v : Word) : (s.deliver a v).err = s.err := rfl
@[simp] theorem State.deliver_lcgSeed (s : State) (a : Nat) (v : Word) : (s.deliver a v).lcgSeed = s.lcgSeed := rfl
@[simp] theorem State.deliver_lcgA (s : State) (a : Nat) (v : Word) : (s.deliver a v).lcgA = s.lcgA := rfl
@[simp] theorem State.deliver_lcgC (s : State) (a : Nat) (v : Word) : (s.deliver a v).lcgC = s.lcgC := rfl
@[simp] theorem State.deliver_lcgM (s : State) (a : Nat) (v : Word) : (s.deliver a v).lcgM = s.lcgM := rfl
@[simp] theorem State.deliver_bbsSeed (s : State) (a : Nat) (v : Word) : (s.deliver a v).bbsSeed = s.bbsSeed := rfl
@[simp] theorem State.deliver_bbsP (s : State) (a : Nat) (v : Word) : (s.deliver a v).bbsP = s.bbsP := rfl
@[simp] theorem State.deliver_bbsQ (s : State) (a : Nat) (v : Word) : (s.deliver a v).bbsQ = s.bbsQ := rfl
@[simp] theorem State.deliver_keyLen (s : State) (a : Nat) (v : Word) : (s.deliver a v).keyLen = s.keyLen := rfl
@[simp] theorem State.deliver_genLen (s : State) (a : Nat) (v : Word) : (s.deliver a v).genLen = s.genLen := rfl
@[simp] theorem State.deliver_inLen (s : State) (a : Nat) (v : Word) : (s.deliver a v).inLen = s.inLen := rfl
@[simp] theorem State.deliver_lcgState (s : State) (a : Nat) (v : Word) : (s.deliver a v).lcgState = s.lcgState := rfl
@[simp] theorem State.deliver_lcgOut (s : State) (a : Nat) (v : Word) : (s.deliver a v).lcgOut = s.lcgOut := rfl
@[simp] theorem State.deliver_bbsX (s : State) (a : Nat) (v : Word) : (s.deliver a v).bbsX = s.bbsX := rfl
@[simp] theorem State.deliver_bbsM (s : State) (a : Nat) (v : Word) : (s.deliver a v).bbsM = s.bbsM := rfl
@[simp] theorem State.deliver_bbsRaw (s : State) (a : Nat) (v : Word) : (s.deliver a v).bbsRaw = s.bbsRaw := rfl
@[simp] theorem State.deliver_bbsPar (s : State) (a : Nat) (v : Word) : (s.deliver a v).bbsPar = s.bbsPar := rfl
@[simp] theorem State.deliver_bbsLsb (s : State) (a : Nat) (v : Word) : (s.deliver a v).bbsLsb = s.bbsLsb := rfl
@[simp] theorem State.deliver_ksLen (s : State) (a : Nat) (v : Word) : (s.deliver a v).ksLen = s.ksLen := rfl
@[simp] theorem State.deliver_outLen (s : State) (a : Nat) (v : Word) : (s.deliver a v).outLen = s.outLen := rfl
@[simp] theorem State.deliver_cap (s : State) (a : Nat) (v : Word) : (s.deliver a v).cap = s.cap := rfl
@[simp] theorem State.deliver_lcgAL (s : State) (a : Nat) (v : Word) : (s.deliver a v).lcgAL = s.lcgAL := rfl
@[simp] theorem State.deliver_lcgCL (s : State) (a : Nat) (v : Word) : (s.deliver a v).lcgCL = s.lcgCL := rfl
@[simp] theorem State.deliver_lcgML (s : State) (a : Nat) (v : Word) : (s.deliver a v).lcgML = s.lcgML := rfl
@[simp] theorem State.deliver_inBuf (s : State) (a : Nat) (v : Word) : (s.deliver a v).inBuf = s.inBuf := rfl
@[simp] theorem State.deliver_outBuf (s : State) (a : Nat) (v : Word) : (s.deliver a v).outBuf = s.outBuf := rfl
@[simp] theorem State.deliver_ksBbs (s : State) (a : Nat) (v : Word) : (s.deliver a v).ksBbs = s.ksBbs := rfl
@[simp] theorem State.deliver_ksLcg (s : State) (a : Nat) (v : Word) : (s.deliver a v).ksLcg = s.ksLcg := rfl
@[simp] theorem State.deliver_base (s : State) (a : Nat) (v : Word) : (s.deliver a v).base = s.base := rfl
@[simp] theorem State.deliver_inReset (s : State) (a : Nat) (v : Word) : (s.deliver a v).inReset = s.inReset := rfl
@[simp] theorem State.deliver_schedule (s : State) (a : Nat) (v : Word) : (s.deliver a v).schedule = s.schedule := rfl
@[simp] theorem State.deliver_program (s : State) (a : Nat) (v : Word) : (s.deliver a v).program = s.program := rfl
@[simp] theorem State.deliver_reads (s : State) (a : Nat) (v : Word) : (s.deliver a v).reads = (a, v) :: s.reads := rfl
@[simp] theorem State.deliver_waitStatus (s : State) (a : Nat) (v : Word) : (s.deliver a v).waitStatus = s.waitStatus := rfl
@[simp] theorem State.deliver_draws (s : State) (a : Nat) (v : Word) : (s.deliver a v).draws = s.draws := rfl

/-! ### State.releaseReset -/

@[simp] theorem State.releaseReset_cmd (s : State) : (s.releaseReset).cmd = s.cmd := rfl
@[simp] theorem State.releaseReset_pending (s : State) : (s.releaseReset).pending = s.pending := rfl
@[simp] theorem State.releaseReset_lcgLoaded (s : State) : (s.releaseReset).lcgLoaded = s.lcgLoaded := rfl
@[simp] theorem State.releaseReset_bbsLoaded (s : State) : (s.releaseReset).bbsLoaded = s.bbsLoaded := rfl
@[simp] theorem State.releaseReset_constructed (s : State) : (s.releaseReset).constructed = s.constructed := rfl
@[simp] theorem State.releaseReset_overrun (s : State) : (s.releaseReset).overrun = s.overrun := rfl
@[simp] theorem State.releaseReset_err (s : State) : (s.releaseReset).err = s.err := rfl
@[simp] theorem State.releaseReset_lcgSeed (s : State) : (s.releaseReset).lcgSeed = s.lcgSeed := rfl
@[simp] theorem State.releaseReset_lcgA (s : State) : (s.releaseReset).lcgA = s.lcgA := rfl
@[simp] theorem State.releaseReset_lcgC (s : State) : (s.releaseReset).lcgC = s.lcgC := rfl
@[simp] theorem State.releaseReset_lcgM (s : State) : (s.releaseReset).lcgM = s.lcgM := rfl
@[simp] theorem State.releaseReset_bbsSeed (s : State) : (s.releaseReset).bbsSeed = s.bbsSeed := rfl
@[simp] theorem State.releaseReset_bbsP (s : State) : (s.releaseReset).bbsP = s.bbsP := rfl
@[simp] theorem State.releaseReset_bbsQ (s : State) : (s.releaseReset).bbsQ = s.bbsQ := rfl
@[simp] theorem State.releaseReset_keyLen (s : State) : (s.releaseReset).keyLen = s.keyLen := rfl
@[simp] theorem State.releaseReset_genLen (s : State) : (s.releaseReset).genLen = s.genLen := rfl
@[simp] theorem State.releaseReset_inLen (s : State) : (s.releaseReset).inLen = s.inLen := rfl
@[simp] theorem State.releaseReset_lcgState (s : State) : (s.releaseReset).lcgState = s.lcgState := rfl
@[simp] theorem State.releaseReset_lcgOut (s : State) : (s.releaseReset).lcgOut = s.lcgOut := rfl
@[simp] theorem State.releaseReset_bbsX (s : State) : (s.releaseReset).bbsX = s.bbsX := rfl
@[simp] theorem State.releaseReset_bbsM (s : State) : (s.releaseReset).bbsM = s.bbsM := rfl
@[simp] theorem State.releaseReset_bbsRaw (s : State) : (s.releaseReset).bbsRaw = s.bbsRaw := rfl
@[simp] theorem State.releaseReset_bbsPar (s : State) : (s.releaseReset).bbsPar = s.bbsPar := rfl
@[simp] theorem State.releaseReset_bbsLsb (s : State) : (s.releaseReset).bbsLsb = s.bbsLsb := rfl
@[simp] theorem State.releaseReset_ksLen (s : State) : (s.releaseReset).ksLen = s.ksLen := rfl
@[simp] theorem State.releaseReset_outLen (s : State) : (s.releaseReset).outLen = s.outLen := rfl
@[simp] theorem State.releaseReset_cap (s : State) : (s.releaseReset).cap = s.cap := rfl
@[simp] theorem State.releaseReset_lcgAL (s : State) : (s.releaseReset).lcgAL = s.lcgAL := rfl
@[simp] theorem State.releaseReset_lcgCL (s : State) : (s.releaseReset).lcgCL = s.lcgCL := rfl
@[simp] theorem State.releaseReset_lcgML (s : State) : (s.releaseReset).lcgML = s.lcgML := rfl
@[simp] theorem State.releaseReset_inBuf (s : State) : (s.releaseReset).inBuf = s.inBuf := rfl
@[simp] theorem State.releaseReset_outBuf (s : State) : (s.releaseReset).outBuf = s.outBuf := rfl
@[simp] theorem State.releaseReset_ksBbs (s : State) : (s.releaseReset).ksBbs = s.ksBbs := rfl
@[simp] theorem State.releaseReset_ksLcg (s : State) : (s.releaseReset).ksLcg = s.ksLcg := rfl
@[simp] theorem State.releaseReset_base (s : State) : (s.releaseReset).base = s.base := rfl
@[simp] theorem State.releaseReset_inReset (s : State) : (s.releaseReset).inReset = false := rfl
@[simp] theorem State.releaseReset_schedule (s : State) : (s.releaseReset).schedule = s.schedule := rfl
@[simp] theorem State.releaseReset_program (s : State) : (s.releaseReset).program = s.program := rfl
@[simp] theorem State.releaseReset_reads (s : State) : (s.releaseReset).reads = s.reads := rfl
@[simp] theorem State.releaseReset_waitStatus (s : State) : (s.releaseReset).waitStatus = s.waitStatus := rfl
@[simp] theorem State.releaseReset_draws (s : State) : (s.releaseReset).draws = s.draws := rfl

/-! ### State.loadLcg -/

@[simp] theorem State.loadLcg_cmd (s : State) : s.loadLcg.cmd = s.cmd := rfl
@[simp] theorem State.loadLcg_pending (s : State) : s.loadLcg.pending = s.pending := rfl
@[simp] theorem State.loadLcg_lcgLoaded (s : State) : s.loadLcg.lcgLoaded = true := rfl
@[simp] theorem State.loadLcg_bbsLoaded (s : State) : s.loadLcg.bbsLoaded = s.bbsLoaded := rfl
@[simp] theorem State.loadLcg_constructed (s : State) : s.loadLcg.constructed = s.constructed := rfl
@[simp] theorem State.loadLcg_overrun (s : State) : s.loadLcg.overrun = s.overrun := rfl
@[simp] theorem State.loadLcg_err (s : State) : s.loadLcg.err = s.err := rfl
@[simp] theorem State.loadLcg_lcgSeed (s : State) : s.loadLcg.lcgSeed = s.lcgSeed := rfl
@[simp] theorem State.loadLcg_lcgA (s : State) : s.loadLcg.lcgA = s.lcgA := rfl
@[simp] theorem State.loadLcg_lcgC (s : State) : s.loadLcg.lcgC = s.lcgC := rfl
@[simp] theorem State.loadLcg_lcgM (s : State) : s.loadLcg.lcgM = s.lcgM := rfl
@[simp] theorem State.loadLcg_bbsSeed (s : State) : s.loadLcg.bbsSeed = s.bbsSeed := rfl
@[simp] theorem State.loadLcg_bbsP (s : State) : s.loadLcg.bbsP = s.bbsP := rfl
@[simp] theorem State.loadLcg_bbsQ (s : State) : s.loadLcg.bbsQ = s.bbsQ := rfl
@[simp] theorem State.loadLcg_keyLen (s : State) : s.loadLcg.keyLen = s.keyLen := rfl
@[simp] theorem State.loadLcg_genLen (s : State) : s.loadLcg.genLen = s.genLen := rfl
@[simp] theorem State.loadLcg_inLen (s : State) : s.loadLcg.inLen = s.inLen := rfl
@[simp] theorem State.loadLcg_lcgState (s : State) : s.loadLcg.lcgState = BitVec.ofNat 32 (s.lcgSeed.toNat % s.lcgM.toNat) := rfl
@[simp] theorem State.loadLcg_lcgOut (s : State) : s.loadLcg.lcgOut = s.lcgOut := rfl
@[simp] theorem State.loadLcg_bbsX (s : State) : s.loadLcg.bbsX = s.bbsX := rfl
@[simp] theorem State.loadLcg_bbsM (s : State) : s.loadLcg.bbsM = s.bbsM := rfl
@[simp] theorem State.loadLcg_bbsRaw (s : State) : s.loadLcg.bbsRaw = s.bbsRaw := rfl
@[simp] theorem State.loadLcg_bbsPar (s : State) : s.loadLcg.bbsPar = s.bbsPar := rfl
@[simp] theorem State.loadLcg_bbsLsb (s : State) : s.loadLcg.bbsLsb = s.bbsLsb := rfl
@[simp] theorem State.loadLcg_ksLen (s : State) : s.loadLcg.ksLen = s.ksLen := rfl
@[simp] theorem State.loadLcg_outLen (s : State) : s.loadLcg.outLen = s.outLen := rfl
@[simp] theorem State.loadLcg_cap (s : State) : s.loadLcg.cap = s.cap := rfl
@[simp] theorem State.loadLcg_lcgAL (s : State) : s.loadLcg.lcgAL = s.lcgA := rfl
@[simp] theorem State.loadLcg_lcgCL (s : State) : s.loadLcg.lcgCL = s.lcgC := rfl
@[simp] theorem State.loadLcg_lcgML (s : State) : s.loadLcg.lcgML = s.lcgM := rfl
@[simp] theorem State.loadLcg_inBuf (s : State) : s.loadLcg.inBuf = s.inBuf := rfl
@[simp] theorem State.loadLcg_outBuf (s : State) : s.loadLcg.outBuf = s.outBuf := rfl
@[simp] theorem State.loadLcg_ksBbs (s : State) : s.loadLcg.ksBbs = s.ksBbs := rfl
@[simp] theorem State.loadLcg_ksLcg (s : State) : s.loadLcg.ksLcg = s.ksLcg := rfl
@[simp] theorem State.loadLcg_base (s : State) : s.loadLcg.base = s.base := rfl
@[simp] theorem State.loadLcg_inReset (s : State) : s.loadLcg.inReset = s.inReset := rfl
@[simp] theorem State.loadLcg_schedule (s : State) : s.loadLcg.schedule = s.schedule := rfl
@[simp] theorem State.loadLcg_program (s : State) : s.loadLcg.program = s.program := rfl
@[simp] theorem State.loadLcg_reads (s : State) : s.loadLcg.reads = s.reads := rfl
@[simp] theorem State.loadLcg_waitStatus (s : State) : s.loadLcg.waitStatus = s.waitStatus := rfl
@[simp] theorem State.loadLcg_draws (s : State) : s.loadLcg.draws = s.draws := rfl

/-! ### State.lcgTick -/

@[simp] theorem State.lcgTick_cmd (s : State) : s.lcgTick.cmd = s.cmd := rfl
@[simp] theorem State.lcgTick_pending (s : State) : s.lcgTick.pending = s.pending := rfl
@[simp] theorem State.lcgTick_lcgLoaded (s : State) : s.lcgTick.lcgLoaded = s.lcgLoaded := rfl
@[simp] theorem State.lcgTick_bbsLoaded (s : State) : s.lcgTick.bbsLoaded = s.bbsLoaded := rfl
@[simp] theorem State.lcgTick_constructed (s : State) : s.lcgTick.constructed = s.constructed := rfl
@[simp] theorem State.lcgTick_overrun (s : State) : s.lcgTick.overrun = s.overrun := rfl
@[simp] theorem State.lcgTick_err (s : State) : s.lcgTick.err = s.err := rfl
@[simp] theorem State.lcgTick_lcgSeed (s : State) : s.lcgTick.lcgSeed = s.lcgSeed := rfl
@[simp] theorem State.lcgTick_lcgA (s : State) : s.lcgTick.lcgA = s.lcgA := rfl
@[simp] theorem State.lcgTick_lcgC (s : State) : s.lcgTick.lcgC = s.lcgC := rfl
@[simp] theorem State.lcgTick_lcgM (s : State) : s.lcgTick.lcgM = s.lcgM := rfl
@[simp] theorem State.lcgTick_bbsSeed (s : State) : s.lcgTick.bbsSeed = s.bbsSeed := rfl
@[simp] theorem State.lcgTick_bbsP (s : State) : s.lcgTick.bbsP = s.bbsP := rfl
@[simp] theorem State.lcgTick_bbsQ (s : State) : s.lcgTick.bbsQ = s.bbsQ := rfl
@[simp] theorem State.lcgTick_keyLen (s : State) : s.lcgTick.keyLen = s.keyLen := rfl
@[simp] theorem State.lcgTick_genLen (s : State) : s.lcgTick.genLen = s.genLen := rfl
@[simp] theorem State.lcgTick_inLen (s : State) : s.lcgTick.inLen = s.inLen := rfl
@[simp] theorem State.lcgTick_lcgState (s : State) : s.lcgTick.lcgState = (lcgStep s.lcgAL s.lcgCL s.lcgML s.lcgState).1 := rfl
@[simp] theorem State.lcgTick_lcgOut (s : State) : s.lcgTick.lcgOut = (lcgStep s.lcgAL s.lcgCL s.lcgML s.lcgState).2 := rfl
@[simp] theorem State.lcgTick_bbsX (s : State) : s.lcgTick.bbsX = s.bbsX := rfl
@[simp] theorem State.lcgTick_bbsM (s : State) : s.lcgTick.bbsM = s.bbsM := rfl
@[simp] theorem State.lcgTick_bbsRaw (s : State) : s.lcgTick.bbsRaw = s.bbsRaw := rfl
@[simp] theorem State.lcgTick_bbsPar (s : State) : s.lcgTick.bbsPar = s.bbsPar := rfl
@[simp] theorem State.lcgTick_bbsLsb (s : State) : s.lcgTick.bbsLsb = s.bbsLsb := rfl
@[simp] theorem State.lcgTick_ksLen (s : State) : s.lcgTick.ksLen = s.ksLen := rfl
@[simp] theorem State.lcgTick_outLen (s : State) : s.lcgTick.outLen = s.outLen := rfl
@[simp] theorem State.lcgTick_cap (s : State) : s.lcgTick.cap = s.cap := rfl
@[simp] theorem State.lcgTick_lcgAL (s : State) : s.lcgTick.lcgAL = s.lcgAL := rfl
@[simp] theorem State.lcgTick_lcgCL (s : State) : s.lcgTick.lcgCL = s.lcgCL := rfl
@[simp] theorem State.lcgTick_lcgML (s : State) : s.lcgTick.lcgML = s.lcgML := rfl
@[simp] theorem State.lcgTick_inBuf (s : State) : s.lcgTick.inBuf = s.inBuf := rfl
@[simp] theorem State.lcgTick_outBuf (s : State) : s.lcgTick.outBuf = s.outBuf := rfl
@[simp] theorem State.lcgTick_ksBbs (s : State) : s.lcgTick.ksBbs = s.ksBbs := rfl
@[simp] theorem State.lcgTick_ksLcg (s : State) : s.lcgTick.ksLcg = s.ksLcg := rfl
@[simp] theorem State.lcgTick_base (s : State) : s.lcgTick.base = s.base := rfl
@[simp] theorem State.lcgTick_inReset (s : State) : s.lcgTick.inReset = s.inReset := rfl
@[simp] theorem State.lcgTick_schedule (s : State) : s.lcgTick.schedule = s.schedule := rfl
@[simp] theorem State.lcgTick_program (s : State) : s.lcgTick.program = s.program := rfl
@[simp] theorem State.lcgTick_reads (s : State) : s.lcgTick.reads = s.reads := rfl
@[simp] theorem State.lcgTick_waitStatus (s : State) : s.lcgTick.waitStatus = s.waitStatus := rfl
@[simp] theorem State.lcgTick_draws (s : State) : s.lcgTick.draws = s.draws := rfl

/-! ### State.loadBbs -/

@[simp] theorem State.loadBbs_cmd (s : State) : s.loadBbs.cmd = s.cmd := rfl
@[simp] theorem State.loadBbs_pending (s : State) : s.loadBbs.pending = s.pending := rfl
@[simp] theorem State.loadBbs_lcgLoaded (s : State) : s.loadBbs.lcgLoaded = s.lcgLoaded := rfl
@[simp] theorem State.loadBbs_bbsLoaded (s : State) : s.loadBbs.bbsLoaded = true := rfl
@[simp] theorem State.loadBbs_constructed (s : State) : s.loadBbs.constructed = s.constructed := rfl
@[simp] theorem State.loadBbs_overrun (s : State) : s.loadBbs.overrun = s.overrun := rfl
@[simp] theorem State.loadBbs_err (s : State) : s.loadBbs.err = s.err := rfl
@[simp] theorem State.loadBbs_lcgSeed (s : State) : s.loadBbs.lcgSeed = s.lcgSeed := rfl
@[simp] theorem State.loadBbs_lcgA (s : State) : s.loadBbs.lcgA = s.lcgA := rfl
@[simp] theorem State.loadBbs_lcgC (s : State) : s.loadBbs.lcgC = s.lcgC := rfl
@[simp] theorem State.loadBbs_lcgM (s : State) : s.loadBbs.lcgM = s.lcgM := rfl
@[simp] theorem State.loadBbs_bbsSeed (s : State) : s.loadBbs.bbsSeed = s.bbsSeed := rfl
@[simp] theorem State.loadBbs_bbsP (s : State) : s.loadBbs.bbsP = s.bbsP := rfl
@[simp] theorem State.loadBbs_bbsQ (s : State) : s.loadBbs.bbsQ = s.bbsQ := rfl
@[simp] theorem State.loadBbs_keyLen (s : State) : s.loadBbs.keyLen = s.keyLen := rfl
@[simp] theorem State.loadBbs_genLen (s : State) : s.loadBbs.genLen = s.genLen := rfl
@[simp] theorem State.loadBbs_inLen (s : State) : s.loadBbs.inLen = s.inLen := rfl
@[simp] theorem State.loadBbs_lcgState (s : State) : s.loadBbs.lcgState = s.lcgState := rfl
@[simp] theorem State.loadBbs_lcgOut (s : State) : s.loadBbs.lcgOut = s.lcgOut := rfl
@[simp] theorem State.loadBbs_bbsX (s : State) : s.loadBbs.bbsX = BitVec.ofNat 64 (s.bbsSeed.toNat % (s.bbsP.toNat * s.bbsQ.toNat)) := rfl
@[simp] theorem State.loadBbs_bbsM (s : State) : s.loadBbs.bbsM = BitVec.ofNat 64 (s.bbsP.toNat * s.bbsQ.toNat) := rfl
@[simp] theorem State.loadBbs_bbsRaw (s : State) : s.loadBbs.bbsRaw = s.bbsRaw := rfl
@[simp] theorem State.loadBbs_bbsPar (s : State) : s.loadBbs.bbsPar = s.bbsPar := rfl
@[simp] theorem State.loadBbs_bbsLsb (s : State) : s.loadBbs.bbsLsb = s.bbsLsb := rfl
@[simp] theorem State.loadBbs_ksLen (s : State) : s.loadBbs.ksLen = s.ksLen := rfl
@[simp] theorem State.loadBbs_outLen (s : State) : s.loadBbs.outLen = s.outLen := rfl
@[simp] theorem State.loadBbs_cap (s : State) : s.loadBbs.cap = s.cap := rfl
@[simp] theorem State.loadBbs_lcgAL (s : State) : s.loadBbs.lcgAL = s.lcgAL := rfl
@[simp] theorem State.loadBbs_lcgCL (s : State) : s.loadBbs.lcgCL = s.lcgCL := rfl
@[simp] theorem State.loadBbs_lcgML (s : State) : s.loadBbs.lcgML = s.lcgML := rfl
@[simp] theorem State.loadBbs_inBuf (s : State) : s.loadBbs.inBuf = s.inBuf := rfl
@[simp] theorem State.loadBbs_outBuf (s : State) : s.loadBbs.outBuf = s.outBuf := rfl
@[simp] theorem State.loadBbs_ksBbs (s : State) : s.loadBbs.ksBbs = s.ksBbs := rfl
@[simp] theorem State.loadBbs_ksLcg (s : State) : s.loadBbs.ksLcg = s.ksLcg := rfl
@[simp] theorem State.loadBbs_base (s : State) : s.loadBbs.base = s.base := rfl
@[simp] theorem State.loadBbs_inReset (s : State) : s.loadBbs.inReset = s.inReset := rfl
@[simp] theorem State.loadBbs_schedule (s : State) : s.loadBbs.schedule = s.schedule := rfl
@[simp] theorem State.loadBbs_program (s : State) : s.loadBbs.program = s.program := rfl
@[simp] theorem State.loadBbs_reads (s : State) : s.loadBbs.reads = s.reads := rfl
@[simp] theorem State.loadBbs_waitStatus (s : State) : s.loadBbs.waitStatus = s.waitStatus := rfl
@[simp] theorem State.loadBbs_draws (s : State) : s.loadBbs.draws = s.draws := rfl

/-! ### State.bbsTick -/

@[simp] theorem State.bbsTick_cmd (s : State) : s.bbsTick.cmd = s.cmd := rfl
@[simp] theorem State.bbsTick_pending (s : State) : s.bbsTick.pending = s.pending := rfl
@[simp] theorem State.bbsTick_lcgLoaded (s : State) : s.bbsTick.lcgLoaded = s.lcgLoaded := rfl
@[simp] theorem State.bbsTick_bbsLoaded (s : State) : s.bbsTick.bbsLoaded = s.bbsLoaded := rfl
@[simp] theorem State.bbsTick_constructed (s : State) : s.bbsTick.constructed = s.constructed := rfl
@[simp] theorem State.bbsTick_overrun (s : State) : s.bbsTick.overrun = s.overrun := rfl
@[simp] theorem State.bbsTick_err (s : State) : s.bbsTick.err = s.err := rfl
@[simp] theorem State.bbsTick_lcgSeed (s : State) : s.bbsTick.lcgSeed = s.lcgSeed := rfl
@[simp] theorem State.bbsTick_lcgA (s : State) : s.bbsTick.lcgA = s.lcgA := rfl
@[simp] theorem State.bbsTick_lcgC (s : State) : s.bbsTick.lcgC = s.lcgC := rfl
@[simp] theorem State.bbsTick_lcgM (s : State) : s.bbsTick.lcgM = s.lcgM := rfl
@[simp] theorem State.bbsTick_bbsSeed (s : State) : s.bbsTick.bbsSeed = s.bbsSeed := rfl
@[simp] theorem State.bbsTick_bbsP (s : State) : s.bbsTick.bbsP = s.bbsP := rfl
@[simp] theorem State.bbsTick_bbsQ (s : State) : s.bbsTick.bbsQ = s.bbsQ := rfl
@[simp] theorem State.bbsTick_keyLen (s : State) : s.bbsTick.keyLen = s.keyLen := rfl
@[simp] theorem State.bbsTick_genLen (s : State) : s.bbsTick.genLen = s.genLen := rfl
@[simp] theorem State.bbsTick_inLen (s : State) : s.bbsTick.inLen = s.inLen := rfl
@[simp] theorem State.bbsTick_lcgState (s : State) : s.bbsTick.lcgState = s.lcgState := rfl
@[simp] theorem State.bbsTick_lcgOut (s : State) : s.bbsTick.lcgOut = s.lcgOut := rfl
@[simp] theorem State.bbsTick_bbsX (s : State) : s.bbsTick.bbsX = (bbsStep s.bbsM s.bbsX).raw := rfl
@[simp] theorem State.bbsTick_bbsM (s : State) : s.bbsTick.bbsM = s.bbsM := rfl
@[simp] theorem State.bbsTick_bbsRaw (s : State) : s.bbsTick.bbsRaw = (bbsStep s.bbsM s.bbsX).raw := rfl
@[simp] theorem State.bbsTick_bbsPar (s : State) : s.bbsTick.bbsPar = (bbsStep s.bbsM s.bbsX).par := rfl
@[simp] theorem State.bbsTick_bbsLsb (s : State) : s.bbsTick.bbsLsb = (bbsStep s.bbsM s.bbsX).lsb := rfl
@[simp] theorem State.bbsTick_ksLen (s : State) : s.bbsTick.ksLen = s.ksLen := rfl
@[simp] theorem State.bbsTick_outLen (s : State) : s.bbsTick.outLen = s.outLen := rfl
@[simp] theorem State.bbsTick_cap (s : State) : s.bbsTick.cap = s.cap := rfl
@[simp] theorem State.bbsTick_lcgAL (s : State) : s.bbsTick.lcgAL = s.lcgAL := rfl
@[simp] theorem State.bbsTick_lcgCL (s : State) : s.bbsTick.lcgCL = s.lcgCL := rfl
@[simp] theorem State.bbsTick_lcgML (s : State) : s.bbsTick.lcgML = s.lcgML := rfl
@[simp] theorem State.bbsTick_inBuf (s : State) : s.bbsTick.inBuf = s.inBuf := rfl
@[simp] theorem State.bbsTick_outBuf (s : State) : s.bbsTick.outBuf = s.outBuf := rfl
@[simp] theorem State.bbsTick_ksBbs (s : State) : s.bbsTick.ksBbs = s.ksBbs := rfl
@[simp] theorem State.bbsTick_ksLcg (s : State) : s.bbsTick.ksLcg = s.ksLcg := rfl
@[simp] theorem State.bbsTick_base (s : State) : s.bbsTick.base = s.base := rfl
@[simp] theorem State.bbsTick_inReset (s : State) : s.bbsTick.inReset = s.inReset := rfl
@[simp] theorem State.bbsTick_schedule (s : State) : s.bbsTick.schedule = s.schedule := rfl
@[simp] theorem State.bbsTick_program (s : State) : s.bbsTick.program = s.program := rfl
@[simp] theorem State.bbsTick_reads (s : State) : s.bbsTick.reads = s.reads := rfl
@[simp] theorem State.bbsTick_waitStatus (s : State) : s.bbsTick.waitStatus = s.waitStatus := rfl
@[simp] theorem State.bbsTick_draws (s : State) : s.bbsTick.draws = s.draws := rfl

/-! ### State.assertReset -/

@[simp] theorem State.assertReset_cmd (s : State) : s.assertReset.cmd = State.reset.cmd := rfl
@[simp] theorem State.assertReset_pending (s : State) : s.assertReset.pending = State.reset.pending := rfl
@[simp] theorem State.assertReset_lcgLoaded (s : State) : s.assertReset.lcgLoaded = State.reset.lcgLoaded := rfl
@[simp] theorem State.assertReset_bbsLoaded (s : State) : s.assertReset.bbsLoaded = State.reset.bbsLoaded := rfl
@[simp] theorem State.assertReset_constructed (s : State) : s.assertReset.constructed = State.reset.constructed := rfl
@[simp] theorem State.assertReset_overrun (s : State) : s.assertReset.overrun = State.reset.overrun := rfl
@[simp] theorem State.assertReset_err (s : State) : s.assertReset.err = State.reset.err := rfl
@[simp] theorem State.assertReset_lcgSeed (s : State) : s.assertReset.lcgSeed = State.reset.lcgSeed := rfl
@[simp] theorem State.assertReset_lcgA (s : State) : s.assertReset.lcgA = State.reset.lcgA := rfl
@[simp] theorem State.assertReset_lcgC (s : State) : s.assertReset.lcgC = State.reset.lcgC := rfl
@[simp] theorem State.assertReset_lcgM (s : State) : s.assertReset.lcgM = State.reset.lcgM := rfl
@[simp] theorem State.assertReset_bbsSeed (s : State) : s.assertReset.bbsSeed = State.reset.bbsSeed := rfl
@[simp] theorem State.assertReset_bbsP (s : State) : s.assertReset.bbsP = State.reset.bbsP := rfl
@[simp] theorem State.assertReset_bbsQ (s : State) : s.assertReset.bbsQ = State.reset.bbsQ := rfl
@[simp] theorem State.assertReset_keyLen (s : State) : s.assertReset.keyLen = State.reset.keyLen := rfl
@[simp] theorem State.assertReset_genLen (s : State) : s.assertReset.genLen = State.reset.genLen := rfl
@[simp] theorem State.assertReset_inLen (s : State) : s.assertReset.inLen = State.reset.inLen := rfl
@[simp] theorem State.assertReset_lcgState (s : State) : s.assertReset.lcgState = State.reset.lcgState := rfl
@[simp] theorem State.assertReset_lcgOut (s : State) : s.assertReset.lcgOut = State.reset.lcgOut := rfl
@[simp] theorem State.assertReset_bbsX (s : State) : s.assertReset.bbsX = State.reset.bbsX := rfl
@[simp] theorem State.assertReset_bbsM (s : State) : s.assertReset.bbsM = State.reset.bbsM := rfl
@[simp] theorem State.assertReset_bbsRaw (s : State) : s.assertReset.bbsRaw = State.reset.bbsRaw := rfl
@[simp] theorem State.assertReset_bbsPar (s : State) : s.assertReset.bbsPar = State.reset.bbsPar := rfl
@[simp] theorem State.assertReset_bbsLsb (s : State) : s.assertReset.bbsLsb = State.reset.bbsLsb := rfl
@[simp] theorem State.assertReset_ksLen (s : State) : s.assertReset.ksLen = State.reset.ksLen := rfl
@[simp] theorem State.assertReset_outLen (s : State) : s.assertReset.outLen = State.reset.outLen := rfl
@[simp] theorem State.assertReset_cap (s : State) : s.assertReset.cap = s.cap := rfl
@[simp] theorem State.assertReset_lcgAL (s : State) : s.assertReset.lcgAL = State.reset.lcgAL := rfl
@[simp] theorem State.assertReset_lcgCL (s : State) : s.assertReset.lcgCL = State.reset.lcgCL := rfl
@[simp] theorem State.assertReset_lcgML (s : State) : s.assertReset.lcgML = State.reset.lcgML := rfl
@[simp] theorem State.assertReset_inBuf (s : State) : s.assertReset.inBuf = State.reset.inBuf := rfl
@[simp] theorem State.assertReset_outBuf (s : State) : s.assertReset.outBuf = State.reset.outBuf := rfl
@[simp] theorem State.assertReset_ksBbs (s : State) : s.assertReset.ksBbs = State.reset.ksBbs := rfl
@[simp] theorem State.assertReset_ksLcg (s : State) : s.assertReset.ksLcg = State.reset.ksLcg := rfl
@[simp] theorem State.assertReset_base (s : State) : s.assertReset.base = s.base := rfl
@[simp] theorem State.assertReset_inReset (s : State) : s.assertReset.inReset = true := rfl
@[simp] theorem State.assertReset_schedule (s : State) : s.assertReset.schedule = s.schedule := rfl
@[simp] theorem State.assertReset_program (s : State) : s.assertReset.program = s.program := rfl
@[simp] theorem State.assertReset_reads (s : State) : s.assertReset.reads = s.reads := rfl
@[simp] theorem State.assertReset_waitStatus (s : State) : s.assertReset.waitStatus = s.waitStatus := rfl
@[simp] theorem State.assertReset_draws (s : State) : s.assertReset.draws = s.draws := rfl

/-! ### State.reset -/

@[simp] theorem State.reset_cmd : State.reset.cmd = 0 := rfl
@[simp] theorem State.reset_pending : State.reset.pending = none := rfl
@[simp] theorem State.reset_lcgLoaded : State.reset.lcgLoaded = false := rfl
@[simp] theorem State.reset_bbsLoaded : State.reset.bbsLoaded = false := rfl
@[simp] theorem State.reset_constructed : State.reset.constructed = false := rfl
@[simp] theorem State.reset_overrun : State.reset.overrun = false := rfl
@[simp] theorem State.reset_err : State.reset.err = ErrCode.ok := rfl
@[simp] theorem State.reset_lcgSeed : State.reset.lcgSeed = 0 := rfl
@[simp] theorem State.reset_lcgA : State.reset.lcgA = 0 := rfl
@[simp] theorem State.reset_lcgC : State.reset.lcgC = 0 := rfl
@[simp] theorem State.reset_lcgM : State.reset.lcgM = 0 := rfl
@[simp] theorem State.reset_bbsSeed : State.reset.bbsSeed = 0 := rfl
@[simp] theorem State.reset_bbsP : State.reset.bbsP = 0 := rfl
@[simp] theorem State.reset_bbsQ : State.reset.bbsQ = 0 := rfl
@[simp] theorem State.reset_keyLen : State.reset.keyLen = 0 := rfl
@[simp] theorem State.reset_genLen : State.reset.genLen = 0 := rfl
@[simp] theorem State.reset_inLen : State.reset.inLen = 0 := rfl
@[simp] theorem State.reset_lcgState : State.reset.lcgState = 0 := rfl
@[simp] theorem State.reset_lcgOut : State.reset.lcgOut = 0 := rfl
@[simp] theorem State.reset_bbsX : State.reset.bbsX = 0 := rfl
@[simp] theorem State.reset_bbsM : State.reset.bbsM = 0 := rfl
@[simp] theorem State.reset_bbsRaw : State.reset.bbsRaw = 0 := rfl
@[simp] theorem State.reset_bbsPar : State.reset.bbsPar = 0 := rfl
@[simp] theorem State.reset_bbsLsb : State.reset.bbsLsb = 0 := rfl
@[simp] theorem State.reset_ksLen : State.reset.ksLen = 0 := rfl
@[simp] theorem State.reset_outLen : State.reset.outLen = 0 := rfl
@[simp] theorem State.reset_cap : State.reset.cap = BitVec.ofNat 32 Config.LMAX := rfl
@[simp] theorem State.reset_lcgAL : State.reset.lcgAL = 0 := rfl
@[simp] theorem State.reset_lcgCL : State.reset.lcgCL = 0 := rfl
@[simp] theorem State.reset_lcgML : State.reset.lcgML = 0 := rfl
@[simp] theorem State.reset_inBuf : State.reset.inBuf = [] := rfl
@[simp] theorem State.reset_outBuf : State.reset.outBuf = [] := rfl
@[simp] theorem State.reset_ksBbs : State.reset.ksBbs = [] := rfl
@[simp] theorem State.reset_ksLcg : State.reset.ksLcg = [] := rfl
@[simp] theorem State.reset_base : State.reset.base = Config.BASE := rfl
@[simp] theorem State.reset_inReset : State.reset.inReset = false := rfl
@[simp] theorem State.reset_schedule : State.reset.schedule = [] := rfl
@[simp] theorem State.reset_program : State.reset.program = [] := rfl
@[simp] theorem State.reset_reads : State.reset.reads = [] := rfl
@[simp] theorem State.reset_waitStatus : State.reset.waitStatus = none := rfl
@[simp] theorem State.reset_draws : State.reset.draws = 0 := rfl

end Sys2Proof.Machine
end

