-- ==== Sys2Proof/Laws/Ops.lean ====
section
/-! SUPPORT. What the shared operations can do: the two bus primitives, reset, and one host action, each said once. -/

namespace Sys2Proof.Machine

/-! ## sameBlock -/

@[simp] theorem State.sameBlock_refl (s : State) : State.sameBlock s s := rfl

theorem State.sameBlock_trans {s t u : State} (h : State.sameBlock s t) (h' : State.sameBlock t u) :
    State.sameBlock s u := by
  unfold State.sameBlock at h h' ⊢
  rw [h', h]

theorem State.sameBlock_program (s : State) (p : List HostInstr) : State.sameBlock s { s with program := p } := rfl

theorem State.sameBlock_schedule (s : State) (l : List Turn) : State.sameBlock s { s with schedule := l } := rfl

/-! ## Reading -/

/-- Everything a host read can do: it needs an address of the block and reset released; it delivers the word the block answers, or a
free one; and it writes the host's log and the draw counter only (R60, R66). -/
theorem memRead_cases {addr size : Nat} {s t : State} {v : Word} (h : memRead addr size s = .next (v, t)) :
    s.owns addr = true ∧ s.inReset = false ∧
      ((s.answer (addr - s.base) size = .word v ∧ t = s.deliver addr v) ∨
        (s.answer (addr - s.base) size = .anyWord ∧ v = Config.freeWord s.draws ∧
          t = { s.deliver addr v with draws := s.draws + 1 })) := by
  unfold memRead at h
  split at h
  · rename_i ho
    split at h
    · exact nomatch h
    · rename_i hr
      refine ⟨ho, by simpa using hr, ?_⟩
      split at h
      · exact nomatch h
      · simp only [Host.Outcome.next.injEq, Prod.mk.injEq] at h
        obtain ⟨rfl, rfl⟩ := h
        exact .inr ⟨‹_›, rfl, rfl⟩
      · simp only [Host.Outcome.next.injEq, Prod.mk.injEq] at h
        obtain ⟨rfl, rfl⟩ := h
        exact .inl ⟨‹_›, rfl⟩
  · exact nomatch h

/-- A read keeps the block, the program, the schedule and the last `wait` value. -/
theorem memRead_frame {addr size : Nat} {s t : State} {v : Word} (h : memRead addr size s = .next (v, t)) :
    t = { s with reads := (addr, v) :: s.reads, draws := t.draws } := by
  obtain ⟨_, _, ⟨_, rfl⟩ | ⟨_, _, rfl⟩⟩ := memRead_cases h <;> rfl

theorem memRead_sameBlock {addr size : Nat} {s t : State} {v : Word} (h : memRead addr size s = .next (v, t)) :
    State.sameBlock s t := by
  rw [memRead_frame h]; rfl

/-! ## Writing -/

/-- Everything a host write can do: it needs an address of the block and reset released, and writes the place it decodes to (R61). -/
theorem memWrite_cases {addr size : Nat} {v : Word} {s t : State} (h : memWrite addr size v s = .next t) :
    s.owns addr = true ∧ s.inReset = false ∧
      ∃ p, decodeAccess s.lmax (addr - s.base) size = some p ∧ t = s.writePlace p v := by
  unfold memWrite at h
  split at h
  · rename_i ho
    split at h
    · exact nomatch h
    · rename_i hr
      split at h
      · exact nomatch h
      · exact ⟨ho, by simpa using hr, _, ‹_›, by simpa [eq_comm] using h⟩
  · exact nomatch h

/-- The three ways a write to a place goes (R61, R65). -/
theorem writePlace_cases (s : State) (p : Place) (v : Word) :
    (p = .reg .status ∧ s.writePlace p v = s.writeStatus v) ∨
      (p ≠ .reg .status ∧ s.busy = true ∧ s.writePlace p v = { s with overrun := true }) ∨
      (p ≠ .reg .status ∧ s.busy = false ∧ s.writePlace p v = s.writeIdle p v) := by
  unfold State.writePlace
  split
  · exact .inl ⟨‹_›, rfl⟩
  · split
    · exact .inr (.inl ⟨‹_›, ‹_›, rfl⟩)
    · exact .inr (.inr ⟨‹_›, by simpa using ‹¬ s.busy = true›, rfl⟩)

/-- A write to STATUS changes OVERRUN only (R23). -/
theorem writeStatus_eq (s : State) (v : Word) :
    s.writeStatus v = { s with overrun := s.overrun && !v.getLsbD 4 } := by
  unfold State.writeStatus
  split <;> simp_all

/-- A write while idle changes CMD and what acceptance sets, the parameter registers and IN only (R61). -/
theorem writeIdle_frame (s : State) (p : Place) (v : Word) :
    s.writeIdle p v =
      { s with
        cmd := (s.writeIdle p v).cmd, pending := (s.writeIdle p v).pending, err := (s.writeIdle p v).err
        lcgSeed := (s.writeIdle p v).lcgSeed, lcgA := (s.writeIdle p v).lcgA, lcgC := (s.writeIdle p v).lcgC
        lcgM := (s.writeIdle p v).lcgM, bbsSeed := (s.writeIdle p v).bbsSeed, bbsP := (s.writeIdle p v).bbsP
        bbsQ := (s.writeIdle p v).bbsQ, keyLen := (s.writeIdle p v).keyLen, genLen := (s.writeIdle p v).genLen
        inLen := (s.writeIdle p v).inLen, inBuf := (s.writeIdle p v).inBuf } := by
  cases p with
  | reg r => cases r <;> rfl
  | inEntry i => rfl
  | outLo i => rfl
  | outHi i => rfl
  | ksBbs i => rfl
  | ksLcg i => rfl

/-- A write leaves the host's program alone. -/
theorem writePlace_program (s : State) (p : Place) (v : Word) : (s.writePlace p v).program = s.program := by
  obtain ⟨_, e⟩ | ⟨_, _, e⟩ | ⟨_, _, e⟩ := writePlace_cases s p v
  · rw [e, writeStatus_eq]
  · rw [e]
  · rw [e, writeIdle_frame]

/-- A write while idle leaves PENDING and ERR alone, unless it is an acceptance (R22). -/
theorem writeIdle_pending (s : State) (p : Place) (v : Word) :
    (p = .reg .cmd ∧ s.writeIdle p v = s.accept v) ∨
      (p ≠ .reg .cmd ∧ (s.writeIdle p v).pending = s.pending ∧ (s.writeIdle p v).err = s.err) := by
  cases p with
  | reg r => cases r <;> first | exact .inl ⟨rfl, rfl⟩ | exact .inr ⟨by decide, rfl, rfl⟩
  | inEntry i => exact .inr ⟨by simp, rfl, rfl⟩
  | outLo i => exact .inr ⟨by simp, rfl, rfl⟩
  | outHi i => exact .inr ⟨by simp, rfl, rfl⟩
  | ksBbs i => exact .inr ⟨by simp, rfl, rfl⟩
  | ksLcg i => exact .inr ⟨by simp, rfl, rfl⟩

/-- A place an offset decodes to lies in the buffers (R73). -/
theorem decodeAccess_wellFormed {lmax off size : Nat} {p : Place} (h : decodeAccess lmax off size = some p) :
    p.wellFormed lmax = true := by
  have entry : ∀ {mk : Nat → Place} {i : Nat}, (∀ i, (mk i).wellFormed lmax = decide (i < lmax)) →
      entryAt lmax mk i = some p → p.wellFormed lmax = true := by
    intro mk i hmk h
    unfold entryAt at h
    split at h
    · rename_i hi
      simp only [Option.some.injEq] at h
      rw [← h, hmk]; simpa using hi
    · exact nomatch h
  unfold decodeAccess placeAt at h
  split at h
  · split at h
    · exact nomatch h
    · split at h
      · obtain ⟨r, _, rfl⟩ := Option.map_eq_some_iff.1 h
        rfl
      · split at h
        · exact entry (fun _ => rfl) h
        · split at h
          · refine entry (fun i => ?_) h
            split <;> rfl
          · split at h
            · exact entry (fun _ => rfl) h
            · split at h
              · exact entry (fun _ => rfl) h
              · exact nomatch h
  · exact nomatch h

/-- A write at a place of the block keeps the canonical form of the buffers. -/
theorem writePlace_mem {s : State} {p : Place} {v : Word} (hp : p.wellFormed s.lmax = true)
    (h : Memory.wf s = true) : Memory.wf (s.writePlace p v) = true := by
  obtain ⟨_, e⟩ | ⟨_, _, e⟩ | ⟨_, _, e⟩ := writePlace_cases s p v
  · rw [e, writeStatus_eq]; exact h
  · rw [e]; exact h
  · rw [e]
    cases p with
    | reg r => cases r <;> exact h
    | inEntry i =>
      change Memory.wf { s with inBuf := Buffer.write s.inBuf i v } = true
      have hi : i < s.lmax := by simpa [Place.wellFormed] using hp
      simp only [Memory.wf, Bool.and_eq_true] at h ⊢
      exact ⟨⟨⟨Buffer.wf_write v _ hi h.1.1.1, h.1.1.2⟩, h.1.2⟩, h.2⟩
    | outLo i => exact h
    | outHi i => exact h
    | ksBbs i => exact h
    | ksLcg i => exact h

/-! ## The host -/

theorem afterRead_cases {o : Host.Outcome (Word × State) Fault Refusal}
    {k : Word → State → Host.Outcome State Fault Refusal} {t : State} (h : afterRead o k = .next t) :
    ∃ v u, o = .next (v, u) ∧ k v u = .next t := by
  cases o with
  | next r => exact ⟨r.1, r.2, rfl, h⟩
  | fault f => exact nomatch h
  | refused r => exact nomatch h

theorem expect_cases {ok : Bool} {s t : State} (h : expect ok s = .next t) : ok = true ∧ t = s := by
  unfold expect at h
  split at h
  · exact ⟨‹_›, by simpa [eq_comm] using h⟩
  · exact nomatch h

/-- Everything a host action can do: it leaves the block as it is, or it is one write to a place of the block, after the host's own
fields may have changed. -/
theorem hostAction_cases {a : HostInstr} {s t : State} (h : hostAction a s = .next t) :
    State.sameBlock s t ∧ t.schedule = s.schedule ∨
      ∃ s' addr size v p, s' = { s with program := s'.program } ∧ memWrite addr size v s' = .next t ∧
        decodeAccess s'.lmax (addr - s'.base) size = some p ∧ s'.inReset = false ∧ t = s'.writePlace p v := by
  have write : ∀ {s' : State} {addr size v}, s' = { s with program := s'.program } →
      memWrite addr size v s' = .next t →
      ∃ s' addr size v p, s' = { s with program := s'.program } ∧ memWrite addr size v s' = .next t ∧
        decodeAccess s'.lmax (addr - s'.base) size = some p ∧ s'.inReset = false ∧ t = s'.writePlace p v := by
    intro s' addr size v e h
    obtain ⟨_, hr, p, hp, ht⟩ := memWrite_cases h
    exact ⟨s', addr, size, v, p, e, h, hp, hr, ht⟩
  cases a with
  | memRead addr size =>
    unfold hostAction at h
    obtain ⟨v, u, h1, h2⟩ := afterRead_cases h
    simp only [Host.Outcome.next.injEq] at h2
    subst h2
    exact .inl ⟨memRead_sameBlock h1, by rw [memRead_frame h1]⟩
  | memWrite addr size v => exact .inr (write rfl h)
  | wr p v => exact .inr (write rfl h)
  | rd p e =>
    cases e with
    | none =>
      unfold hostAction at h
      obtain ⟨v, u, h1, h2⟩ := afterRead_cases h
      simp only [Host.Outcome.next.injEq] at h2
      subst h2
      exact .inl ⟨memRead_sameBlock h1, by rw [memRead_frame h1]⟩
    | some e =>
      unfold hostAction at h
      obtain ⟨v, u, h1, h2⟩ := afterRead_cases h
      obtain ⟨_, rfl⟩ := expect_cases h2
      exact .inl ⟨memRead_sameBlock h1, by rw [memRead_frame h1]⟩
  | issue i => exact .inr (write rfl h)
  | cmd i => exact .inr (write (s' := { s with program := .wait :: s.program }) rfl h)
  | wait =>
    unfold hostAction pollStatus at h
    obtain ⟨v, u, h1, h2⟩ := afterRead_cases h
    refine .inl ?_
    have hu := memRead_frame h1
    split at h2 <;> simp only [Host.Outcome.next.injEq] at h2 <;> subst h2 <;> rw [hu] <;> exact ⟨rfl, rfl⟩
  | expectErr c =>
    obtain ⟨_, rfl⟩ := expect_cases h
    exact .inl ⟨rfl, rfl⟩

/-- A read or an assertion leaves the block and the rest of the program as they are (R66, R94). -/
theorem hostAction_observes {a : HostInstr} {s t : State} (ho : observes a = true) (h : hostAction a s = .next t) :
    State.sameBlock s t ∧ t.program = s.program := by
  have read : ∀ {addr size : Nat} {v : Word}, memRead addr size s = .next (v, t) →
      State.sameBlock s t ∧ t.program = s.program :=
    fun h => ⟨memRead_sameBlock h, by rw [memRead_frame h]⟩
  cases a with
  | memRead addr size =>
    unfold hostAction at h
    obtain ⟨v, u, h1, h2⟩ := afterRead_cases h
    cases h2
    exact read h1
  | rd p e =>
    cases e with
    | none =>
      unfold hostAction at h
      obtain ⟨v, u, h1, h2⟩ := afterRead_cases h
      cases h2
      exact read h1
    | some e =>
      unfold hostAction at h
      obtain ⟨v, u, h1, h2⟩ := afterRead_cases h
      obtain ⟨_, rfl⟩ := expect_cases h2
      exact read h1
  | expectErr c =>
    obtain ⟨_, rfl⟩ := expect_cases h
    exact ⟨rfl, rfl⟩
  | memWrite addr size v => exact nomatch ho
  | wr p v => exact nomatch ho
  | issue i => exact nomatch ho
  | cmd i => exact nomatch ho
  | wait => exact nomatch ho

/-- What a host action leaves of the program: `cmd` puts its `wait` in front (R92), `wait` stays until it returns (R93), and every
other action leaves the rest. -/
theorem hostAction_program {a : HostInstr} {s t : State} (h : hostAction a s = .next t) :
    t.program = s.program ∧ (∀ i, a ≠ .cmd i) ∨ t.program = .wait :: s.program ∧ (a = .wait ∨ ∃ i, a = .cmd i) := by
  have write : ∀ {s' : State} {addr size v}, memWrite addr size v s' = .next t → t.program = s'.program := by
    intro s' addr size v h
    obtain ⟨_, _, p, _, rfl⟩ := memWrite_cases h
    exact writePlace_program s' p v
  cases a with
  | memRead addr size =>
    unfold hostAction at h
    obtain ⟨v, u, h1, h2⟩ := afterRead_cases h
    cases h2
    exact .inl ⟨by rw [memRead_frame h1], nofun⟩
  | memWrite addr size v => exact .inl ⟨write h, nofun⟩
  | wr p v => exact .inl ⟨write h, nofun⟩
  | rd p e =>
    cases e with
    | none =>
      unfold hostAction at h
      obtain ⟨v, u, h1, h2⟩ := afterRead_cases h
      cases h2
      exact .inl ⟨by rw [memRead_frame h1], nofun⟩
    | some e =>
      unfold hostAction at h
      obtain ⟨v, u, h1, h2⟩ := afterRead_cases h
      obtain ⟨_, rfl⟩ := expect_cases h2
      exact .inl ⟨by rw [memRead_frame h1], nofun⟩
  | issue i => exact .inl ⟨write h, nofun⟩
  | cmd i => exact .inr ⟨write h, .inr ⟨i, rfl⟩⟩
  | wait =>
    unfold hostAction pollStatus at h
    obtain ⟨v, u, h1, h2⟩ := afterRead_cases h
    have hu : u.program = s.program := by rw [memRead_frame h1]
    split at h2 <;> cases h2
    · exact .inr ⟨congrArg (List.cons .wait) hu, .inl rfl⟩
    · exact .inl ⟨hu, nofun⟩
  | expectErr c =>
    obtain ⟨_, rfl⟩ := expect_cases h
    exact .inl ⟨rfl, nofun⟩

/-- Everything a host step can do: leave the block as it is, or write one place of it. -/
theorem hostStep_cases {s t : State} (h : hostStep s = .next t) :
    (State.sameBlock s t ∧ t.schedule = s.schedule) ∨
      ∃ p v pr, p.wellFormed s.lmax = true ∧ s.inReset = false ∧
        t = State.writePlace { s with program := pr } p v := by
  unfold hostStep at h
  split at h
  · simp only [Host.Outcome.next.injEq] at h
    subst h
    exact .inl ⟨rfl, rfl⟩
  · obtain h | ⟨s', addr, size, v, p, e, _, hp, hr, ht⟩ := hostAction_cases h
    · exact .inl ⟨State.sameBlock_trans (State.sameBlock_program s _) h.1, h.2⟩
    · have hw := decodeAccess_wellFormed hp
      rw [e] at hw hr ht
      exact .inr ⟨p, v, _, hw, hr, ht⟩

/-! ## The step -/

/-- Everything a step can do, by whose turn it is. -/
theorem step_cases {s t : State} (h : step s = .next t) :
    ∃ s', s' = { s with schedule := s.schedule.tail } ∧
      ((nextTurn s = .host ∧ hostStep s' = .next t) ∨ (nextTurn s = .engine ∧ engineStep s' = .next t) ∨
        (nextTurn s = .assertReset ∧ t = s'.assertReset) ∨ (nextTurn s = .releaseReset ∧ t = s'.releaseReset)) := by
  refine ⟨_, rfl, ?_⟩
  unfold step at h
  cases hs : s.schedule with
  | nil =>
    rw [hs] at h
    have e : s = { s with schedule := [] } := by rw [← hs]
    rw [e] at h
    simp only [nextTurn, hs, List.tail_nil]
    unfold defaultTurn at h ⊢
    have hb : State.busy { s with schedule := [] } = s.busy := rfl
    rw [hb] at h
    cases hbs : s.busy
    · rw [hbs] at h
      exact .inl ⟨rfl, h⟩
    · rw [hbs] at h
      exact .inr (.inl ⟨rfl, h⟩)
  | cons u rest =>
    rw [hs] at h
    simp only [nextTurn, hs, List.tail_cons]
    cases u with
    | host => exact .inl ⟨rfl, h⟩
    | engine => exact .inr (.inl ⟨rfl, h⟩)
    | assertReset =>
      exact .inr (.inr (.inl ⟨rfl, by simpa [takeTurn, eq_comm] using h⟩))
    | releaseReset =>
      exact .inr (.inr (.inr ⟨rfl, by simpa [takeTurn, eq_comm] using h⟩))

/-- Everything the engine's step can do: nothing while it is not enabled, BAD_COMMAND on an illegal word, else exec. -/
theorem engineStep_cases {s t : State} (h : engineStep s = .next t) :
    (s.pending = none ∧ t = s) ∨
      ∃ w, s.pending = some w ∧
        ((∃ why, decode w = .illegal why ∧ t = s.finish .badCommand) ∨ ∃ i, decode w = .legal i ∧ exec i s = .next t) := by
  unfold engineStep at h
  split at h
  · exact .inl ⟨‹_›, by simpa [eq_comm] using h⟩
  · refine .inr ⟨_, ‹_›, ?_⟩
    split at h
    · exact .inr ⟨_, ‹_›, h⟩
    · refine .inl ⟨_, ‹_›, ?_⟩
      simpa [raise, eq_comm] using h

/-! ## Runs -/

theorem run_succ (M : Host.Core) (k : Nat) (s : M.State) :
    M.run (k + 1) s =
      match M.step s with
      | .next t => M.run k t
      | .fault f => .fault f
      | .refused r => .refused r := by
  cases h : M.step s <;> simp only [Host.Core.run, h]

/-- A run goes on through a step that answers a next state. -/
theorem run_next {k : Nat} {s t : State} (h : step s = .next t) :
    Sys2Proof.core.run (k + 1) s = Sys2Proof.core.run k t := by
  have h : Sys2Proof.core.step s = .next t := h
  exact (run_succ Sys2Proof.core k s).trans (by rw [h])

/-- A run stops at a step that faults. -/
theorem run_fault {k : Nat} {s : State} {f : Fault} (h : step s = .fault f) :
    Sys2Proof.core.run (k + 1) s = .fault f := by
  have h : Sys2Proof.core.step s = .fault f := h
  exact (run_succ Sys2Proof.core k s).trans (by rw [h])

/-- A run stops at a step that is refused. -/
theorem run_refused {k : Nat} {s : State} {r : Refusal} (h : step s = .refused r) :
    Sys2Proof.core.run (k + 1) s = .refused r := by
  have h : Sys2Proof.core.step s = .refused r := h
  exact (run_succ Sys2Proof.core k s).trans (by rw [h])

/-- A step with a turn on the schedule takes that turn. -/
theorem step_cons {s : State} {u : Turn} {rest : List Turn} (h : s.schedule = u :: rest) :
    step s = takeTurn u { s with schedule := rest } := by
  unfold step
  rw [h]

/-- A step with an empty schedule takes the default turn. -/
theorem step_nil {s : State} (h : s.schedule = []) : step s = takeTurn (defaultTurn s) s := by
  unfold step
  rw [h]

end Sys2Proof.Machine
end

