-- ==== Sys2Proof/Laws/Bus.lean ====
section
/-! SUPPORT. The register map in both directions, and what the two bus primitives answer at a place of the block. -/

namespace Sys2Proof.Machine

/-! ## The map -/

theorem entryAt_some {lmax i : Nat} {mk : Nat → Place} {p : Place} :
    entryAt lmax mk i = some p ↔ i < lmax ∧ mk i = p := by
  unfold entryAt
  split <;> simp_all

theorem regOffset_lt (r : Reg) : regOffset r < 0x10000 ∧ regOffset r % 4 = 0 := by cases r <;> decide
theorem find_reg (r : Reg) : allRegs.find? (fun q => regOffset q == regOffset r) = some r := by
  cases r <;> decide

/-- The offset of a place of the block names it (R52, R73). -/
theorem placeAt_of {lmax off : Nat} {p : Place} (hl : lmax ≤ 8192) (hp : p.wellFormed lmax = true)
    (ho : off = placeOffset p) : placeAt lmax off = some p := by
  unfold placeAt
  cases p with
  | reg r =>
    obtain ⟨h1, h2⟩ := regOffset_lt r
    have ho : off = regOffset r := ho
    rw [if_neg (by omega), if_pos (by omega), ho, find_reg]; rfl
  | inEntry i =>
    have hp : i < lmax := by simpa [Place.wellFormed] using hp
    have ho : off = 0x10000 + 4 * i := ho
    rw [if_neg (by omega), if_neg (by omega), if_pos (by omega), entryAt_some]
    exact ⟨by omega, by congr 1; omega⟩
  | outLo i =>
    have hp : i < lmax := by simpa [Place.wellFormed] using hp
    have ho : off = 0x20000 + 8 * i := ho
    rw [if_neg (by omega), if_neg (by omega), if_neg (by omega), if_pos (by omega), if_pos (by omega), entryAt_some]
    exact ⟨by omega, by congr 1; omega⟩
  | outHi i =>
    have hp : i < lmax := by simpa [Place.wellFormed] using hp
    have ho : off = 0x20000 + 8 * i + 4 := ho
    rw [if_neg (by omega), if_neg (by omega), if_neg (by omega), if_pos (by omega), if_neg (by omega), entryAt_some]
    exact ⟨by omega, by congr 1; omega⟩
  | ksBbs i =>
    have hp : i < lmax := by simpa [Place.wellFormed] using hp
    have ho : off = 0x30000 + 4 * i := ho
    rw [if_neg (by omega), if_neg (by omega), if_neg (by omega), if_neg (by omega), if_pos (by omega), entryAt_some]
    exact ⟨by omega, by congr 1; omega⟩
  | ksLcg i =>
    have hp : i < lmax := by simpa [Place.wellFormed] using hp
    have ho : off = 0x40000 + 4 * i := ho
    rw [if_neg (by omega), if_neg (by omega), if_neg (by omega), if_neg (by omega), if_neg (by omega),
      if_pos (by omega), entryAt_some]
    exact ⟨by omega, by congr 1; omega⟩

/-- An offset that names a place is that place's offset. -/
theorem placeOffset_of_placeAt {lmax off : Nat} {p : Place} (h : placeAt lmax off = some p) : off = placeOffset p := by
  unfold placeAt at h
  split at h
  · exact nomatch h
  split at h
  · obtain ⟨r, h1, rfl⟩ := Option.map_eq_some_iff.1 h
    have := List.find?_some h1
    exact (beq_iff_eq.1 this).symm
  split at h
  · obtain ⟨_, rfl⟩ := entryAt_some.1 h; simp only [placeOffset]; omega
  split at h
  · obtain ⟨_, rfl⟩ := entryAt_some.1 h; split <;> simp only [placeOffset] <;> omega
  split at h
  · obtain ⟨_, rfl⟩ := entryAt_some.1 h; simp only [placeOffset]; omega
  split at h
  · obtain ⟨_, rfl⟩ := entryAt_some.1 h; simp only [placeOffset]; omega
  · exact nomatch h

theorem placeOffset_lt {lmax : Nat} {p : Place} (hl : lmax ≤ 8192) (hp : p.wellFormed lmax = true) :
    placeOffset p < 0x80000 := by
  cases p with
  | reg r => exact lt_trans (regOffset_lt r).1 (by decide)
  | inEntry i | outLo i | outHi i | ksBbs i | ksLcg i =>
    have hp : i < lmax := by simpa [Place.wellFormed] using hp
    simp only [placeOffset]
    omega

theorem placeOffset_mod {p : Place} : placeOffset p % 4 = 0 := by
  cases p with
  | reg r => exact (regOffset_lt r).2
  | inEntry i | outLo i | outHi i | ksBbs i | ksLcg i =>
    simp only [placeOffset]
    omega

/-- Which accesses decode, and to what (R63, R64). -/
theorem decodeAccess_iff {lmax off size : Nat} {p : Place} (hl : lmax ≤ 8192) :
    decodeAccess lmax off size = some p ↔ size = 4 ∧ p.wellFormed lmax = true ∧ off = placeOffset p := by
  constructor
  · intro h
    have hw := decodeAccess_wellFormed h
    unfold decodeAccess at h
    split at h
    · exact ⟨‹_›, hw, placeOffset_of_placeAt h⟩
    · exact nomatch h
  · rintro ⟨rfl, hp, ho⟩
    exact placeAt_of hl hp ho

/-! ## Accesses at a place -/

theorem owns_place {s : State} {p : Place} (hl : s.cap.toNat ≤ 8192) (hp : p.wellFormed s.cap.toNat = true) :
    s.owns (s.base + placeOffset p) = true := by
  have := placeOffset_lt hl hp
  simp only [State.owns, Bool.and_eq_true, decide_eq_true_eq]
  omega

/-- The answer at a place (R60, R65). -/
theorem answer_place {s : State} {p : Place} (hl : s.cap.toNat ≤ 8192) (hp : p.wellFormed s.cap.toNat = true) :
    s.answer (placeOffset p) 4 =
      if s.busy && decide (p ≠ .reg .status) then .anyWord
      else
        match s.placeWord p with
        | none => .anyWord
        | some v => .word v := by
  cases h : s.placeWord p <;> simp only [State.answer, (decodeAccess_iff hl).2 ⟨rfl, hp, rfl⟩, h]

/-- A read that the block answers with a word delivers it. -/
theorem memRead_word {addr size : Nat} {s : State} {v : Word} (ho : s.owns addr = true) (hr : s.inReset = false)
    (h : s.answer (addr - s.base) size = .word v) : memRead addr size s = .next (v, s.deliver addr v) := by
  unfold memRead
  rw [if_pos ho, if_neg (by simp [hr]), h]

/-- A read that the block answers with ANY_32 delivers a free word. -/
theorem memRead_any {addr size : Nat} {s : State} (ho : s.owns addr = true) (hr : s.inReset = false)
    (h : s.answer (addr - s.base) size = .anyWord) :
    memRead addr size s =
      .next (Config.freeWord s.draws, { s.deliver addr (Config.freeWord s.draws) with draws := s.draws + 1 }) := by
  unfold memRead
  rw [if_pos ho, if_neg (by simp [hr]), h]

/-- A write to a place of the block (R61). -/
theorem memWrite_place {s : State} {p : Place} (v : Word) (hl : s.cap.toNat ≤ 8192)
    (hp : p.wellFormed s.cap.toNat = true) (hr : s.inReset = false) :
    memWrite (s.base + placeOffset p) 4 v s = .next (s.writePlace p v) := by
  unfold memWrite
  rw [if_pos (owns_place hl hp), if_neg (by simp [hr]), Nat.add_sub_cancel_left,
    (decodeAccess_iff hl).2 ⟨rfl, hp, rfl⟩]

end Sys2Proof.Machine
end

