-- ==== Sys2Proof/Laws/Generators.lean ====
section
/-! SUPPORT. What a number of generator steps does: the frame, the outputs and the final value (41_lcg.md R101 to R103, 42_bbs.md
R122 to R126), and what CONSTRUCT's drain does (43_cipher.md R140). -/

namespace Sys2Proof.Machine

/-! ## LCG -/

/-- LCG steps write LCG_STATE and LCG_OUT only (R83). -/
theorem lcgTicks_frame (n : Nat) (s : State) :
    (State.lcgTicks n s).2 =
      { s with lcgState := (State.lcgTicks n s).2.lcgState, lcgOut := (State.lcgTicks n s).2.lcgOut } := by
  induction n generalizing s with
  | zero => rfl
  | succ n ih => exact ih s.lcgTick

@[simp] theorem lcgTicks_length (n : Nat) (s : State) : (State.lcgTicks n s).1.length = n := by
  induction n generalizing s with
  | zero => rfl
  | succ n ih => simp [State.lcgTicks, ih]

theorem lcgTicks_lcgState (n : Nat) (s : State) (hm : 1 ≤ s.lcgML.toNat) :
    (State.lcgTicks n s).2.lcgState.toNat =
      (fun x => (s.lcgAL.toNat * x + s.lcgCL.toNat) % s.lcgML.toNat)^[n] s.lcgState.toNat := by
  induction n generalizing s with
  | zero => rfl
  | succ n ih =>
    have h := ih s.lcgTick hm
    simp only [State.lcgTick_lcgAL, State.lcgTick_lcgCL, State.lcgTick_lcgML, State.lcgTick_lcgState,
      (lcgStep_toNat _ _ _ _ hm).1] at h
    exact h

theorem lcgTicks_out (n : Nat) (s : State) (hm : 1 ≤ s.lcgML.toNat) (i : Nat) (hi : i < n) :
    (State.lcgTicks n s).1[i]? = some (BitVec.ofNat 7
      ((fun x => (s.lcgAL.toNat * x + s.lcgCL.toNat) % s.lcgML.toNat)^[i + 1] s.lcgState.toNat % 128)) := by
  induction n generalizing s i with
  | zero => omega
  | succ n ih =>
    cases i with
    | zero =>
      simp only [State.lcgTicks, List.getElem?_cons_zero, State.lcgTick_lcgOut, zero_add, Function.iterate_one]
      rfl
    | succ i =>
      have h := ih s.lcgTick hm i (by omega)
      simp only [State.lcgTick_lcgAL, State.lcgTick_lcgCL, State.lcgTick_lcgML, State.lcgTick_lcgState,
        (lcgStep_toNat _ _ _ _ hm).1] at h
      simpa only [State.lcgTicks, List.getElem?_cons_succ, Function.iterate_succ_apply _ (i + 1)] using h

theorem lcgTicks_lcgOut (n : Nat) (s : State) (hm : 1 ≤ s.lcgML.toNat) (hn : 0 < n) :
    (State.lcgTicks n s).2.lcgOut.toNat = (State.lcgTicks n s).2.lcgState.toNat % 128 := by
  induction n generalizing s with
  | zero => omega
  | succ n ih =>
    rcases Nat.eq_zero_or_pos n with rfl | h0
    · simp only [State.lcgTicks, State.lcgTick_lcgOut, State.lcgTick_lcgState]
      rw [(lcgStep_toNat _ _ _ _ hm).1, (lcgStep_toNat _ _ _ _ hm).2]
    · exact ih s.lcgTick hm h0

/-- The LCG's state stays below the modulus (R55(a)). -/
theorem lcgTicks_lt (n : Nat) (s : State) (h : s.lcgState.toNat < s.lcgML.toNat) :
    (State.lcgTicks n s).2.lcgState.toNat < s.lcgML.toNat := by
  induction n generalizing s with
  | zero => exact h
  | succ n ih =>
    refine ih s.lcgTick ?_
    simp only [State.lcgTick_lcgState, State.lcgTick_lcgML]
    rw [(lcgStep_toNat _ _ _ _ (by omega)).1]
    exact Nat.mod_lt _ (by omega)

theorem lcgTicks_append (n k : Nat) (s : State) :
    (State.lcgTicks (n + k) s).2 = (State.lcgTicks k (State.lcgTicks n s).2).2 := by
  induction n generalizing s with
  | zero => simp [State.lcgTicks]
  | succ n ih => rw [Nat.succ_add]; exact ih s.lcgTick

/-! ## BBS -/

/-- BBS steps write BBS_X, BBS_RAW, BBS_PAR and BBS_LSB only (R83). -/
theorem bbsTicks_frame (n : Nat) (s : State) :
    (State.bbsTicks n s).2 =
      { s with
        bbsX := (State.bbsTicks n s).2.bbsX, bbsRaw := (State.bbsTicks n s).2.bbsRaw
        bbsPar := (State.bbsTicks n s).2.bbsPar, bbsLsb := (State.bbsTicks n s).2.bbsLsb } := by
  induction n generalizing s with
  | zero => rfl
  | succ n ih => exact ih s.bbsTick

@[simp] theorem bbsTicks_length (n : Nat) (s : State) : (State.bbsTicks n s).1.length = n := by
  induction n generalizing s with
  | zero => rfl
  | succ n ih => simp [State.bbsTicks, ih]

theorem bbsTicks_bbsX (n : Nat) (s : State) (hm : 1 ≤ s.bbsM.toNat) :
    (State.bbsTicks n s).2.bbsX.toNat = (fun x => x * x % s.bbsM.toNat)^[n] s.bbsX.toNat := by
  induction n generalizing s with
  | zero => rfl
  | succ n ih =>
    have h := ih s.bbsTick hm
    simp only [State.bbsTick_bbsM, State.bbsTick_bbsX, bbsStep_raw_toNat _ _ hm] at h
    exact h

theorem bbsTicks_out (n : Nat) (s : State) (hm : 1 ≤ s.bbsM.toNat) (i : Nat) (hi : i < n) :
    ∃ o, (State.bbsTicks n s).1[i]? = some o ∧
      o.raw.toNat = (fun x => x * x % s.bbsM.toNat)^[i + 1] s.bbsX.toNat ∧
      o.par = evenParityBit o.raw ∧ o.lsb = leastSignificantBit o.raw := by
  induction n generalizing s i with
  | zero => omega
  | succ n ih =>
    cases i with
    | zero =>
      exact ⟨s.bbsTick.bbsResult, by simp [State.bbsTicks], bbsStep_raw_toNat _ _ hm, rfl, rfl⟩
    | succ i =>
      obtain ⟨o, h1, h2, h3⟩ := ih s.bbsTick hm i (by omega)
      simp only [State.bbsTick_bbsM, State.bbsTick_bbsX, bbsStep_raw_toNat _ _ hm] at h2
      exact ⟨o, by simpa [State.bbsTicks] using h1, h2, h3⟩

/-- After at least one step the result registers hold the last residue and its bits (R39, R40, R41). -/
theorem bbsTicks_result (n : Nat) (s : State) (hn : 0 < n) :
    (State.bbsTicks n s).2.bbsRaw = (State.bbsTicks n s).2.bbsX ∧
      (State.bbsTicks n s).2.bbsPar = evenParityBit (State.bbsTicks n s).2.bbsX ∧
      (State.bbsTicks n s).2.bbsLsb = leastSignificantBit (State.bbsTicks n s).2.bbsX := by
  induction n generalizing s with
  | zero => omega
  | succ n ih =>
    rcases Nat.eq_zero_or_pos n with rfl | h0
    · exact ⟨rfl, rfl, rfl⟩
    · exact ih s.bbsTick h0

/-- BBS_X stays below BBS_M (R55(b)). -/
theorem bbsTicks_lt (n : Nat) (s : State) (h : s.bbsX.toNat < s.bbsM.toNat) :
    (State.bbsTicks n s).2.bbsX.toNat < s.bbsM.toNat := by
  induction n generalizing s with
  | zero => exact h
  | succ n ih =>
    refine ih s.bbsTick ?_
    simp only [State.bbsTick_bbsX, State.bbsTick_bbsM]
    rw [bbsStep_raw_toNat _ _ (by omega)]
    exact Nat.mod_lt _ (by omega)

theorem bbsTicks_append (n k : Nat) (s : State) :
    (State.bbsTicks (n + k) s).2 = (State.bbsTicks k (State.bbsTicks n s).2).2 := by
  induction n generalizing s with
  | zero => simp [State.bbsTicks]
  | succ n ih => rw [Nat.succ_add]; exact ih s.bbsTick

/-! ## The drain of CONSTRUCT -/

/-- LCG steps do not touch what BBS steps read, and the other way round: the drain is the two runs side by side (R140). -/
theorem bbsTicks_congr (n : Nat) (s t : State) (hm : t.bbsM = s.bbsM) (hx : t.bbsX = s.bbsX) :
    (State.bbsTicks n t).1 = (State.bbsTicks n s).1 ∧ (State.bbsTicks n t).2.bbsX = (State.bbsTicks n s).2.bbsX := by
  induction n generalizing s t with
  | zero => exact ⟨rfl, hx⟩
  | succ n ih =>
    have h := ih s.bbsTick t.bbsTick (by simp [hm]) (by simp [hm, hx])
    refine ⟨?_, h.2⟩
    simp only [State.bbsTicks, h.1, State.bbsResult, State.bbsTick_bbsRaw, State.bbsTick_bbsPar,
      State.bbsTick_bbsLsb, hm, hx]

/-- The drain writes the two generators' values, their result registers and the two keystreams only (R140). -/
theorem drain_eq (s : State) (n : Nat) :
    s.drain n =
      { s with
        lcgState := (State.lcgTicks n s).2.lcgState, lcgOut := (State.lcgTicks n s).2.lcgOut
        bbsX := (State.bbsTicks n s).2.bbsX
        bbsRaw := (s.drain n).bbsRaw, bbsPar := (s.drain n).bbsPar, bbsLsb := (s.drain n).bbsLsb
        ksLcg := Buffer.writeFrom s.ksLcg 0 (State.lcgTicks n s).1
        ksBbs := Buffer.writeFrom s.ksBbs 0 ((State.bbsTicks n s).1.map BbsOut.lsb) } := by
  have hf := lcgTicks_frame n s
  have hc := bbsTicks_congr n s (State.lcgTicks n s).2 (by rw [hf]) (by rw [hf])
  have hb := bbsTicks_frame n (State.lcgTicks n s).2
  simp only [State.drain]
  rw [hb, hc.1, hc.2]
  rw [hf]

/-- The result registers after a drain: as before for L = 0, else those of the last BBS step (R140). -/
theorem drain_result (s : State) (n : Nat) :
    (n = 0 → (s.drain n).bbsRaw = s.bbsRaw ∧ (s.drain n).bbsPar = s.bbsPar ∧ (s.drain n).bbsLsb = s.bbsLsb) ∧
      (0 < n → (s.drain n).bbsRaw = (s.drain n).bbsX ∧ (s.drain n).bbsPar = evenParityBit (s.drain n).bbsX ∧
        (s.drain n).bbsLsb = leastSignificantBit (s.drain n).bbsX) := by
  constructor
  · rintro rfl; exact ⟨rfl, rfl, rfl⟩
  · intro h
    exact bbsTicks_result n (State.lcgTicks n s).2 h

end Sys2Proof.Machine
end

