-- ==== Sys2Proof/Laws/Exec.lean ====
section
/-! SUPPORT. What each meaning can answer, said once: the inversion of every command, and what the XOR loop computes. -/

namespace Sys2Proof.Machine

/-! ## How a command ends -/

@[simp] theorem raise_eq_next {e : ErrCode} {s t : State} : raise e s = .next t ↔ t = s.finish e := by
  simp [raise, eq_comm]

@[simp] theorem succeed_eq_next {s t : State} : succeed s = .next t ↔ t = s.finish .ok := by
  simp [succeed, eq_comm]

/-! ## LCG -/

theorem execLcgLoad_cases {s t : State} (h : execLcgLoad s = .next t) :
    (s.lcgM = 0 ∧ t = s.finish .badParameter) ∨ (s.lcgM ≠ 0 ∧ t = s.loadLcg.finish .ok) := by
  unfold execLcgLoad at h
  split at h
  · exact .inl ⟨‹_›, raise_eq_next.1 h⟩
  · exact .inr ⟨‹_›, succeed_eq_next.1 h⟩

theorem execLcgNext_cases {s t : State} (h : execLcgNext s = .next t) :
    (s.lcgLoaded = false ∧ t = s.finish .notLoaded) ∨ (s.lcgLoaded = true ∧ t = s.lcgTick.finish .ok) := by
  unfold execLcgNext at h
  split at h
  · exact .inr ⟨‹_›, succeed_eq_next.1 h⟩
  · exact .inl ⟨by simpa using ‹¬ s.lcgLoaded = true›, raise_eq_next.1 h⟩

theorem execLcgGen_cases {s t : State} (h : execLcgGen s = .next t) :
    (s.lcgLoaded = false ∧ t = s.finish .notLoaded) ∨
      (s.lcgLoaded = true ∧ s.lmax < s.genCount ∧ t = s.finish .capacity) ∨
      (s.lcgLoaded = true ∧ s.genCount ≤ s.lmax ∧
        t = State.finish
          { (State.lcgTicks s.genCount s).2 with
            outBuf := Buffer.writeFrom s.outBuf 0 ((State.lcgTicks s.genCount s).1.map (BitVec.setWidth 64))
            outLen := s.genLen } .ok) := by
  unfold execLcgGen at h
  split at h
  · split at h
    · exact .inr (.inl ⟨‹_›, ‹_›, raise_eq_next.1 h⟩)
    · exact .inr (.inr ⟨‹_›, not_lt.1 ‹_›, succeed_eq_next.1 h⟩)
  · exact .inl ⟨by simpa using ‹¬ s.lcgLoaded = true›, raise_eq_next.1 h⟩

/-- LCG_GEN's next state, field by field (R103). -/
theorem execLcgGen_ok {s : State} (h : s.lcgLoaded = true) (hn : s.genCount ≤ s.lmax) :
    execLcgGen s = .next { s with
      lcgState := (State.lcgTicks s.genCount s).2.lcgState, lcgOut := (State.lcgTicks s.genCount s).2.lcgOut
      outBuf := Buffer.writeFrom s.outBuf 0 ((State.lcgTicks s.genCount s).1.map (BitVec.setWidth 64))
      outLen := s.genLen, err := .ok, pending := none } := by
  unfold execLcgGen
  rw [if_pos h, if_neg (not_lt.2 hn)]
  have hf := lcgTicks_frame s.genCount s
  generalize State.lcgTicks s.genCount s = r at hf ⊢
  obtain ⟨os, u⟩ := r
  obtain ⟨x, o, rfl⟩ : ∃ x o, u = { s with lcgState := x, lcgOut := o } := ⟨_, _, hf⟩
  rfl

/-! ## BBS -/

theorem execBbsLoad_cases {s t : State} (h : execBbsLoad s = .next t) :
    (blumOk s.bbsP s.bbsQ = false ∧ t = s.finish .invalidModulus) ∨
      (blumOk s.bbsP s.bbsQ = true ∧ t = s.loadBbs.finish .ok) := by
  unfold execBbsLoad at h
  split at h
  · exact .inr ⟨‹_›, succeed_eq_next.1 h⟩
  · exact .inl ⟨by simpa using ‹¬ blumOk s.bbsP s.bbsQ = true›, raise_eq_next.1 h⟩

theorem execBbsNext_cases {s t : State} (h : execBbsNext s = .next t) :
    (s.bbsLoaded = false ∧ t = s.finish .notLoaded) ∨ (s.bbsLoaded = true ∧ t = s.bbsTick.finish .ok) := by
  unfold execBbsNext at h
  split at h
  · exact .inr ⟨‹_›, succeed_eq_next.1 h⟩
  · exact .inl ⟨by simpa using ‹¬ s.bbsLoaded = true›, raise_eq_next.1 h⟩

theorem bbsGen_cases {m : BbsMethod} {s t : State} (h : bbsGen m s = .next t) :
    (s.bbsLoaded = false ∧ t = s.finish .notLoaded) ∨
      (s.bbsLoaded = true ∧ s.lmax < s.genCount ∧ t = s.finish .capacity) ∨
      (s.bbsLoaded = true ∧ s.genCount ≤ s.lmax ∧
        t = State.finish
          { (State.bbsTicks s.genCount s).2 with
            outBuf := Buffer.writeFrom s.outBuf 0 ((State.bbsTicks s.genCount s).1.map (extract m))
            outLen := s.genLen } .ok) := by
  unfold bbsGen at h
  split at h
  · split at h
    · exact .inr (.inl ⟨‹_›, ‹_›, raise_eq_next.1 h⟩)
    · exact .inr (.inr ⟨‹_›, not_lt.1 ‹_›, succeed_eq_next.1 h⟩)
  · exact .inl ⟨by simpa using ‹¬ s.bbsLoaded = true›, raise_eq_next.1 h⟩

/-- BBS_GEN's next state, field by field (R126). -/
theorem bbsGen_ok {s : State} (m : BbsMethod) (h : s.bbsLoaded = true) (hn : s.genCount ≤ s.lmax) :
    bbsGen m s = .next { s with
      bbsX := (State.bbsTicks s.genCount s).2.bbsX, bbsRaw := (State.bbsTicks s.genCount s).2.bbsRaw
      bbsPar := (State.bbsTicks s.genCount s).2.bbsPar, bbsLsb := (State.bbsTicks s.genCount s).2.bbsLsb
      outBuf := Buffer.writeFrom s.outBuf 0 ((State.bbsTicks s.genCount s).1.map (extract m))
      outLen := s.genLen, err := .ok, pending := none } := by
  unfold bbsGen
  rw [if_pos h, if_neg (not_lt.2 hn)]
  have hf := bbsTicks_frame s.genCount s
  generalize State.bbsTicks s.genCount s = r at hf ⊢
  obtain ⟨os, u⟩ := r
  obtain ⟨x, w, p, l, rfl⟩ : ∃ x w p l, u = { s with bbsX := x, bbsRaw := w, bbsPar := p, bbsLsb := l } :=
    ⟨_, _, _, _, hf⟩
  rfl

/-! ## The cipher -/

theorem execConstruct_cases {s t : State} (h : execConstruct s = .next t) :
    (s.lmax < s.keyCount ∧ t = s.finish .capacity) ∨
      (s.keyCount ≤ s.lmax ∧ s.lcgM = 0 ∧ t = s.finish .badParameter) ∨
      (s.keyCount ≤ s.lmax ∧ s.lcgM ≠ 0 ∧ blumOk s.bbsP s.bbsQ = false ∧ t = s.finish .invalidModulus) ∨
      (s.keyCount ≤ s.lmax ∧ s.lcgM ≠ 0 ∧ blumOk s.bbsP s.bbsQ = true ∧
        t = State.finish
          { s.loadLcg.loadBbs.drain s.keyCount with ksLen := s.keyLen, constructed := true } .ok) := by
  unfold execConstruct at h
  split at h
  · exact .inl ⟨‹_›, raise_eq_next.1 h⟩
  · split at h
    · exact .inr (.inl ⟨not_lt.1 ‹_›, ‹_›, raise_eq_next.1 h⟩)
    · split at h
      · exact .inr (.inr (.inr ⟨not_lt.1 ‹_›, ‹_›, ‹_›, succeed_eq_next.1 h⟩))
      · exact .inr (.inr (.inl
          ⟨not_lt.1 ‹_›, ‹_›, by simpa using ‹¬ blumOk s.bbsP s.bbsQ = true›, raise_eq_next.1 h⟩))

/-- CONSTRUCT's next state, field by field (R140): `d` is the state after the load and the drain. -/
theorem execConstruct_ok {s : State} (hn : s.keyCount ≤ s.lmax) (hm : s.lcgM ≠ 0) (hb : blumOk s.bbsP s.bbsQ = true) :
    ∃ d, d = s.loadLcg.loadBbs.drain s.keyCount ∧
      execConstruct s = .next { s with
        lcgAL := s.lcgA, lcgCL := s.lcgC, lcgML := s.lcgM, bbsM := s.loadBbs.bbsM
        lcgState := d.lcgState, lcgOut := d.lcgOut, bbsX := d.bbsX, bbsRaw := d.bbsRaw, bbsPar := d.bbsPar
        bbsLsb := d.bbsLsb, ksLcg := d.ksLcg, ksBbs := d.ksBbs, ksLen := s.keyLen
        lcgLoaded := true, bbsLoaded := true, constructed := true, err := .ok, pending := none } := by
  refine ⟨_, rfl, ?_⟩
  unfold execConstruct
  rw [if_neg (not_lt.2 hn), if_neg hm, if_pos hb]
  have hf := drain_eq s.loadLcg.loadBbs s.keyCount
  generalize s.loadLcg.loadBbs.drain s.keyCount = d at hf ⊢
  obtain ⟨a, b, c, e, f, g, k, l, rfl⟩ : ∃ a b c e f g k l, d =
      { s.loadLcg.loadBbs with
        lcgState := a, lcgOut := b, bbsX := c, bbsRaw := e, bbsPar := f, bbsLsb := g, ksLcg := k, ksBbs := l } :=
    ⟨_, _, _, _, _, _, _, _, hf⟩
  rfl

theorem xorFrom_of_written {m : CipherMethod} {s : State} (v k : Nat → Word) (n : Nat) : ∀ i : Nat,
    (∀ j, i ≤ j → j < i + n → Buffer.read s.inBuf j = some (v j) ∧ s.keystream m j = some (k j)) →
    xorFrom m s n i = .ok ((List.range n).map fun j => v (i + j) ^^^ k (i + j)) := by
  induction n with
  | zero => intro i _; rfl
  | succ n ih =>
    intro i h
    obtain ⟨h1, h2⟩ := h i (le_refl _) (by omega)
    rw [xorFrom, h1, h2]
    simp only
    rw [ih (i + 1) fun j hj hj' => h j (by omega) (by omega)]
    simp only [List.range_succ_eq_map, List.map_cons, List.map_map, Nat.add_zero]
    refine congrArg _ (congrArg _ (List.map_congr_left fun j _ => ?_))
    simp only [Function.comp_apply, Nat.succ_eq_add_one]
    rw [show i + 1 + j = i + (j + 1) by omega]

/-- What an answer of the XOR loop means (R144): every entry was there, and each result is their XOR. -/
theorem xorFrom_ok {m : CipherMethod} {s : State} : ∀ {n i : Nat} {rs : List Word}, xorFrom m s n i = .ok rs →
    rs.length = n ∧ ∀ j, j < n → ∃ v k, Buffer.read s.inBuf (i + j) = some v ∧ s.keystream m (i + j) = some k ∧
      rs[j]? = some (v ^^^ k) := by
  intro n
  induction n with
  | zero => intro i rs h; simp only [xorFrom, Except.ok.injEq] at h; subst h; exact ⟨rfl, fun j hj => by omega⟩
  | succ n ih =>
    intro i rs h
    cases hv : Buffer.read s.inBuf i with
    | none => simp [xorFrom, hv] at h
    | some v =>
      cases hk : s.keystream m i with
      | none => simp [xorFrom, hv, hk] at h
      | some k =>
        cases hr : xorFrom m s n (i + 1) with
        | error f => simp [xorFrom, hv, hk, hr] at h
        | ok rs' =>
          simp only [xorFrom, hv, hk, hr, Except.ok.injEq] at h
          subst h
          obtain ⟨h1, h2⟩ := ih hr
          refine ⟨by simp [h1], fun j hj => ?_⟩
          cases j with
          | zero => exact ⟨v, k, hv, hk, by simp⟩
          | succ j =>
            obtain ⟨v', k', a, b, c⟩ := h2 j (by omega)
            rw [show i + 1 + j = i + (j + 1) by omega] at a b
            exact ⟨v', k', a, b, by simpa using c⟩

/-- Where every keystream entry is there, the loop stops at the first unwritten IN entry (U5). -/
theorem xorFrom_unwritten {m : CipherMethod} {s : State} {j : Nat} (hj : Buffer.read s.inBuf j = none) :
    ∀ n i, i ≤ j → j < i + n → (∀ j', i ≤ j' → j' < j → (Buffer.read s.inBuf j').isSome = true) →
    (∀ j', i ≤ j' → j' < i + n → (s.keystream m j').isSome = true) →
    xorFrom m s n i = .error (.unwrittenInput j) := by
  intro n
  induction n with
  | zero => intro i h1 h2; omega
  | succ n ih =>
    intro i h1 h2 hin hks
    rcases Nat.lt_or_eq_of_le h1 with hlt | rfl
    · obtain ⟨v, hv⟩ := Option.isSome_iff_exists.1 (hin i (le_refl _) hlt)
      obtain ⟨k, hk⟩ := Option.isSome_iff_exists.1 (hks i (le_refl _) (by omega))
      rw [xorFrom, hv, hk]
      simp only
      rw [ih (i + 1) hlt (by omega) (fun j' a b => hin j' (by omega) b) fun j' a b => hks j' (by omega) (by omega)]
    · rw [xorFrom, hj]

/-- What stops the transform: an unwritten IN entry, or an unwritten keystream entry, in range (U5, R55(c)). -/
theorem xorFrom_error {m : CipherMethod} {s : State} {f : Fault} : ∀ {n i : Nat}, xorFrom m s n i = .error f →
    ∃ j, i ≤ j ∧ j < i + n ∧ ((f = .unwrittenInput j ∧ Buffer.read s.inBuf j = none) ∨
      (f = .unwrittenKeystream j ∧ s.keystream m j = none)) := by
  intro n
  induction n with
  | zero => intro i h; exact nomatch h
  | succ n ih =>
    intro i h
    rw [xorFrom] at h
    split at h
    · cases h
      exact ⟨i, le_refl _, by omega, .inl ⟨rfl, ‹_›⟩⟩
    · split at h
      · cases h
        exact ⟨i, le_refl _, by omega, .inr ⟨rfl, ‹_›⟩⟩
      · split at h
        · cases h
          obtain ⟨j, h1, h2, h3⟩ := ih ‹_›
          exact ⟨j, by omega, by omega, h3⟩
        · exact nomatch h

theorem xorTransform_cases {m : CipherMethod} {s t : State} (h : xorTransform m s = .next t) :
    (s.constructed = false ∧ t = s.finish .notConstructed) ∨
      (s.constructed = true ∧ s.inLen ≠ s.ksLen ∧ t = s.finish .lengthMismatch) ∨
      (s.constructed = true ∧ s.inLen = s.ksLen ∧ ∃ rs, xorFrom m s s.inCount 0 = .ok rs ∧
        ((rs.all validCp = false ∧ t = s.finish .codepointOverflow) ∨
          (rs.all validCp = true ∧
            t = State.finish
              { s with outBuf := Buffer.writeFrom s.outBuf 0 (rs.map (BitVec.setWidth 64)), outLen := s.inLen }
              .ok))) := by
  unfold xorTransform at h
  split at h
  · split at h
    · exact .inr (.inl ⟨‹_›, ‹_›, raise_eq_next.1 h⟩)
    · refine .inr (.inr ⟨‹_›, by simpa using ‹¬ s.inLen ≠ s.ksLen›, ?_⟩)
      split at h
      · exact nomatch h
      · refine ⟨_, ‹_›, ?_⟩
        split at h
        · exact .inr ⟨‹_›, succeed_eq_next.1 h⟩
        · exact .inl ⟨Bool.eq_false_iff.2 ‹_›, raise_eq_next.1 h⟩
  · exact .inl ⟨by simpa using ‹¬ s.constructed = true›, raise_eq_next.1 h⟩

/-! ## Every command -/

/-- Everything a completion can do, command by command: fail and change ERR and PENDING only, or succeed and write what its rule
names. -/
inductive Completion (i : Instr) (s : State) : State → Prop
  | failed (e : ErrCode) (hok : e ≠ .ok) (hbad : e ≠ .badCommand) : Completion i s (s.finish e)
  | lcgLoad (hi : i = .lcgLoad) (hm : s.lcgM ≠ 0) : Completion i s (s.loadLcg.finish .ok)
  | lcgNext (hi : i = .lcgNext) (hl : s.lcgLoaded = true) : Completion i s (s.lcgTick.finish .ok)
  | lcgGen (hi : i = .lcgGen) (hl : s.lcgLoaded = true) (hn : s.genCount ≤ s.lmax) :
      Completion i s (State.finish
        { s with
          lcgState := (State.lcgTicks s.genCount s).2.lcgState, lcgOut := (State.lcgTicks s.genCount s).2.lcgOut
          outBuf := Buffer.writeFrom s.outBuf 0 ((State.lcgTicks s.genCount s).1.map (BitVec.setWidth 64))
          outLen := s.genLen } .ok)
  | bbsLoad (hi : i = .bbsLoad) (hb : blumOk s.bbsP s.bbsQ = true) : Completion i s (s.loadBbs.finish .ok)
  | bbsNext (hi : i = .bbsNext) (hl : s.bbsLoaded = true) : Completion i s (s.bbsTick.finish .ok)
  | bbsGen (m : BbsMethod) (hi : (i, m) ∈ [(Instr.bbsGenLsb, BbsMethod.lsb), (.bbsGenParity, .parity), (.bbsGenRaw, .raw)])
      (hl : s.bbsLoaded = true) (hn : s.genCount ≤ s.lmax) :
      Completion i s (State.finish
        { s with
          bbsX := (State.bbsTicks s.genCount s).2.bbsX, bbsRaw := (State.bbsTicks s.genCount s).2.bbsRaw
          bbsPar := (State.bbsTicks s.genCount s).2.bbsPar, bbsLsb := (State.bbsTicks s.genCount s).2.bbsLsb
          outBuf := Buffer.writeFrom s.outBuf 0 ((State.bbsTicks s.genCount s).1.map (extract m))
          outLen := s.genLen } .ok)
  | construct (d : State) (hi : i = .construct) (hn : s.keyCount ≤ s.lmax) (hm : s.lcgM ≠ 0)
      (hb : blumOk s.bbsP s.bbsQ = true) (hd : d = s.loadLcg.loadBbs.drain s.keyCount) :
      Completion i s (State.finish
        { s.loadLcg.loadBbs with
          lcgState := d.lcgState, lcgOut := d.lcgOut, bbsX := d.bbsX, bbsRaw := d.bbsRaw, bbsPar := d.bbsPar
          bbsLsb := d.bbsLsb, ksLcg := d.ksLcg, ksBbs := d.ksBbs, ksLen := s.keyLen, constructed := true } .ok)
  | cipher (m : CipherMethod) (rs : List Word)
      (hi : (i, m) ∈ [(Instr.encryptBbs, CipherMethod.bbs), (.encryptLcg, .lcg), (.decryptBbs, .bbs), (.decryptLcg, .lcg)])
      (hc : s.constructed = true) (hl : s.inLen = s.ksLen) (hr : xorFrom m s s.inCount 0 = .ok rs)
      (hv : rs.all validCp = true) :
      Completion i s (State.finish
        { s with outBuf := Buffer.writeFrom s.outBuf 0 (rs.map (BitVec.setWidth 64)), outLen := s.inLen } .ok)

theorem exec_cases {i : Instr} {s t : State} (h : exec i s = .next t) : Completion i s t := by
  have gen : ∀ m, (i, m) ∈ [(Instr.bbsGenLsb, BbsMethod.lsb), (.bbsGenParity, .parity), (.bbsGenRaw, .raw)] →
      bbsGen m s = .next t → Completion i s t := by
    intro m hi h
    obtain ⟨_, rfl⟩ | ⟨_, _, rfl⟩ | ⟨hl, hn, -⟩ := bbsGen_cases h
    · exact .failed _ (by decide) (by decide)
    · exact .failed _ (by decide) (by decide)
    · rw [bbsGen_ok m hl hn] at h
      cases h
      exact .bbsGen m hi hl hn
  have cipher : ∀ m, (i, m) ∈
      [(Instr.encryptBbs, CipherMethod.bbs), (.encryptLcg, .lcg), (.decryptBbs, .bbs), (.decryptLcg, .lcg)] →
      xorTransform m s = .next t → Completion i s t := by
    intro m hi h
    obtain ⟨_, rfl⟩ | ⟨_, _, rfl⟩ | ⟨hc, hl, rs, hr, ⟨_, rfl⟩ | ⟨hv, rfl⟩⟩ := xorTransform_cases h
    · exact .failed _ (by decide) (by decide)
    · exact .failed _ (by decide) (by decide)
    · exact .failed _ (by decide) (by decide)
    · exact .cipher m rs hi hc hl hr hv
  cases i with
  | lcgLoad =>
    obtain ⟨_, rfl⟩ | ⟨hm, rfl⟩ := execLcgLoad_cases h
    · exact .failed _ (by decide) (by decide)
    · exact .lcgLoad rfl hm
  | lcgNext =>
    obtain ⟨_, rfl⟩ | ⟨hl, rfl⟩ := execLcgNext_cases h
    · exact .failed _ (by decide) (by decide)
    · exact .lcgNext rfl hl
  | lcgGen =>
    obtain ⟨_, rfl⟩ | ⟨_, _, rfl⟩ | ⟨hl, hn, -⟩ := execLcgGen_cases h
    · exact .failed _ (by decide) (by decide)
    · exact .failed _ (by decide) (by decide)
    · have h : execLcgGen s = .next t := h
      rw [execLcgGen_ok hl hn] at h
      cases h
      exact .lcgGen rfl hl hn
  | bbsLoad =>
    obtain ⟨_, rfl⟩ | ⟨hb, rfl⟩ := execBbsLoad_cases h
    · exact .failed _ (by decide) (by decide)
    · exact .bbsLoad rfl hb
  | bbsNext =>
    obtain ⟨_, rfl⟩ | ⟨hl, rfl⟩ := execBbsNext_cases h
    · exact .failed _ (by decide) (by decide)
    · exact .bbsNext rfl hl
  | bbsGenLsb => exact gen .lsb (by decide) h
  | bbsGenParity => exact gen .parity (by decide) h
  | bbsGenRaw => exact gen .raw (by decide) h
  | construct =>
    obtain ⟨_, rfl⟩ | ⟨_, _, rfl⟩ | ⟨_, _, _, rfl⟩ | ⟨hn, hm, hb, -⟩ := execConstruct_cases h
    · exact .failed _ (by decide) (by decide)
    · exact .failed _ (by decide) (by decide)
    · exact .failed _ (by decide) (by decide)
    · have h : execConstruct s = .next t := h
      obtain ⟨d, hd, e⟩ := execConstruct_ok hn hm hb
      rw [e] at h
      cases h
      exact .construct d rfl hn hm hb hd
  | encryptBbs => exact cipher .bbs (by decide) h
  | encryptLcg => exact cipher .lcg (by decide) h
  | decryptBbs => exact cipher .bbs (by decide) h
  | decryptLcg => exact cipher .lcg (by decide) h

/-- A cipher command completes, or it stops at what stops its transform. -/
theorem xorTransform_stops (m : CipherMethod) (s : State) :
    (∃ t, xorTransform m s = .next t) ∨
      ∃ f, s.constructed = true ∧ s.inLen = s.ksLen ∧ xorFrom m s s.inCount 0 = .error f ∧
        xorTransform m s = .fault f := by
  unfold xorTransform raise succeed
  split
  · split
    · exact .inl ⟨_, rfl⟩
    · split
      · exact .inr ⟨_, ‹_›, by simpa using ‹¬ s.inLen ≠ s.ksLen›, ‹_›, rfl⟩
      · split
        · exact .inl ⟨_, rfl⟩
        · exact .inl ⟨_, rfl⟩
  · exact .inl ⟨_, rfl⟩

/-- Every command completes, except a cipher command that stops at an unwritten entry (U5, R55(c)). -/
theorem exec_stops (i : Instr) (s : State) :
    (∃ t, exec i s = .next t) ∨
      ∃ m f,
        (i, m) ∈ [(Instr.encryptBbs, CipherMethod.bbs), (.encryptLcg, .lcg), (.decryptBbs, .bbs), (.decryptLcg, .lcg)] ∧
        s.constructed = true ∧ s.inLen = s.ksLen ∧ xorFrom m s s.inCount 0 = .error f ∧ exec i s = .fault f := by
  have gen : ∀ m, ∃ t, bbsGen m s = .next t := by
    intro m
    unfold bbsGen raise succeed
    split
    · split <;> exact ⟨_, rfl⟩
    · exact ⟨_, rfl⟩
  have cipher : ∀ m, (i, m) ∈
      [(Instr.encryptBbs, CipherMethod.bbs), (.encryptLcg, .lcg), (.decryptBbs, .bbs), (.decryptLcg, .lcg)] →
      exec i s = xorTransform m s →
      (∃ t, exec i s = .next t) ∨
        ∃ m f,
          (i, m) ∈ [(Instr.encryptBbs, CipherMethod.bbs), (.encryptLcg, .lcg), (.decryptBbs, .bbs), (.decryptLcg, .lcg)] ∧
          s.constructed = true ∧ s.inLen = s.ksLen ∧ xorFrom m s s.inCount 0 = .error f ∧ exec i s = .fault f := by
    intro m hi he
    obtain h | ⟨f, h1, h2, h3, h4⟩ := xorTransform_stops m s
    · exact .inl (he ▸ h)
    · exact .inr ⟨m, f, hi, h1, h2, h3, he.trans h4⟩
  cases i with
  | lcgLoad =>
    refine .inl (show ∃ t, execLcgLoad s = .next t from ?_)
    unfold execLcgLoad raise succeed
    split <;> exact ⟨_, rfl⟩
  | lcgNext =>
    refine .inl (show ∃ t, execLcgNext s = .next t from ?_)
    unfold execLcgNext raise succeed
    split <;> exact ⟨_, rfl⟩
  | lcgGen =>
    refine .inl (show ∃ t, execLcgGen s = .next t from ?_)
    unfold execLcgGen raise succeed
    split
    · split <;> exact ⟨_, rfl⟩
    · exact ⟨_, rfl⟩
  | bbsLoad =>
    refine .inl (show ∃ t, execBbsLoad s = .next t from ?_)
    unfold execBbsLoad raise succeed
    split <;> exact ⟨_, rfl⟩
  | bbsNext =>
    refine .inl (show ∃ t, execBbsNext s = .next t from ?_)
    unfold execBbsNext raise succeed
    split <;> exact ⟨_, rfl⟩
  | bbsGenLsb => exact .inl (gen .lsb)
  | bbsGenParity => exact .inl (gen .parity)
  | bbsGenRaw => exact .inl (gen .raw)
  | construct =>
    refine .inl (show ∃ t, execConstruct s = .next t from ?_)
    unfold execConstruct raise succeed
    split
    · exact ⟨_, rfl⟩
    · split
      · exact ⟨_, rfl⟩
      · split <;> exact ⟨_, rfl⟩
  | encryptBbs => exact cipher .bbs (by decide) rfl
  | encryptLcg => exact cipher .lcg (by decide) rfl
  | decryptBbs => exact cipher .bbs (by decide) rfl
  | decryptLcg => exact cipher .lcg (by decide) rfl

end Sys2Proof.Machine
end

