-- ==== Sys2Proof/Laws/PerInstr.lean ====
section
/-! SUPPORT. One family of statements about the commands as syntax, with one lemma per constructor. -/

namespace Sys2Proof.Laws.EncodedFields

/-- A command's fields are legal (R80, R81, R82), they are the fields of its word, and the word's bits 31:10 are 0. -/
def Statement (i : Instr) : Prop :=
  i.fields.wellFormed = true ∧ splitWord (encode i) = i.fields ∧ (encode i).toNat < 1024

theorem lcgLoad : Statement .lcgLoad := ⟨by decide, by decide, by decide⟩
theorem lcgNext : Statement .lcgNext := ⟨by decide, by decide, by decide⟩
theorem lcgGen : Statement .lcgGen := ⟨by decide, by decide, by decide⟩
theorem bbsLoad : Statement .bbsLoad := ⟨by decide, by decide, by decide⟩
theorem bbsNext : Statement .bbsNext := ⟨by decide, by decide, by decide⟩
theorem bbsGenLsb : Statement .bbsGenLsb := ⟨by decide, by decide, by decide⟩
theorem bbsGenParity : Statement .bbsGenParity := ⟨by decide, by decide, by decide⟩
theorem bbsGenRaw : Statement .bbsGenRaw := ⟨by decide, by decide, by decide⟩
theorem construct : Statement .construct := ⟨by decide, by decide, by decide⟩
theorem encryptBbs : Statement .encryptBbs := ⟨by decide, by decide, by decide⟩
theorem encryptLcg : Statement .encryptLcg := ⟨by decide, by decide, by decide⟩
theorem decryptBbs : Statement .decryptBbs := ⟨by decide, by decide, by decide⟩
theorem decryptLcg : Statement .decryptLcg := ⟨by decide, by decide, by decide⟩

end Sys2Proof.Laws.EncodedFields
end

