-- ==== Sys2Proof/Laws/Program.lean ====
section
/-! SUPPORT. What the steps to the end of a host program can do (70_reset_and_hazards.md R190), said once. -/

namespace Sys2Proof.Machine

/-- The end comes with the next step, or it is the end from the state after it. -/
theorem endFrom_cases {k : Nat} {waited : Bool} {s t : State} (h : endFrom (k + 1) waited s = some t) :
    ∃ u, step s = .next u ∧
      ((lastInstruction s u = true ∧ waitedAfter waited s u = true ∧ t = u) ∨
        (lastInstruction s u = false ∧ endFrom k (waitedAfter waited s u) u = some t)) := by
  unfold endFrom at h
  cases hs : step s with
  | fault f => rw [hs] at h; exact nomatch h
  | refused r => rw [hs] at h; exact nomatch h
  | next u =>
    rw [hs] at h
    refine ⟨u, rfl, ?_⟩
    dsimp only at h
    split at h
    · split at h
      · exact .inl ⟨‹_›, ‹_›, (Option.some.inj h).symm⟩
      · exact nomatch h
    · exact .inr ⟨Bool.eq_false_iff.2 ‹_›, h⟩

/-- A step that is no host turn and no reset assertion leaves `waited` as it is. -/
theorem waitedAfter_other {waited : Bool} {s t : State} (h1 : nextTurn s ≠ .host) (h2 : nextTurn s ≠ .assertReset) :
    waitedAfter waited s t = waited := by
  unfold waitedAfter
  cases hn : nextTurn s with
  | host => exact absurd hn h1
  | engine => rfl
  | assertReset => exact absurd hn h2
  | releaseReset => rfl

/-- After a reset assertion no `wait` counts. -/
theorem waitedAfter_assertReset {waited : Bool} {s t : State} (h : nextTurn s = .assertReset) :
    waitedAfter waited s t = false := by
  unfold waitedAfter
  rw [h]

/-- A host turn that is not the end of a `wait` counts only when it observes and a `wait` has counted before. -/
theorem waitedAfter_host {waited : Bool} {s t : State} {a : HostInstr} {rest : List HostInstr} (h : nextTurn s = .host)
    (hp : s.program = a :: rest) :
    waitedAfter waited s t = true ↔ (a = .wait ∧ t.program = rest) ∨ (observes a = true ∧ waited = true) := by
  unfold waitedAfter
  rw [h, hp]
  cases a <;> simp [observes]

end Sys2Proof.Machine
end

