-- ==== Sys2Proof/Tests/Slice0.lean ====
section
/-! SUPPORT. The model's own tests: ill-formed terms refused, the words of 30_encoding.md R85 and 95_test_vectors.md 2.4
decoded, single steps with the results that 95_test_vectors.md gives, and for every statement with hypotheses a state that
meets them. -/

namespace Sys2Proof.Tests

open Sys2Proof Sys2Proof.Machine

/-! ## States -/

/-- After reset, with LMAX = 16 and BASE = 0x80000. -/
def idle : State := { State.reset with cap := 16, base := 0x80000 }

/-- The parameters of V-CIPHER-1, with KEYLEN = 2. -/
def params : State :=
  { idle with
    lcgSeed := 1, lcgA := 5, lcgC := 3, lcgM := 16, bbsSeed := 3, bbsP := 11, bbsQ := 23, keyLen := 2 }

/-- V-LCG-1 after its load. -/
def lcg : State :=
  { params with lcgLoaded := true, lcgAL := 5, lcgCL := 3, lcgML := 16, lcgState := 1, genLen := 2 }

/-- V-BBS-1 after its load. -/
def bbs : State := { params with bbsLoaded := true, bbsM := 253, bbsX := 3, genLen := 2 }

/-- A cipher instance of two entries (95_test_vectors.md P4, step 12), with IN = 0x48, 0x10FFFF. -/
def cipher : State :=
  { params with
    lcgLoaded := true, lcgAL := 5, lcgCL := 3, lcgML := 16, lcgState := 11, lcgOut := 11
    bbsLoaded := true, bbsM := 253, bbsX := 81, bbsRaw := 81, bbsPar := 1, bbsLsb := 1
    constructed := true, ksLen := 2, ksLcg := [(0, 8), (1, 11)], ksBbs := [(0, 1), (1, 1)]
    inLen := 2, inBuf := [(0, 0x48), (1, 0x10FFFF)] }

/-- `w` is in flight. -/
def busyWith (w : Word) (s : State) : State := { s with cmd := w, pending := some w }

/-- A field of the next state. -/
def after {α : Type} (o : Host.Outcome State Fault Refusal) (f : State → α) : Option α := (nextState? o).map f

/-- The first `n` entries of a buffer. -/
def entries {w : Nat} (n : Nat) (b : Buffer w) : List (Option (BitVec w)) := (List.range n).map (Buffer.read b)

/-! ## Ill-formed terms -/

theorem test_fields_refused_rsvd : CommandFields.wellFormed ⟨0x01, 0, 1⟩ = false := by decide
theorem test_fields_refused_op : CommandFields.wellFormed ⟨0x04, 0, 0⟩ = false := by decide
theorem test_fields_refused_method_lcg : CommandFields.wellFormed ⟨0x01, 1, 0⟩ = false := by decide
theorem test_fields_refused_method_bbs : CommandFields.wellFormed ⟨0x13, 3, 0⟩ = false := by decide
theorem test_fields_refused_method_cipher : CommandFields.wellFormed ⟨0x31, 2, 0⟩ = false := by decide
theorem test_fields_accepted : CommandFields.wellFormed ⟨0x13, 2, 0⟩ = true := by decide
theorem test_place_refused : (Place.ksLcg 16).wellFormed 16 = false ∧ (Place.outHi 16).wellFormed 16 = false ∧
    (Place.inEntry 16).wellFormed 16 = false ∧ (Place.outLo 16).wellFormed 16 = false ∧
    (Place.ksBbs 16).wellFormed 16 = false := by decide
theorem test_place_accepted : (Place.ksLcg 15).wellFormed 16 = true := by decide
theorem test_target_refused : (Target.place (.inEntry 16)).wellFormed 16 = false := by decide
theorem test_line_refused : (HostInstr.wr (.place (.inEntry 16)) 0).wellFormed 16 = false ∧
    (HostInstr.rd (.place (.inEntry 16)) none).wellFormed 16 = false := by decide
theorem test_memory_refused_order : Buffer.wf (w := 32) 16 [(1, 0), (0, 0)] = false := by decide
theorem test_memory_refused_twice : Buffer.wf (w := 32) 16 [(1, 0), (1, 0)] = false := by decide
theorem test_memory_refused_range : Buffer.wf (w := 32) 16 [(16, 0)] = false := by decide

/-! ## Decoding: the words of R85, bit by bit, and the illegal words of 95_test_vectors.md 2.4 -/

theorem test_decode_lcgLoad : decode 0b00000000000000000000000000000001#32 = .legal .lcgLoad := by decide
theorem test_decode_lcgNext : decode 0b00000000000000000000000000000010#32 = .legal .lcgNext := by decide
theorem test_decode_lcgGen : decode 0b00000000000000000000000000000011#32 = .legal .lcgGen := by decide
theorem test_decode_bbsLoad : decode 0b00000000000000000000000000010001#32 = .legal .bbsLoad := by decide
theorem test_decode_bbsNext : decode 0b00000000000000000000000000010010#32 = .legal .bbsNext := by decide
theorem test_decode_bbsGenLsb : decode 0b00000000000000000000000000010011#32 = .legal .bbsGenLsb := by decide
theorem test_decode_bbsGenParity : decode 0b00000000000000000000000100010011#32 = .legal .bbsGenParity := by decide
theorem test_decode_bbsGenRaw : decode 0b00000000000000000000001000010011#32 = .legal .bbsGenRaw := by decide
theorem test_decode_construct : decode 0b00000000000000000000000000100001#32 = .legal .construct := by decide
theorem test_decode_encryptBbs : decode 0b00000000000000000000000000110001#32 = .legal .encryptBbs := by decide
theorem test_decode_encryptLcg : decode 0b00000000000000000000000100110001#32 = .legal .encryptLcg := by decide
theorem test_decode_decryptBbs : decode 0b00000000000000000000000000110010#32 = .legal .decryptBbs := by decide
theorem test_decode_decryptLcg : decode 0b00000000000000000000000100110010#32 = .legal .decryptLcg := by decide
theorem test_decode_illegal :
    ([0x00000000#32, 0x00000004#32, 0x00000101#32, 0x00000313#32, 0x00000231#32, 0x00000332#32, 0x00000401#32, 0x80000021#32,
      0x000000FF#32].all fun w => decide ((decode w).instr? = none)) = true := by decide
theorem test_decodeTableWord : decodeTableWord 32 0x213 = some .bbsGenRaw ∧ decodeTableWord 32 0x313 = none := by decide

/-! ## One step each (95_test_vectors.md) -/

/-- V-LCG-7: a seed above m is reduced. -/
theorem test_lcgLoad : after (exec .lcgLoad { params with lcgSeed := 100 }) (fun t => (t.lcgState, t.lcgML, t.lcgLoaded, t.err)) =
    some (4, 16, true, .ok) := by decide
/-- V-LCG-9: m = 0. -/
theorem test_lcgLoad_zero : after (exec .lcgLoad { lcg with lcgM := 0 }) (fun t => (t.err, t.lcgML, t.lcgLoaded)) =
    some (.badParameter, 16, true) := by decide
/-- V-LCG-2, second step: a·s + c is at least 2^32. -/
theorem test_lcgNext : after (exec .lcgNext { lcg with lcgAL := 0xFFFF, lcgCL := 0xFFFF, lcgML := 0xFFFFFFFF, lcgState := 0xFFFF })
    (fun t => (t.lcgState, t.lcgOut)) = some (0xFFFF0000, 0) := by decide
/-- V-LCG-15: the latched multiplier is used. -/
theorem test_lcgNext_latched : after (exec .lcgNext { lcg with lcgA := 7 }) (fun t => (t.lcgState, t.lcgOut)) = some (8, 8) := by
  decide
/-- V-LCG-11. -/
theorem test_lcgGen : after (exec .lcgGen { lcg with genLen := 4 })
    (fun t => (entries 5 t.outBuf, t.outLen, t.lcgState, t.lcgOut)) =
      some ([some 8, some 11, some 10, some 5, none], 4, 5, 5) := by decide
/-- V-LCG-12: a length of 0. -/
theorem test_lcgGen_zero : after (exec .lcgGen { lcg with genLen := 0, lcgOut := 9, outLen := 3 })
    (fun t => (t.outLen, t.lcgState, t.lcgOut, t.err)) = some (0, 1, 9, .ok) := by decide
/-- V-BBS-4: a seed above M is reduced. -/
theorem test_bbsLoad : after (exec .bbsLoad { params with bbsSeed := 1000 }) (fun t => (t.bbsM, t.bbsX, t.bbsLoaded)) =
    some (253, 241, true) := by decide +kernel
/-- V-BBS-7: a 64-bit modulus. -/
theorem test_loadBbs_wide : (State.loadBbs { idle with bbsP := 0xFFFFFFFB, bbsQ := 0xFFFFFFEF }).bbsM = 0xFFFFFFEA00000055 := by
  decide
/-- V-BBS-8: 13 is 1 mod 4, 15 is not prime, p = q. -/
theorem test_bbsLoad_invalid :
    after (exec .bbsLoad { bbs with bbsP := 13 }) (fun t => (t.err, t.bbsM, t.bbsX)) = some (.invalidModulus, 253, 3) ∧
      after (exec .bbsLoad { bbs with bbsP := 15 }) (fun t => (t.err, t.bbsM)) = some (.invalidModulus, 253) ∧
      after (exec .bbsLoad { bbs with bbsQ := 11 }) (fun t => (t.err, t.bbsM)) = some (.invalidModulus, 253) := by
  decide +kernel
/-- V-BBS-7, third step: the high half of the result. -/
theorem test_bbsNext : after (exec .bbsNext { bbs with bbsM := 0xFFFFFFEA00000055, bbsX := 0x0000153FFFFF96C0 })
    (fun t => (t.bbsX, t.bbsRaw, t.bbsPar, t.bbsLsb)) = some (0x15553FFF9556C000, 0x15553FFF9556C000, 1, 0) := by
  decide +kernel
/-- V-BBS-10. -/
theorem test_bbsNext_notLoaded : after (exec .bbsNext idle) (fun t => (t.err, t.bbsX)) = some (.notLoaded, 0) := by decide
/-- V-BBS-2. -/
theorem test_bbsGenLsb : after (exec .bbsGenLsb { bbs with genLen := 4 }) (fun t => (entries 4 t.outBuf, t.outLen, t.bbsX)) =
    some ([some 1, some 1, some 0, some 0], 4, 36) := by decide +kernel
/-- V-BBS-2, run from x = 36. -/
theorem test_bbsGenParity : after (exec .bbsGenParity { bbs with bbsX := 36, genLen := 4 })
    (fun t => (entries 4 t.outBuf, t.bbsX)) = some ([some 1, some 0, some 0, some 1], 234) := by decide +kernel
/-- V-BBS-2. -/
theorem test_bbsGenRaw : after (exec .bbsGenRaw { bbs with genLen := 4 })
    (fun t => (entries 4 t.outBuf, t.bbsRaw, t.bbsPar, t.bbsLsb)) =
      some ([some 9, some 81, some 236, some 36], 36, 0, 0) := by decide +kernel
/-- V-CIPHER-1. -/
theorem test_construct : after (exec .construct { params with keyLen := 4 })
    (fun t => (entries 4 t.ksLcg, entries 4 t.ksBbs, t.lcgState, t.bbsX, t.statusWord)) =
      some ([some 8, some 11, some 10, some 5], [some 1, some 1, some 0, some 0], 5, 36, 0x00E) := by decide +kernel
/-- V-CIPHER-9: the length is checked before the modulus and the primes. -/
theorem test_construct_priority : after (exec .construct { cipher with keyLen := 0xFFFFFFFF, lcgM := 0, bbsP := 13 })
    (fun t => (t.err, t.ksLen)) = some (.capacity, 2) := by decide
/-- V-CIPHER-4. -/
theorem test_encryptBbs : after (exec .encryptBbs { cipher with inBuf := [(0, 0x10FFFF), (1, 0xD800)] })
    (fun t => (entries 2 t.outBuf, t.outLen)) = some ([some 0x10FFFE, some 0xD801], 2) := by decide
/-- V-CIPHER-2 and V-CIPHER-4: the LCG keystream. -/
theorem test_encryptLcg : after (exec .encryptLcg cipher) (fun t => (entries 2 t.outBuf, t.lcgState)) =
    some ([some 0x40, some 0x10FFF4], 11) := by decide
/-- V-CIPHER-6: nothing is written, not even the valid entry. -/
theorem test_encryptLcg_overflow : after (exec .encryptLcg { cipher with inBuf := [(0, 0x110000), (1, 0x41)] })
    (fun t => (t.err, t.outBuf, t.outLen)) = some (.codepointOverflow, [], 0) := by decide
/-- V-CIPHER-3. -/
theorem test_decryptBbs : after (exec .decryptBbs { cipher with inBuf := [(0, 0x49), (1, 0x68)] })
    (fun t => entries 2 t.outBuf) = some [some 0x48, some 0x69] := by decide
/-- V-CIPHER-5. -/
theorem test_decryptBbs_length : after (exec .decryptBbs { cipher with inLen := 3 }) (fun t => (t.err, t.outLen)) =
    some (.lengthMismatch, 0) := by decide
/-- V-CIPHER-3. -/
theorem test_decryptLcg : after (exec .decryptLcg { cipher with inBuf := [(0, 0x40), (1, 0x62)] })
    (fun t => entries 2 t.outBuf) = some [some 0x48, some 0x69] := by decide
/-- U5. -/
theorem test_decryptLcg_unwritten : exec .decryptLcg { cipher with inBuf := [(0, 0x40)] } = .fault (.unwrittenInput 1) := by
  rfl

/-! ## The bus and the step -/

/-- V-BUS-1 and V-BUS-2: misaligned, wrong size, unmapped, and an entry at LMAX. -/
theorem test_bus_errors : ∀ x ∈ [(0x012, 4), (0x001, 4), (0x000, 1), (0x010, 2), (0x010, 8), (0x008, 4), (0x02C, 4), (0x07C, 4),
    (0x100, 4), (0x10000 + 4 * 16, 4), (0x20000 + 8 * 16, 4), (0x50000, 4)], idle.answer x.1 x.2 = .busError := by decide
/-- V-BUS-3: a read-only register ignores a write. -/
theorem test_bus_readOnly : after (memWrite 0x80040 4 0x55 lcg) (fun t => (t.lcgState, t.err, t.overrun)) = some (1, .ok, false) := by
  decide
/-- V-BUS-4. -/
theorem test_bus_w1c : after (memWrite 0x80004 4 0x10 { idle with overrun := true }) (fun t => t.overrun) = some false ∧
    after (memWrite 0x80004 4 0xFFFFFFEF { idle with overrun := true }) (fun t => t.overrun) = some true := by decide
/-- V-LCG-10: bits 31:16 of LCG_A are ignored. -/
theorem test_bus_lcgA : after (memWrite 0x80014 4 0x00012345 idle) (fun t => t.regWord .lcgA) = some 0x2345 := by decide
/-- V-BUS-6: byte lanes 0 and 3 of BBS_M_LO, and the high word. -/
theorem test_bus_lanes : State.byteAt { bbs with bbsM := 0xFFFFFFEA00000055 } 0x058 = some 0x55 ∧
    State.byteAt { bbs with bbsM := 0xFFFFFFEA00000055 } 0x05B = some 0 ∧
    State.answer { bbs with bbsM := 0xFFFFFFEA00000055 } 0x05C 4 = .word 0xFFFFFFEA := by decide
/-- V-BUS-5(a): the write is lost and OVERRUN is set. -/
theorem test_bus_overrun : after (memWrite 0x80010 4 9 (busyWith 3 lcg)) (fun t => (t.lcgSeed, t.overrun, t.pending)) =
    some (1, true, some 3) := by decide
/-- R65: a read other than of STATUS while BUSY = 1 (V-BUS-7). -/
theorem test_bus_busyRead : (busyWith 3 lcg).answer 0x078 4 = .anyWord ∧ (busyWith 3 lcg).answer 0x004 4 = .word 0x003 := by decide
/-- The first step after reset, with a word placed, runs that word (V-LCG-14). -/
theorem test_step_first : after (step (State.reset.withFetchWord 32 0x00000002)) (fun t => (t.err, t.cmd, t.pending)) =
    some (.notLoaded, 2, none) := by decide
/-- An illegal word completes with BAD_COMMAND (95_test_vectors.md 2.4). -/
theorem test_step_illegal : after (step (State.reset.withFetchWord 32 0x80000021)) (fun t => (t.err, t.cmd, t.busy)) =
    some (.badCommand, 0x80000021, false) := by decide
/-- R89: the host's assembly writes a register. -/
theorem test_step_host : after (step { idle with program := [.wr (.place (.reg .bbsP)) 11] }) (fun t => (t.bbsP, t.program)) =
    some (11, []) := by decide
/-- R94: the assertion holds for the code of the last wait only. -/
theorem test_expectErr : after (hostAction (.expectErr .capacity) { idle with waitStatus := some 0x70E }) (fun t => t.err) = some .ok ∧
    hostAction (.expectErr .ok) { idle with waitStatus := some 0x70E } = .fault .expectationFailed := ⟨by decide, rfl⟩

/-! ## Witnesses: for every statement with hypotheses, a state and operands that meet all of them together -/

theorem cipher_invariants : Invariants cipher where
  cap := by decide
  base := ⟨1, rfl⟩
  busyErr := fun _ => rfl
  inReset := fun _ => rfl
  lcg := fun _ => by decide
  bbs := fun _ => ⟨⟨11, 23, by norm_num, by norm_num, by norm_num, by norm_num, by norm_num, rfl⟩, by decide⟩
  ks := fun _ => ⟨by decide, by decide⟩
  out := ⟨by decide, by decide⟩
  bbsResult := by decide
  mem := by decide

theorem witness_DecodeAndEncodeAgree : Instr.wellFormed .decryptLcg = true := rfl

/-- One illegal word of each line of R87, at the boundary values of its field. -/
theorem witness_IllegalWordCompletesWithBadCommand : idle.pending = none ∧ idle.inReset = false ∧
    Spec.illegalWord 0x00000401 ∧ Spec.illegalWord 0x80000021 ∧ Spec.illegalWord 0x00000000 ∧
    Spec.illegalWord 0x000000FF ∧ Spec.illegalWord 0x00000313 ∧ Spec.illegalWord 0x00000231 ∧
    Spec.illegalWord 0x00000332 ∧ Spec.illegalWord 0x00000101 := by
  refine ⟨rfl, rfl, ?_, ?_, ?_, ?_, ?_, ?_, ?_, ?_⟩ <;> unfold Spec.illegalWord <;> decide

theorem witness_StepRunsTheDecodedCommand : decode 0x00000002#32 = .legal .lcgNext ∧
    ({ busyWith 2 lcg with schedule := [.engine] } : State).schedule = .engine :: [] ∧ (busyWith 2 lcg).schedule = [] ∧
    (busyWith 2 lcg).pending = some 2 := ⟨by decide, rfl, rfl, rfl⟩

theorem witness_CmdWriteIsAcceptedOnlyWhileIdle : idle.inReset = false ∧ idle.busy = false ∧
    (busyWith 2 idle).inReset = false ∧ (busyWith 2 idle).busy = true := by decide

theorem witness_CompletionFrame : ∃ t, exec .lcgNext lcg = .next t := ⟨_, rfl⟩


/-- The host writes LCG_SEED while a command is in flight (V-BUS-5(a)). -/
theorem witness_HostCannotChangeACommandInFlight :
    (busyWith 3 lcg).pending ≠ none ∧
      ∃ t, hostStep { busyWith 3 lcg with program := [.wr (.place (.reg .lcgSeed)) 9] } = .next t ∧ t.overrun = true :=
  ⟨by decide, _, rfl, rfl⟩

theorem witness_LatencyDoesNotAffectTheResult :
    ∃ s t u : State, s.pending = some 3 ∧ decode 3 = .legal .lcgGen ∧
      s.schedule = List.replicate 1 .host ++ .engine :: [] ∧ exec .lcgGen s = .next t ∧
      Sys2Proof.core.run 2 s = .next u :=
  ⟨{ busyWith 3 lcg with schedule := [.host, .engine], program := [.wr (.place (.reg .lcgSeed)) 9] }, _, _, rfl,
    by decide, rfl, rfl, rfl⟩

theorem witness_LcgStateChangesInThreeWays :
    ∃ t, step (busyWith 2 lcg) = .next t ∧ Spec.lcgPart t ≠ Spec.lcgPart (busyWith 2 lcg) := ⟨_, rfl, by decide⟩

theorem witness_BbsStateChangesInThreeWays :
    ∃ t, step (busyWith 0x12 bbs) = .next t ∧ Spec.bbsPart t ≠ Spec.bbsPart (busyWith 0x12 bbs) :=
  ⟨_, rfl, by decide⟩

theorem witness_KeystreamsAreImmutable :
    (∃ t, step { cipher with schedule := [.assertReset] } = .next t ∧ Spec.ksPart t ≠ Spec.ksPart cipher) ∧
      ((Instr.encryptBbs, CipherMethod.bbs) ∈ Spec.cipherCommands ∧ ∃ t, exec .encryptBbs cipher = .next t) ∧
      ((Instr.decryptLcg, CipherMethod.lcg) ∈ Spec.cipherCommands ∧ ∃ t, exec .decryptLcg cipher = .next t) :=
  ⟨⟨_, rfl, by decide⟩, ⟨by decide, _, rfl⟩, by decide, _, rfl⟩

theorem witness_ParametersChangeOnlyByTheHost :
    ∃ t, step { idle with program := [.wr (.place (.reg .lcgSeed)) 9] } = .next t ∧
      Spec.hostPart t ≠ Spec.hostPart { idle with program := [.wr (.place (.reg .lcgSeed)) 9] } :=
  ⟨_, rfl, fun h => absurd (congrArg (fun x => x.2.1) h) (by decide)⟩

theorem witness_LoadedFlagsStayUntilReset :
    (∃ t, step (busyWith 2 cipher) = .next t) ∧ nextTurn (busyWith 2 cipher) ≠ .assertReset ∧
      cipher.lcgLoaded = true ∧ cipher.bbsLoaded = true ∧ cipher.constructed = true :=
  ⟨⟨_, rfl⟩, by decide, rfl, rfl, rfl⟩

theorem witness_CapIsHardwired :
    idle.busy = false ∧ ∃ t, step { idle with schedule := [.assertReset] } = .next t := ⟨rfl, _, rfl⟩

theorem witness_OverrunIsSticky :
    (∃ t, step { busyWith 3 lcg with schedule := [.host], program := [.wr (.place (.reg .lcgSeed)) 9] } = .next t ∧
      t.overrun = true) ∧
    (∃ t, step { idle with overrun := true, program := [.wr (.place (.reg .status)) 0x10] } = .next t ∧
      t.overrun = false) ∧
    ∃ t, step { idle with overrun := true, schedule := [.assertReset] } = .next t ∧ t.overrun = false :=
  ⟨⟨_, rfl, rfl⟩, ⟨_, rfl, rfl⟩, _, rfl, rfl⟩

theorem witness_FailedCommandChangesNothingElse :
    (busyWith 2 idle).pending ≠ none ∧ ∃ t, engineStep (busyWith 2 idle) = .next t ∧ t.err ≠ .ok :=
  ⟨by decide, _, rfl, by decide⟩

/-- A next state for a legal word and for an illegal one. -/
theorem witness_ErrCodesAndTheirCauses :
    (∃ t, exec .lcgNext idle = .next t ∧ t.err = .notLoaded) ∧
      (∃ t, engineStep (busyWith 2 idle) = .next t ∧ t.err ≠ .badCommand) ∧
      ∃ t, engineStep (busyWith 4 idle) = .next t ∧ t.err = .badCommand :=
  ⟨⟨_, rfl, rfl⟩, ⟨_, rfl, by decide⟩, _, rfl, rfl⟩

/-- The primes of V-BBS-1, and a pair that is rejected (V-BBS-8). -/
theorem witness_blum : Spec.blum params.bbsP.toNat params.bbsQ.toNat ∧ ¬ Spec.blum 13 23 ∧ ¬ Spec.blum 11 11 :=
  ⟨⟨show Nat.Prime 11 by norm_num, show Nat.Prime 23 by norm_num, rfl, rfl, by decide⟩, fun h => absurd h.2.2.1 (by decide),
    fun h => h.2.2.2.2 rfl⟩

/-- Each clause in the order of R166, with GEN_LEN and KEYLEN one above LMAX where a length is refused. -/
theorem witness_ErrorPriority :
    ((busyWith 4 idle).pending = some 4 ∧ Spec.illegalWord 4) ∧ idle.lcgM = 0 ∧
    (¬ Spec.blum idle.bbsP.toNat idle.bbsQ.toNat) ∧ idle.lcgLoaded = false ∧
    (lcg.lcgLoaded = true ∧ (({ lcg with genLen := 17 } : State).cap).toNat < ({ lcg with genLen := 17 } : State).genLen.toNat) ∧
    idle.bbsLoaded = false ∧
    ((Instr.bbsGenRaw, BbsMethod.raw) ∈ Spec.bbsGenCommands ∧ bbs.bbsLoaded = true ∧
      (({ bbs with genLen := 17 } : State).cap).toNat < ({ bbs with genLen := 17 } : State).genLen.toNat) ∧
    (({ params with keyLen := 17 } : State).cap).toNat < ({ params with keyLen := 17 } : State).keyLen.toNat ∧
    (({ idle with keyLen := 16 } : State).keyLen.toNat ≤ ({ idle with keyLen := 16 } : State).cap.toNat ∧ idle.lcgM = 0) ∧
    ({ params with bbsP := 13 } : State).lcgM ≠ 0 ∧
    ((Instr.encryptLcg, CipherMethod.lcg) ∈ Spec.cipherCommands ∧ idle.constructed = false) ∧
    (cipher.constructed = true ∧ ({ cipher with inLen := 3 } : State).inLen ≠ cipher.ksLen) ∧
    (Buffer.read ({ cipher with inBuf := [(0, 0x110000), (1, 0x41)] } : State).inBuf 0 = some 0x110000 ∧
      Spec.keystreamValue cipher .lcg 0 8 ∧ 0x10FFFF < (0x110000#32 ^^^ 8#32).toNat) := by
  refine ⟨⟨rfl, by unfold Spec.illegalWord; decide⟩, rfl, fun h => absurd h.2.2.1 (by decide), rfl, ⟨rfl, by decide⟩, rfl,
    ⟨by decide, rfl, by decide⟩, by decide, ⟨by decide, rfl⟩, by decide, ⟨by decide, rfl⟩, ⟨rfl, by decide⟩, rfl,
    ⟨8, rfl, rfl⟩, by decide⟩

theorem witness_LcgLoadEffect : idle.lcgM = 0 ∧ ({ params with lcgM := 1 } : State).lcgM ≠ 0 := by decide

theorem witness_LcgNextEffect : idle.lcgLoaded = false ∧ lcg.lcgLoaded = true ∧
    1 ≤ ({ lcg with lcgML := 1 } : State).lcgML.toNat := by decide

/-- GEN_LEN at 0, at LMAX and one above. -/
theorem witness_LcgGenEffect : idle.lcgLoaded = false ∧ lcg.lcgLoaded = true ∧ 1 ≤ lcg.lcgML.toNat ∧
    ({ lcg with genLen := 0 } : State).genLen.toNat ≤ lcg.cap.toNat ∧
    ({ lcg with genLen := 16 } : State).genLen.toNat ≤ lcg.cap.toNat ∧
    lcg.cap.toNat < ({ lcg with genLen := 17 } : State).genLen.toNat := by decide

theorem witness_LcgGenEqualsRepeatedNext : lcg.lcgLoaded = true ∧ lcg.genLen.toNat ≤ lcg.cap.toNat ∧
    ∃ u, Spec.execTimes .lcgNext lcg.genLen.toNat lcg = .next u := ⟨rfl, by decide, _, rfl⟩

theorem witness_LcgSequenceIsEventuallyPeriodic : 1 ≤ lcg.lcgML.toNat := by decide

/-- Seeds 1 and 17 mod 16. -/
theorem witness_LcgOutputsDependOnTheReducedSeed :
    ∃ t t' u u' : State, lcg.lcgSeed.toNat % lcg.lcgM.toNat = ({ lcg with lcgSeed := 17 } : State).lcgSeed.toNat % lcg.lcgM.toNat ∧
      lcg.lcgM ≠ 0 ∧ lcg.genLen.toNat ≤ lcg.cap.toNat ∧ exec .lcgLoad lcg = .next t ∧
      exec .lcgLoad { lcg with lcgSeed := 17 } = .next t' ∧ exec .lcgGen t = .next u ∧ exec .lcgGen t' = .next u' :=
  ⟨_, _, _, _, by decide, by decide, by decide, rfl, rfl, rfl, rfl⟩

theorem witness_BbsLoadEffect : ¬ Spec.blum idle.bbsP.toNat idle.bbsQ.toNat ∧ Spec.blum params.bbsP.toNat params.bbsQ.toNat :=
  ⟨fun h => absurd h.2.2.1 (by decide), witness_blum.1⟩

theorem witness_BbsNextEffect : idle.bbsLoaded = false ∧ bbs.bbsLoaded = true ∧ 1 ≤ bbs.bbsM.toNat := by decide

/-- GEN_LEN at 0, at LMAX and one above, for a command of each method. -/
theorem witness_BbsGenEffect : (Instr.bbsGenLsb, BbsMethod.lsb) ∈ Spec.bbsGenCommands ∧
    (Instr.bbsGenParity, BbsMethod.parity) ∈ Spec.bbsGenCommands ∧ (Instr.bbsGenRaw, BbsMethod.raw) ∈ Spec.bbsGenCommands ∧
    idle.bbsLoaded = false ∧ bbs.bbsLoaded = true ∧ 1 ≤ bbs.bbsM.toNat ∧
    ({ bbs with genLen := 0 } : State).genLen.toNat ≤ bbs.cap.toNat ∧
    ({ bbs with genLen := 16 } : State).genLen.toNat ≤ bbs.cap.toNat ∧
    bbs.cap.toNat < ({ bbs with genLen := 17 } : State).genLen.toNat := by decide

theorem witness_BbsGenEqualsRepeatedNext : (Instr.bbsGenRaw, BbsMethod.raw) ∈ Spec.bbsGenCommands ∧ bbs.bbsLoaded = true ∧
    bbs.genLen.toNat ≤ bbs.cap.toNat ∧ ∃ u, Spec.execTimes .bbsNext bbs.genLen.toNat bbs = .next u :=
  ⟨by decide, rfl, by decide, _, rfl⟩

/-- Seeds 1 and 254 mod 253, and (p, q) against (q, p) (V-BBS-4, V-BBS-9). -/
theorem witness_BbsOutputsDependOnTheReducedSeed :
    Spec.blum params.bbsP.toNat params.bbsQ.toNat ∧ Spec.blum params.bbsQ.toNat params.bbsP.toNat ∧
      params.bbsP.toNat * params.bbsQ.toNat = params.bbsQ.toNat * params.bbsP.toNat ∧ 1 % 253 = 254 % 253 ∧
      (nextState? (exec .bbsLoad { bbs with bbsSeed := 1 })).isSome = true ∧
      (nextState? (exec .bbsLoad { bbs with bbsSeed := 254, bbsP := 23, bbsQ := 11 })).isSome = true ∧
      (nextState? (exec .bbsGenRaw bbs)).isSome = true :=
  ⟨witness_blum.1, ⟨show Nat.Prime 23 by norm_num, show Nat.Prime 11 by norm_num, rfl, rfl, by decide⟩, rfl, rfl,
    by decide +kernel,
    by decide +kernel, by decide +kernel⟩

/-- The fixed points 0 and 231 of M = 253 (V-BBS-3, V-BBS-6). -/
theorem witness_FixedPointsAreNotErrors : bbs.bbsLoaded = true ∧ 1 ≤ bbs.bbsM.toNat ∧
    Spec.bbsNat bbs.bbsM.toNat ({ bbs with bbsX := 231 } : State).bbsX.toNat = 231 ∧ Spec.bbsNat 253 0 = 0 := by decide

/-- KEYLEN at 0, at LMAX and one above. -/
theorem witness_ConstructEffect : params.lcgM ≠ 0 ∧ Spec.blum params.bbsP.toNat params.bbsQ.toNat ∧
    ({ params with keyLen := 0 } : State).keyLen.toNat ≤ params.cap.toNat ∧
    ({ params with keyLen := 16 } : State).keyLen.toNat ≤ params.cap.toNat ∧
    params.cap.toNat < ({ params with keyLen := 17 } : State).keyLen.toNat ∧ idle.lcgM = 0 ∧
    ¬ Spec.blum ({ params with bbsP := 13 } : State).bbsP.toNat params.bbsQ.toNat :=
  ⟨by decide, witness_blum.1, by decide, by decide, by decide, rfl, witness_blum.2.1⟩

theorem witness_KeystreamsDependOnlyOnTheParameters :
    (after (exec .construct params) fun t => t.err) = some .ok ∧ (after (exec .construct cipher) fun t => t.err) = some .ok ∧
      params.keyLen = cipher.keyLen ∧ params.lcgSeed = cipher.lcgSeed ∧ params.bbsP = cipher.bbsP := by decide +kernel

/-- Entries at the bound 0x10FFFF and one above it; the first and the last index below IN_LEN. -/
theorem witness_XorTransformEffect : (Instr.encryptLcg, CipherMethod.lcg) ∈ Spec.cipherCommands ∧ idle.constructed = false ∧
    cipher.constructed = true ∧ ({ cipher with inLen := 3 } : State).inLen ≠ cipher.ksLen ∧ cipher.inLen = cipher.ksLen ∧
    (Buffer.read cipher.inBuf 0 = some 0x48 ∧ Spec.keystreamValue cipher .lcg 0 8) ∧
    (Buffer.read cipher.inBuf 1 = some 0x10FFFF ∧ Spec.keystreamValue cipher .lcg 1 11) ∧
    (0x10FFFF#32 ^^^ 11#32).toNat ≤ 0x10FFFF ∧ 0x10FFFF < (0x110000#32 ^^^ 8#32).toNat :=
  ⟨by decide, rfl, rfl, by decide, rfl, ⟨rfl, 8, rfl, rfl⟩, ⟨rfl, 11, rfl, rfl⟩, by decide, by decide⟩

theorem witness_OverflowExactlyOnInvalidInput : (Instr.decryptBbs, CipherMethod.bbs) ∈ Spec.cipherCommands ∧
    Invariants cipher ∧ cipher.constructed = true ∧ cipher.inLen = cipher.ksLen ∧
    (∀ j, j < cipher.inLen.toNat → (Buffer.read cipher.inBuf j).isSome = true) :=
  ⟨by decide, cipher_invariants, rfl, rfl, by decide⟩

theorem witness_CipherChangesOnlyLowBits : (Instr.encryptLcg, CipherMethod.lcg) ∈ Spec.cipherCommands ∧
    ∃ t, exec .encryptLcg cipher = .next t ∧ t.err = .ok ∧ 1 < cipher.inLen.toNat ∧
      Buffer.read cipher.inBuf 1 = some 0x10FFFF := ⟨by decide, _, rfl, rfl, by decide, rfl⟩

/-- The second entry unwritten. -/
theorem witness_UnwrittenInputIsAFault : (Instr.encryptBbs, CipherMethod.bbs) ∈ Spec.cipherCommands ∧
    Invariants { cipher with inBuf := [(0, 0x48)] } ∧ cipher.constructed = true ∧ cipher.inLen = cipher.ksLen ∧
    1 < cipher.inLen.toNat ∧ Buffer.read ({ cipher with inBuf := [(0, 0x48)] } : State).inBuf 1 = none ∧
    (∀ j', j' < 1 → (Buffer.read ({ cipher with inBuf := [(0, 0x48)] } : State).inBuf j').isSome = true) :=
  ⟨by decide, { cipher_invariants with mem := by decide }, rfl, rfl, by decide, rfl, by decide⟩

theorem witness_DecryptOfEncryptIsThePlaintext : (Instr.encryptLcg, Instr.decryptLcg) ∈
      [(Instr.encryptBbs, Instr.decryptBbs), (.encryptLcg, .decryptLcg)] ∧
    Invariants cipher ∧ cipher.constructed = true ∧ cipher.inLen = cipher.ksLen ∧
    Buffer.read cipher.inBuf 0 = some 0x48 ∧ Buffer.read cipher.inBuf 1 = some 0x10FFFF :=
  ⟨by decide, cipher_invariants, rfl, rfl, rfl, rfl⟩

/-- The largest LMAX, and the first and last entry and the offset just above each window of LMAX = 16. -/
theorem witness_RegisterMapAndWindows : 8192 ≤ 8192 ∧
    placeAt 8192 (0x20000 + 8 * 8191 + 4) = some (.outHi 8191) ∧ placeAt 8192 0x30000 = some (.ksBbs 0) ∧
    placeAt 16 (0x10000 + 4 * 15) = some (.inEntry 15) ∧ placeAt 16 (0x10000 + 4 * 16) = none ∧
    placeAt 16 (0x40000 + 4 * 15) = some (.ksLcg 15) ∧ placeAt 16 0x078 = some (.reg .cap) ∧ placeAt 16 0x07C = none := by
  decide

theorem witness_BusErrorExactly : idle.cap.toNat ≤ 8192 ∧ 0x7FFFF < 0x80000 ∧ idle.inReset = false ∧
    Spec.badAccess 16 0x010 2 ∧ Spec.badAccess 16 0x012 4 ∧ idle.base - 1 < idle.base :=
  ⟨by decide, by decide, rfl, .inl (by decide), .inr (.inl (by decide)), by decide⟩

theorem witness_ReadReturns : idle.cap.toNat ≤ 8192 ∧ (Place.ksLcg 15).wellFormed idle.cap.toNat = true ∧
    idle.inReset = false ∧ idle.busy = false ∧ (0 < cipher.ksLen.toNat ∧ Buffer.read cipher.ksLcg 0 = some 8) ∧
    (0 < ({ cipher with outLen := 1, outBuf := [(0, 0x40)] } : State).outLen.toNat ∧
      Buffer.read ({ cipher with outLen := 1, outBuf := [(0, 0x40)] } : State).outBuf 0 = some 0x40) := by decide

theorem witness_WriteDoes : idle.cap.toNat ≤ 8192 ∧ (Place.inEntry 15).wellFormed idle.cap.toNat = true ∧
    idle.inReset = false ∧ Place.inEntry 15 ≠ .reg .status ∧ (busyWith 2 idle).busy = true ∧ idle.busy = false := by decide

theorem witness_AccessesWhileBusy : Invariants (busyWith 2 cipher) ∧
    (Place.inEntry 15).wellFormed (busyWith 2 cipher).cap.toNat = true ∧ (busyWith 2 cipher).inReset = false ∧
    (busyWith 2 cipher).busy = true ∧ Place.inEntry 15 ≠ .reg .status :=
  ⟨{ cipher_invariants with busyErr := fun _ => rfl, inReset := fun h => (nomatch h) }, by decide, rfl, rfl, by decide⟩

theorem witness_ReadsHaveNoSideEffect :
    ∃ v t, memRead 0x80040 4 lcg = .next (v, t) ∧ lcg.answer (0x80040 - lcg.base) 4 = .word v := ⟨1, _, rfl, rfl⟩

theorem witness_WriteThenReadBack : idle.cap.toNat ≤ 8192 ∧ (Place.inEntry 15).wellFormed idle.cap.toNat = true ∧
    idle.busy = false ∧ idle.inReset = false ∧ (∃ i, Place.inEntry 15 = .inEntry i) ∧
    Reg.lcgA ∈ [Reg.lcgSeed, .lcgA, .lcgC, .lcgM, .bbsSeed, .bbsP, .bbsQ, .keyLen, .genLen, .inLen] :=
  ⟨by decide, by decide, rfl, rfl, ⟨15, rfl⟩, by decide⟩

theorem witness_LittleEndian : cipher.cap.toNat ≤ 8192 ∧ cipher.busy = false ∧ 7 < 8 ∧ 3 < 4 ∧
    (0 < ({ cipher with outLen := 1, outBuf := [(0, 0x40)] } : State).outLen.toNat ∧
      Buffer.read ({ cipher with outLen := 1, outBuf := [(0, 0x40)] } : State).outBuf 0 = some 0x40) := by decide

/-- Each clause, the last with two turns between assertion and release, and a state that is not the one after the assertion. -/
theorem witness_ResetAbandonsTheCommand :
    ({ busyWith 2 cipher with schedule := [.assertReset, .releaseReset] } : State).schedule = .assertReset :: [.releaseReset] ∧
      (({ idle with inReset := true, lcgSeed := 9 } : State).inReset = true ∧
        ({ idle with inReset := true, lcgSeed := 9 } : State).owns 0xFFFFF = true) ∧
      (nextTurn { idle with inReset := true } ≠ .releaseReset ∧ ∃ t, step { idle with inReset := true } = .next t) ∧
      (∃ t, Sys2Proof.core.run 4 { busyWith 2 cipher with schedule := [.assertReset, .host, .engine, .releaseReset] } = .next t) ∧
      ({ busyWith 2 cipher with schedule := [.assertReset, .host, .engine, .releaseReset] } : State).schedule =
        .assertReset :: ([.host, .engine] ++ .releaseReset :: []) ∧
      Turn.releaseReset ∉ [Turn.host, .engine] :=
  ⟨rfl, ⟨rfl, by decide⟩, ⟨by decide, _, rfl⟩, ⟨_, rfl⟩, rfl, by decide⟩

/-- A command in flight, with no turn and with two turns on the schedule. -/
theorem witness_EveryCommandCompletes : Invariants (busyWith 2 cipher) ∧ (busyWith 2 cipher).pending = some 2 ∧
    Invariants { busyWith 2 cipher with schedule := [.host, .engine] } :=
  ⟨witness_AccessesWhileBusy.1, rfl, { witness_AccessesWhileBusy.1 with mem := by decide }⟩

theorem witness_StepKeepsTheInvariants : Invariants (busyWith 2 cipher) ∧ ∃ t, step (busyWith 2 cipher) = .next t :=
  ⟨witness_AccessesWhileBusy.1, _, rfl⟩

theorem witness_WaitPollsUntilIdle : idle.inReset = false ∧ (busyWith 2 idle).busy = true ∧ idle.busy = false := by decide

theorem witness_CmdIssuesAndWaits :
    ({ lcg with program := [.cmd .lcgNext] } : State).schedule = [] ∧
      ({ lcg with program := [.cmd .lcgNext] } : State).program = .cmd .lcgNext :: [] ∧ lcg.pending = none ∧ lcg.inReset = false ∧
      ∃ t, exec .lcgNext { lcg with program := [.wait], cmd := encode .lcgNext, pending := some (encode .lcgNext), err := .ok } =
        .next t := ⟨rfl, rfl, rfl, rfl, _, rfl⟩

/-- Each clause: a program that has its end, one whose last instruction issues and does not wait, and one that only observes. -/
theorem witness_EndOfAHostProgram :
    (∃ t, programEnd 1 { cipher with program := [.wait] } = some t ∧ t.cap.toNat ≤ 8192 ∧
      (Place.ksLcg 1).wellFormed t.cap.toNat = true ∧ endValue t (placeOffset (.ksLcg 1)) = some 11) ∧
    (({ lcg with program := [.wait, .issue .lcgNext, .rd (.place (.reg .cmd)) none] } : State).program =
        [.wait, .issue .lcgNext] ++ [.rd (.place (.reg .cmd)) none] ∧
      [HostInstr.rd (.place (.reg .cmd)) none].all observes = true ∧
      [HostInstr.wait, .issue .lcgNext].getLast? = some (.issue .lcgNext) ∧
      observes (.issue .lcgNext) = false ∧ observes (.rd (.place (.reg .cmd)) none) = true) ∧
    (lcg.schedule = [] ∧ lcg.pending = none ∧ lcg.inReset = false) ∧
    ∃ t, exec .lcgNext { lcg with program := [.wait], cmd := encode .lcgNext, pending := some (encode .lcgNext), err := .ok } =
      .next t :=
  ⟨⟨_, rfl, by decide, by decide, rfl⟩, by decide, by decide, _, rfl⟩

/-! ## The end of a host program (70_reset_and_hazards.md R190) -/

/-- P1 ends with reads after its last `wait`. -/
theorem test_end_after_reads :
    ((programEnd 2 { lcg with program := [.wait, .rd (.place (.reg .lcgState)) (some 1)] }).map fun t =>
      (endValue t 0x040, endValue t 0x004, endValue t 0x10000)) = some (some 1, some 0x002, none) := by decide

/-- R190: a program that ends with BUSY = 1 has no end state, not even once the engine has moved. -/
theorem test_no_end_after_issue : programEnd 4 { lcg with program := [.issue .lcgNext] } = none := by decide

/-- No end state while reset is asserted, and no end counts once reset has come after the last `wait`. -/
theorem test_no_end_after_reset :
    endValue { lcg with inReset := true } 0x040 = none ∧
      programEnd 4 { lcg with
        program := [.wait, .rd (.place (.reg .lcgState)) none]
        schedule := [.host, .assertReset, .releaseReset, .host] } = none := by decide

end Sys2Proof.Tests
end

section
/-! The invariants hold in the reset state and every step keeps them (10_state.md R55): one lemma for each update of the state,
named for the update, then one for each agent's step, and from them the two statements. -/

namespace Sys2Proof.Machine

/-! ## Reset -/

theorem LMAX_bounds : 1 ≤ Config.LMAX ∧ Config.LMAX ≤ 8192 := by
  have := Config.lmaxPred.isLt
  unfold Config.LMAX
  omega

theorem State.reset_cap_toNat : State.reset.cap.toNat = Config.LMAX := by
  have := LMAX_bounds.2
  rw [State.reset_cap, BitVec.toNat_ofNat]
  exact Nat.mod_eq_of_lt (by omega)

/-- The reset values of BBS_PAR and BBS_LSB are those of the reset value of BBS_RAW (R180). -/
theorem resultBits_zero : (0 : BitVec 1) = evenParityBit 0 ∧ (0 : BitVec 1) = leastSignificantBit 0 := by decide

/-- Asserting reset meets the invariants in every state whose wired parameters do (R9, R180, R181). -/
theorem State.assertReset_invariants {s : State} (hcap : 1 ≤ s.cap.toNat ∧ s.cap.toNat ≤ 8192)
    (hbase : 0x80000 ∣ s.base) : Invariants s.assertReset where
  cap := hcap
  base := hbase
  busyErr _ := rfl
  inReset _ := rfl
  lcg := nofun
  bbs := nofun
  ks := nofun
  out := ⟨Nat.zero_le _, fun i hi => absurd hi (Nat.not_lt_zero i)⟩
  bbsResult := resultBits_zero
  mem := rfl

theorem Invariants.releaseReset {s : State} (h : Invariants s) : Invariants s.releaseReset :=
  { h with inReset := nofun }

/-- Settles O53: the reset state is what asserting and then releasing reset leaves of it. -/
theorem resetMeetsTheInvariants : Obligations.ResetMeetsTheInvariants := by
  have hcap : 1 ≤ State.reset.cap.toNat ∧ State.reset.cap.toNat ≤ 8192 := by
    rw [State.reset_cap_toNat]; exact LMAX_bounds
  have hbase : 0x80000 ∣ State.reset.base := Dvd.intro _ rfl
  exact (State.assertReset_invariants hcap hbase).releaseReset

/-! ## The host -/

/-- The invariants are about the block only. -/
theorem Invariants.of_sameBlock {s t : State} (h : Invariants s) (ht : State.sameBlock s t) : Invariants t := by
  unfold State.sameBlock at ht
  rw [ht]
  exact { h with }

theorem Invariants.accept {s : State} (h : Invariants s) (hr : s.inReset = false) (w : Word) : Invariants (s.accept w) :=
  { h with
    busyErr := fun _ => rfl
    inReset := fun hr' => absurd (hr.symm.trans hr') Bool.false_ne_true }

/-- A host write keeps the invariants: only an acceptance touches PENDING and ERR, and no write touches what R55 speaks of
but an IN entry (R61). -/
theorem Invariants.writePlace {s : State} {p : Place} (h : Invariants s) (hp : p.wellFormed s.lmax = true)
    (hr : s.inReset = false) (v : Word) : Invariants (s.writePlace p v) := by
  have hmem := writePlace_mem (v := v) hp h.mem
  obtain ⟨_, e⟩ | ⟨_, _, e⟩ | ⟨_, _, e⟩ := writePlace_cases s p v
  · rw [e, writeStatus_eq]
    exact { h with }
  · rw [e]
    exact { h with }
  · obtain ⟨_, ea⟩ | ⟨_, hpending, herr⟩ := writeIdle_pending s p v
    · rw [e, ea]
      exact h.accept hr v
    · rw [e, writeIdle_frame] at hmem ⊢
      exact { h with
        busyErr := fun hb => herr.trans (h.busyErr (hpending ▸ hb))
        inReset := fun hi => hpending.trans (h.inReset hi)
        mem := hmem }

theorem Invariants.hostStep {s t : State} (h : Invariants s) (hs : hostStep s = .next t) : Invariants t := by
  obtain ⟨hb, _⟩ | ⟨p, v, pr, hp, hr, rfl⟩ := hostStep_cases hs
  · exact h.of_sameBlock hb
  · exact (h.of_sameBlock (State.sameBlock_program s pr)).writePlace hp hr v

/-! ## The updates that commands are made of -/

theorem Invariants.finish {s : State} (h : Invariants s) (e : ErrCode) : Invariants (s.finish e) :=
  { h with
    busyErr := fun hb => absurd rfl hb
    inReset := fun _ => rfl }

/-- A new LCG value below the latched modulus keeps the invariants (R55(a)). -/
theorem Invariants.setLcg {s : State} (h : Invariants s) (x : Word) (o : BitVec 7) (hx : x.toNat < s.lcgML.toNat) :
    Invariants { s with lcgState := x, lcgOut := o } :=
  { h with
    lcg := fun _ => ⟨Nat.one_le_of_lt hx, hx⟩ }

/-- A new BBS value below the modulus, with result bits that are those of the raw value, keeps the invariants (R55(b)). -/
theorem Invariants.setBbs {s : State} (h : Invariants s) (x r : DWord) (p l : BitVec 1) (hx : x.toNat < s.bbsM.toNat)
    (hr : p = evenParityBit r ∧ l = leastSignificantBit r) :
    Invariants { s with bbsX := x, bbsRaw := r, bbsPar := p, bbsLsb := l } :=
  { h with
    bbs := fun hl => ⟨(h.bbs hl).1, hx⟩
    bbsResult := hr }

theorem Invariants.loadLcg {s : State} (h : Invariants s) (hm : s.lcgM ≠ 0) : Invariants s.loadLcg := by
  have hpos : 0 < s.lcgM.toNat := Nat.pos_of_ne_zero fun h0 => hm (BitVec.eq_of_toNat_eq h0)
  refine { h with lcg := fun _ => ⟨hpos, ?_⟩ }
  rw [State.loadLcg_lcgState, State.loadLcg_lcgML, BitVec.toNat_ofNat]
  exact (Nat.mod_le _ _).trans_lt (Nat.mod_lt _ hpos)

theorem Invariants.loadBbs {s : State} (h : Invariants s) (hb : blumOk s.bbsP s.bbsQ = true) : Invariants s.loadBbs := by
  obtain ⟨hp, hq, hp3, hq3, hne⟩ := (blumOk_iff _ _).1 hb
  have hM : s.loadBbs.bbsM.toNat = s.bbsP.toNat * s.bbsQ.toNat := by
    rw [State.loadBbs_bbsM, BitVec.toNat_ofNat, Nat.mod_eq_of_lt (mul_words_lt _ _)]
  refine { h with bbs := fun _ => ⟨⟨_, _, hp, hq, hp3, hq3, hne, hM⟩, ?_⟩ }
  rw [hM, State.loadBbs_bbsX, BitVec.toNat_ofNat]
  exact (Nat.mod_le _ _).trans_lt (Nat.mod_lt _ (Nat.mul_pos hp.pos hq.pos))

/-- Every entry below the number of values that `writeFrom` puts from entry 0 on is written. -/
theorem Buffer.isSome_read_writeFrom {w : Nat} (b : Buffer w) (vs : List (BitVec w)) {i : Nat} (hi : i < vs.length) :
    (Buffer.read (Buffer.writeFrom b 0 vs) i).isSome = true := by
  rw [Buffer.read_writeFrom, if_pos ⟨Nat.zero_le i, by omega⟩, Nat.sub_zero, List.getElem?_eq_getElem hi]
  rfl

theorem Memory.wf_iff (s : State) :
    Memory.wf s = true ↔ Buffer.wf s.lmax s.inBuf = true ∧ Buffer.wf s.lmax s.outBuf = true ∧
      Buffer.wf s.lmax s.ksBbs = true ∧ Buffer.wf s.lmax s.ksLcg = true := by
  simp only [Memory.wf, Bool.and_eq_true, and_assoc]

/-- Writing `n` results into OUT and `n` into OUT_LEN keeps the invariants (R55(d)). -/
theorem Invariants.writeOut {s : State} (h : Invariants s) (vs : List DWord) (n : Word) (hn : vs.length = n.toNat)
    (hcap : n.toNat ≤ s.lmax) : Invariants { s with outBuf := Buffer.writeFrom s.outBuf 0 vs, outLen := n } := by
  obtain ⟨hin, hout, hbbs, hlcg⟩ := (Memory.wf_iff s).1 h.mem
  have hout' := Buffer.wf_writeFrom vs s.outBuf 0 (by omega) hout
  exact { h with
    out := ⟨hcap, fun i hi => Buffer.isSome_read_writeFrom _ _ (hn ▸ hi)⟩
    mem := (Memory.wf_iff _).2 ⟨hin, hout', hbbs, hlcg⟩ }

/-- Writing two keystreams of `n` values and `n` into KS_LEN keeps the invariants (R55(c)). -/
theorem Invariants.writeKeystreams {s : State} (h : Invariants s) (ls : List (BitVec 7)) (bs : List (BitVec 1)) (n : Word)
    (hls : ls.length = n.toNat) (hbs : bs.length = n.toNat) (hcap : n.toNat ≤ s.lmax) :
    Invariants { s with
      ksLcg := Buffer.writeFrom s.ksLcg 0 ls, ksBbs := Buffer.writeFrom s.ksBbs 0 bs, ksLen := n, constructed := true } := by
  obtain ⟨hin, hout, hbbs, hlcg⟩ := (Memory.wf_iff s).1 h.mem
  have hbbs' := Buffer.wf_writeFrom bs s.ksBbs 0 (by omega) hbbs
  have hlcg' := Buffer.wf_writeFrom ls s.ksLcg 0 (by omega) hlcg
  exact { h with
    ks := fun _ => ⟨hcap, fun i hi =>
      ⟨Buffer.isSome_read_writeFrom _ _ (hbs ▸ hi), Buffer.isSome_read_writeFrom _ _ (hls ▸ hi)⟩⟩
    mem := (Memory.wf_iff _).2 ⟨hin, hout, hbbs', hlcg'⟩ }

/-- BBS steps keep BBS_PAR and BBS_LSB those of BBS_RAW, also when there is no step (R39, R40, R41). -/
theorem bbsTicks_resultBits (n : Nat) (s : State)
    (hs : s.bbsPar = evenParityBit s.bbsRaw ∧ s.bbsLsb = leastSignificantBit s.bbsRaw) :
    (State.bbsTicks n s).2.bbsPar = evenParityBit (State.bbsTicks n s).2.bbsRaw ∧
      (State.bbsTicks n s).2.bbsLsb = leastSignificantBit (State.bbsTicks n s).2.bbsRaw := by
  induction n generalizing s with
  | zero => exact hs
  | succ n ih => exact ih s.bbsTick ⟨rfl, rfl⟩

/-! ### The drain of CONSTRUCT, field by field (R140) -/

theorem drain_lcgState (n : Nat) (s : State) : (s.drain n).lcgState = (State.lcgTicks n s).2.lcgState := by rw [drain_eq]

theorem drain_bbsX (n : Nat) (s : State) : (s.drain n).bbsX = (State.bbsTicks n s).2.bbsX := by rw [drain_eq]

theorem drain_ksLcg (n : Nat) (s : State) :
    (s.drain n).ksLcg = Buffer.writeFrom s.ksLcg 0 (State.lcgTicks n s).1 := by rw [drain_eq]

theorem drain_ksBbs (n : Nat) (s : State) :
    (s.drain n).ksBbs = Buffer.writeFrom s.ksBbs 0 ((State.bbsTicks n s).1.map BbsOut.lsb) := by rw [drain_eq]

/-- The drain's BBS steps come last, and its LCG steps leave the result registers alone. -/
theorem drain_resultBits (n : Nat) (s : State)
    (hs : s.bbsPar = evenParityBit s.bbsRaw ∧ s.bbsLsb = leastSignificantBit s.bbsRaw) :
    (s.drain n).bbsPar = evenParityBit (s.drain n).bbsRaw ∧ (s.drain n).bbsLsb = leastSignificantBit (s.drain n).bbsRaw := by
  refine bbsTicks_resultBits n (State.lcgTicks n s).2 ?_
  rw [lcgTicks_frame]
  exact hs

/-- CONSTRUCT's drain over `n` entries keeps the invariants: `d` is the state it leaves, of which CONSTRUCT takes the values of
the two generators, the result registers and the keystreams. -/
theorem Invariants.drain {s d : State} {n : Word} (h : Invariants s) (hl : s.lcgLoaded = true) (hb : s.bbsLoaded = true)
    (hn : n.toNat ≤ s.lmax) (hd : d = s.drain n.toNat) :
    Invariants { s with
      lcgState := d.lcgState, lcgOut := d.lcgOut, bbsX := d.bbsX, bbsRaw := d.bbsRaw, bbsPar := d.bbsPar
      bbsLsb := d.bbsLsb, ksLcg := d.ksLcg, ksBbs := d.ksBbs, ksLen := n, constructed := true } := by
  subst hd
  have hx : (s.drain n.toNat).lcgState.toNat < s.lcgML.toNat := by
    rw [drain_lcgState]; exact lcgTicks_lt _ _ (h.lcg hl).2
  have hy : (s.drain n.toNat).bbsX.toNat < s.bbsM.toNat := by
    rw [drain_bbsX]; exact bbsTicks_lt _ _ (h.bbs hb).2
  have hgen := (h.setLcg _ (s.drain n.toNat).lcgOut hx).setBbs _ _ _ _ hy (drain_resultBits n.toNat s h.bbsResult)
  rw [drain_ksLcg, drain_ksBbs]
  exact hgen.writeKeystreams _ _ n (lcgTicks_length _ _) (by rw [List.length_map, bbsTicks_length]) hn

/-! ## The engine -/

/-- Every completion keeps the invariants: each is one of the updates above, or some of them in turn. -/
theorem Completion.invariants {i : Instr} {s t : State} (h : Invariants s) (hc : Completion i s t) : Invariants t := by
  cases hc with
  | failed e _ _ => exact h.finish e
  | lcgLoad _ hm => exact (h.loadLcg hm).finish .ok
  | lcgNext _ hl => exact (h.setLcg _ _ (lcgTicks_lt 1 s (h.lcg hl).2)).finish .ok
  | lcgGen _ hl hn =>
    have hu := h.setLcg _ (State.lcgTicks s.genCount s).2.lcgOut (lcgTicks_lt s.genCount s (h.lcg hl).2)
    exact (hu.writeOut _ s.genLen (by rw [List.length_map, lcgTicks_length]) hn).finish .ok
  | bbsLoad _ hb => exact (h.loadBbs hb).finish .ok
  | bbsNext _ hl => exact (h.setBbs _ _ _ _ (bbsTicks_lt 1 s (h.bbs hl).2) ⟨rfl, rfl⟩).finish .ok
  | bbsGen m _ hl hn =>
    have hu := h.setBbs _ _ _ _ (bbsTicks_lt s.genCount s (h.bbs hl).2) (bbsTicks_resultBits s.genCount s h.bbsResult)
    exact (hu.writeOut _ s.genLen (by rw [List.length_map, bbsTicks_length]) hn).finish .ok
  | construct d _ hn hm hb hd => exact (((h.loadLcg hm).loadBbs hb).drain rfl rfl hn hd).finish .ok
  | cipher m rs _ hcon hl hr _ =>
    obtain ⟨hlen, _⟩ := xorFrom_ok hr
    have hcap : s.inLen.toNat ≤ s.lmax := hl ▸ (h.ks hcon).1
    exact (h.writeOut _ s.inLen (by rw [List.length_map, hlen]) hcap).finish .ok

theorem Invariants.engineStep {s t : State} (h : Invariants s) (hs : engineStep s = .next t) : Invariants t := by
  obtain ⟨_, rfl⟩ | ⟨_, _, ⟨_, _, rfl⟩ | ⟨_, _, he⟩⟩ := engineStep_cases hs
  · exact h
  · exact h.finish _
  · exact (exec_cases he).invariants h

/-! ## The step -/

/-- Settles O54, by the turn that the step takes. -/
theorem stepKeepsTheInvariants : Obligations.StepKeepsTheInvariants := by
  intro s t h hs
  obtain ⟨u, rfl, hturn⟩ := step_cases hs
  have hu : Invariants { s with schedule := s.schedule.tail } := h.of_sameBlock (State.sameBlock_schedule s _)
  obtain ⟨_, hhost⟩ | ⟨_, hengine⟩ | ⟨_, rfl⟩ | ⟨_, rfl⟩ := hturn
  · exact hu.hostStep hhost
  · exact hu.engineStep hengine
  · exact State.assertReset_invariants hu.cap hu.base
  · exact hu.releaseReset

end Sys2Proof.Machine
end

section
/-! Illegal words, the engine's step on a decoded word, and accesses at the registers of the map: what the statements about a
command's acceptance and completion share (10_state.md R22, 30_encoding.md R86, R87). -/

namespace Sys2Proof.Machine

/-! ## Which words are illegal (R87) -/

theorem splitWord_op_toNat (w : Word) : (splitWord w).op.toNat = w.toNat % 256 := by
  simp [splitWord]

theorem splitWord_method_toNat (w : Word) : (splitWord w).method.toNat = w.toNat / 256 % 4 := by
  simp [splitWord, Nat.shiftRight_eq_div_pow]

theorem splitWord_rsvd_toNat (w : Word) : (splitWord w).rsvd.toNat = w.toNat / 1024 := by
  have := w.isLt
  simp only [splitWord, BitVec.extractLsb'_toNat, Nat.shiftRight_eq_div_pow]
  omega

theorem isSome_operationOf (op : BitVec 8) : (operationOf op).isSome = legalOps.contains op := by
  unfold operationOf
  split_ifs <;> simp_all [legalOps]

theorem isSome_instrOf {op : BitVec 8} {o : Operation} (h : operationOf op = some o) (m : BitVec 2) :
    (instrOf o m).isSome = decide (m.toNat < methodCount op) := by
  unfold operationOf at h
  split_ifs at h
  all_goals
    cases h
    subst op
    revert m
    decide

/-- The decoder rejects exactly the fields that are not well formed (R86). -/
theorem decodeFields_illegal_iff (f : CommandFields) :
    (∃ why, decodeFields f = .illegal why) ↔ f.wellFormed = false := by
  unfold decodeFields CommandFields.wellFormed CommandFields.rsvdOk CommandFields.opOk CommandFields.methodOk
  rw [← isSome_operationOf]
  by_cases hr : f.rsvd = 0#22
  · rw [if_neg (not_not.2 hr)]
    cases ho : operationOf f.op with
    | none => simp
    | some o =>
      rw [← isSome_instrOf ho]
      cases hi : instrOf o f.method <;> simp [hr, hi]
  · simp [hr]

theorem mem_legalOps_iff (op : BitVec 8) :
    op ∈ legalOps ↔ op.toNat ∈ [0x01, 0x02, 0x03, 0x11, 0x12, 0x13, 0x21, 0x31, 0x32] := by
  simp [legalOps, ← BitVec.toNat_inj]

/-- METHOD is illegal for OP as R87 lists it. -/
theorem methodCount_le_iff (op : BitVec 8) (m : BitVec 2) :
    methodCount op ≤ m.toNat ↔ (op.toNat = 0x13 ∧ m.toNat = 3) ∨
      ((op.toNat = 0x31 ∨ op.toNat = 0x32) ∧ (m.toNat = 2 ∨ m.toNat = 3)) ∨
      (op.toNat ≠ 0x13 ∧ op.toNat ≠ 0x31 ∧ op.toNat ≠ 0x32 ∧ m.toNat ≠ 0) := by
  have := m.isLt
  simp only [methodCount, ← BitVec.toNat_inj, BitVec.toNat_ofNat]
  split_ifs <;> omega

/-- The fields that are not well formed make the words that R87 lists. -/
theorem wellFormed_splitWord_iff (w : Word) : (splitWord w).wellFormed = false ↔ Spec.illegalWord w := by
  have hrsvd : (splitWord w).rsvd = 0#22 ↔ w.toNat / 1024 = 0 := by
    rw [← splitWord_rsvd_toNat, ← BitVec.toNat_inj]; rfl
  have hop := mem_legalOps_iff (splitWord w).op
  have hmethod := methodCount_le_iff (splitWord w).op (splitWord w).method
  rw [splitWord_op_toNat] at hop hmethod
  rw [splitWord_method_toNat] at hmethod
  simp only [CommandFields.wellFormed, CommandFields.rsvdOk, CommandFields.opOk, CommandFields.methodOk,
    Bool.and_eq_false_iff, decide_eq_false_iff_not, List.contains_eq_mem, not_lt, splitWord_method_toNat, hrsvd, hop,
    hmethod, or_assoc]
  exact Iff.rfl

/-- The decoder rejects exactly the words R87 lists. -/
theorem decode_illegal_iff (w : Word) : (∃ why, decode w = .illegal why) ↔ Spec.illegalWord w :=
  (decodeFields_illegal_iff _).trans (wellFormed_splitWord_iff w)

/-! ## The engine's step on the word in flight (R22(3), R86, R87) -/

theorem engineStep_legal {s : State} {w : Word} {i : Instr} (hp : s.pending = some w) (hd : decode w = .legal i) :
    engineStep s = exec i s := by
  simp only [engineStep, hp, hd]

theorem engineStep_illegal {s : State} {w : Word} (hp : s.pending = some w) (hw : Spec.illegalWord w) :
    engineStep s = .next (s.finish .badCommand) := by
  obtain ⟨why, hd⟩ := (decode_illegal_iff w).2 hw
  simp only [engineStep, hp, hd, raise]

theorem busy_of_pending {s : State} {w : Word} (hp : s.pending = some w) : s.busy = true := by
  rw [State.busy, hp]; rfl

theorem busy_eq_false_iff {s : State} : s.busy = false ↔ s.pending = none := by
  rw [State.busy, Option.isSome_eq_false_iff, Option.isNone_iff_eq_none]

/-- With no turn on the schedule and a command in flight, the turn is the engine's (R185). -/
theorem step_nil_busy {s : State} {w : Word} (hs : s.schedule = []) (hp : s.pending = some w) : step s = engineStep s := by
  rw [step_nil hs, defaultTurn, busy_of_pending hp]; rfl

/-! ## Accesses at the registers, for every LMAX (R52) -/

theorem placeAt_reg (lmax : Nat) (r : Reg) : placeAt lmax (regOffset r) = some (.reg r) := by
  obtain ⟨hlt, hmod⟩ := regOffset_lt r
  rw [placeAt, if_neg (by omega), if_pos hlt, find_reg]; rfl

/-- The answer at a register while BUSY = 0 is its word (R60). -/
theorem answer_reg {s : State} (r : Reg) (hb : s.busy = false) : s.answer (regOffset r) 4 = .word (s.regWord r) := by
  simp only [State.answer, decodeAccess, if_pos, placeAt_reg, hb, State.placeWord, Bool.false_and, Bool.false_eq_true,
    if_false]

theorem memWrite_reg {s : State} (r : Reg) (v : Word) (hr : s.inReset = false) :
    memWrite (s.base + regOffset r) 4 v s = .next (s.writePlace (.reg r) v) := by
  have hlt := (regOffset_lt r).1
  have hown : s.owns (s.base + regOffset r) = true := by
    simp only [State.owns, Bool.and_eq_true, decide_eq_true_eq]
    omega
  simp only [memWrite, hown, hr, Nat.add_sub_cancel_left, decodeAccess, placeAt_reg, if_true, if_false,
    Bool.false_eq_true]

/-- A CMD write while BUSY = 0 accepts the word (R22(2)). -/
theorem memWrite_cmd_idle {s : State} (w : Word) (hr : s.inReset = false) (hb : s.busy = false) :
    memWrite s.base 4 w s = .next (s.accept w) := by
  have h := memWrite_reg .cmd w hr
  rw [State.writePlace, if_neg (by decide), hb] at h
  exact h

/-! ## Acceptance and completion -/

/-- Settles O8: CMD is the register at offset 0, and a write to a register other than STATUS is lost while busy. -/
theorem cmdWriteIsAcceptedOnlyWhileIdle : Obligations.CmdWriteIsAcceptedOnlyWhileIdle := by
  intro s w hr
  refine ⟨memWrite_cmd_idle w hr, fun hb => ?_⟩
  have h := memWrite_reg .cmd w hr
  rw [State.writePlace, if_neg (by decide), if_pos hb] at h
  exact h

/-- Settles O5: the word is accepted, and the engine's step raises BAD_COMMAND on it. -/
theorem illegalWordCompletesWithBadCommand : Obligations.IllegalWordCompletesWithBadCommand := by
  intro s w hp hr hw
  refine ⟨s.accept w, memWrite_cmd_idle w hr (busy_eq_false_iff.2 hp), rfl, rfl, rfl, ?_⟩
  rw [engineStep_illegal (State.accept_pending s w) hw, State.finish, State.accept, ← hp]

/-- Settles O7: each of the three steps is the engine's on a state with `w` in flight. -/
theorem stepRunsTheDecodedCommand : Obligations.StepRunsTheDecodedCommand := by
  intro s w i hd
  refine ⟨fun rest hs hp => ?_, fun hs hp => ?_, ?_⟩
  · rw [step_cons hs]
    exact engineStep_legal hp hd
  · rw [step_nil_busy hs hp, engineStep_legal hp hd]
  · have hw : BitVec.ofNat 32 (w.toNat % 2 ^ 32) = w := by
      rw [Nat.mod_eq_of_lt w.isLt, BitVec.ofNat_toNat, BitVec.setWidth_eq]
    rw [State.withFetchWord, hw, step_cons (s := loadWord s w) rfl]
    exact engineStep_legal (s := { s.accept w with inReset := false }) rfl hd

end Sys2Proof.Machine
end

section
/-! The STATUS word, and what a step leaves alone: completion, the host's turn, and each field that only some turns may change
(10_state.md R22, R23, R83). -/

namespace Sys2Proof.Machine

/-! ## The STATUS word (R23) -/

theorem toNat_append_eq {m n : Nat} (x : BitVec m) (y : BitVec n) : (x ++ y).toNat = x.toNat * 2 ^ n + y.toNat := by
  rw [BitVec.toNat_append, ← Nat.shiftLeft_add_eq_or_of_lt y.isLt, Nat.shiftLeft_eq]

theorem ite_eq_mul_toNat (b : Bool) (n : Nat) : (if b = true then n else 0) = n * b.toNat := by
  cases b <;> simp

theorem ite_pending_eq_toNat_busy (s : State) : (if s.pending = none then 0 else 1) = s.busy.toNat := by
  rw [State.busy]
  cases s.pending <;> rfl

/-- Settles O50: the word is read off its bits, from the highest field down. -/
theorem statusFields : Obligations.StatusFields := by
  intro s
  simp only [State.statusWord, toNat_append_eq, BitVec.toNat_ofBool, BitVec.toNat_ofNat, Spec.statusNat,
    ite_eq_mul_toNat, ite_pending_eq_toNat_busy]
  ring

/-- Bits 11:8 of STATUS are the code of ERR (R23). -/
theorem statusErrField_statusWord (s : State) : statusErrField s.statusWord = s.err.code := by
  apply BitVec.eq_of_toNat_eq
  have hlow : s.statusWord.toNat / 256 = s.err.code.toNat := by
    rw [statusFields s, Spec.statusNat]
    simp only [ite_eq_mul_toNat, ite_pending_eq_toNat_busy]
    have := s.busy.toNat_le
    have := s.lcgLoaded.toNat_le
    have := s.bbsLoaded.toNat_le
    have := s.constructed.toNat_le
    have := s.overrun.toNat_le
    omega
  have hcode := s.err.code.isLt
  rw [statusErrField, BitVec.extractLsb'_toNat, Nat.shiftRight_eq_div_pow, hlow, Nat.mod_eq_of_lt hcode]

/-! ## Completion -/

/-- Settles O9, completion by completion. -/
theorem completionFrame : Obligations.CompletionFrame := by
  intro i s t h
  cases exec_cases h with
  | failed e _ _ => rfl
  | lcgLoad _ _ => rfl
  | lcgNext _ _ => rfl
  | lcgGen _ _ _ => rfl
  | bbsLoad _ _ => rfl
  | bbsNext _ _ => rfl
  | bbsGen m _ _ _ => rfl
  | construct d _ _ _ _ _ => rfl
  | cipher m rs _ _ _ _ _ => rfl

/-- After a command nothing is in flight (R22(3)). -/
theorem exec_pending {i : Instr} {s t : State} (h : exec i s = .next t) : t.pending = none := by
  rw [completionFrame i s t h]

/-- The engine's step keeps what the host has written, OVERRUN and the wired parameters (R83). -/
theorem engineStep_keeps {s t : State} (h : engineStep s = .next t) :
    Spec.hostPart t = Spec.hostPart s ∧ t.overrun = s.overrun ∧ t.cap = s.cap ∧ t.base = s.base := by
  obtain ⟨_, rfl⟩ | ⟨w, _, ⟨_, _, rfl⟩ | ⟨i, _, he⟩⟩ := engineStep_cases h
  · exact ⟨rfl, rfl, rfl, rfl⟩
  · exact ⟨rfl, rfl, rfl, rfl⟩
  · rw [completionFrame i s t he]
    exact ⟨rfl, rfl, rfl, rfl⟩

/-- A loaded flag that is 1 stays 1 through every completion (R23). -/
theorem exec_flags {i : Instr} {s t : State} (h : exec i s = .next t) :
    (s.lcgLoaded = true → t.lcgLoaded = true) ∧ (s.bbsLoaded = true → t.bbsLoaded = true) ∧
      (s.constructed = true → t.constructed = true) := by
  cases exec_cases h with
  | failed e _ _ => exact ⟨id, id, id⟩
  | lcgLoad _ _ => exact ⟨fun _ => rfl, id, id⟩
  | lcgNext _ _ => exact ⟨id, id, id⟩
  | lcgGen _ _ _ => exact ⟨id, id, id⟩
  | bbsLoad _ _ => exact ⟨id, fun _ => rfl, id⟩
  | bbsNext _ _ => exact ⟨id, id, id⟩
  | bbsGen m _ _ _ => exact ⟨id, id, id⟩
  | construct d _ _ _ _ _ => exact ⟨fun _ => rfl, fun _ => rfl, fun _ => rfl⟩
  | cipher m rs _ _ _ _ _ => exact ⟨id, id, id⟩

/-! ## The host's turn -/

/-- A host step keeps the loaded flags, the wired parameters and the schedule (R61). -/
theorem hostStep_keeps {s t : State} (h : hostStep s = .next t) :
    t.lcgLoaded = s.lcgLoaded ∧ t.bbsLoaded = s.bbsLoaded ∧ t.constructed = s.constructed ∧ t.cap = s.cap ∧
      t.base = s.base ∧ t.schedule = s.schedule := by
  obtain ⟨hb, hs⟩ | ⟨p, v, pr, _, _, rfl⟩ := hostStep_cases h
  · unfold State.sameBlock at hb
    rw [hb]
    exact ⟨rfl, rfl, rfl, rfl, rfl, hs⟩
  · obtain ⟨_, e⟩ | ⟨_, _, e⟩ | ⟨_, _, e⟩ := writePlace_cases { s with program := pr } p v
    · rw [e, writeStatus_eq]
      exact ⟨rfl, rfl, rfl, rfl, rfl, rfl⟩
    · rw [e]
      exact ⟨rfl, rfl, rfl, rfl, rfl, rfl⟩
    · rw [e, writeIdle_frame]
      exact ⟨rfl, rfl, rfl, rfl, rfl, rfl⟩

/-- A host step changes the block, but for OVERRUN, only while BUSY = 0 and reset is released (R65, R181). -/
theorem hostStep_sameBlock {s t : State} (h : hostStep s = .next t) :
    State.sameBlock { s with overrun := t.overrun } t ∨ (s.pending = none ∧ s.inReset = false) := by
  obtain ⟨hb, _⟩ | ⟨p, v, pr, _, hr, rfl⟩ := hostStep_cases h
  · unfold State.sameBlock at hb
    left
    rw [hb]
    rfl
  · obtain ⟨_, e⟩ | ⟨_, _, e⟩ | ⟨_, hidle, _⟩ := writePlace_cases { s with program := pr } p v
    · left
      rw [e, writeStatus_eq]
      rfl
    · left
      rw [e]
      rfl
    · exact .inr ⟨busy_eq_false_iff.1 hidle, hr⟩

/-- Settles O11: a write while BUSY = 1 reaches STATUS or sets OVERRUN. -/
theorem hostCannotChangeACommandInFlight : Obligations.HostCannotChangeACommandInFlight := by
  intro s t hp h
  exact (hostStep_sameBlock h).resolve_right fun hidle => hp hidle.1

/-! ## The step -/

/-- Settles O16: the engine's step keeps what the host has written, and so does a host step that may not touch the block. -/
theorem parametersChangeOnlyByTheHost : Obligations.ParametersChangeOnlyByTheHost := by
  intro s t h hne
  obtain ⟨_, rfl, ⟨hturn, hs⟩ | ⟨_, hs⟩ | ⟨hturn, _⟩ | ⟨_, rfl⟩⟩ := step_cases h
  · obtain hb | hidle := hostStep_sameBlock hs
    · unfold State.sameBlock at hb
      refine absurd ?_ hne
      rw [hb]
      rfl
    · exact .inr ⟨hturn, hidle⟩
  · exact absurd (engineStep_keeps hs).1 hne
  · exact .inl hturn
  · exact absurd rfl hne

/-- Settles O17: no completion clears a flag, and no host step touches one. -/
theorem loadedFlagsStayUntilReset : Obligations.LoadedFlagsStayUntilReset := by
  intro s t h hturn
  obtain ⟨_, rfl, ⟨_, hs⟩ | ⟨_, hs⟩ | ⟨hreset, _⟩ | ⟨_, rfl⟩⟩ := step_cases h
  · obtain ⟨hlcg, hbbs, hcon, _⟩ := hostStep_keeps hs
    exact ⟨hlcg.trans, hbbs.trans, hcon.trans⟩
  · obtain ⟨_, rfl⟩ | ⟨w, _, ⟨_, _, rfl⟩ | ⟨i, _, he⟩⟩ := engineStep_cases hs
    · exact ⟨id, id, id⟩
    · exact ⟨id, id, id⟩
    · have hflags := exec_flags he
      exact hflags
  · exact absurd hreset hturn
  · exact ⟨id, id, id⟩

/-- Settles O18: CAP is wired to LMAX, and neither agent writes it. -/
theorem capIsHardwired : Obligations.CapIsHardwired := by
  refine ⟨State.reset_cap_toNat, fun s hb => answer_reg .cap hb, fun s t h => ?_⟩
  obtain ⟨_, rfl, ⟨_, hs⟩ | ⟨_, hs⟩ | ⟨_, rfl⟩ | ⟨_, rfl⟩⟩ := step_cases h
  · obtain ⟨_, _, _, hcap, hbase, _⟩ := hostStep_keeps hs
    exact ⟨hcap, hbase⟩
  · exact (engineStep_keeps hs).2.2
  · exact ⟨rfl, rfl⟩
  · exact ⟨rfl, rfl⟩

end Sys2Proof.Machine
end

section
/-! OVERRUN: which bus write changes it, and that nothing else does but reset (10_state.md R23; 20_memory.md R61, R65;
60_exceptions.md R162). -/

namespace Sys2Proof.Machine

/-! ## OVERRUN (R162) -/

/-- A host action leaves the block as it is, or makes the one bus write that its line says. -/
theorem hostAction_writeOf {a : HostInstr} {s t : State} (h : hostAction a s = .next t) :
    State.sameBlock s t ∨ ∃ addr size v pr, Spec.writeOf s a = some (addr, size, v) ∧
      memWrite addr size v { s with program := pr } = .next t := by
  have observe : observes a = true → State.sameBlock s t := fun ho => (hostAction_observes ho h).1
  cases a with
  | memRead addr size => exact .inl (observe rfl)
  | memWrite addr size v => exact .inr ⟨_, _, _, s.program, rfl, h⟩
  | wr p v => exact .inr ⟨_, _, _, s.program, rfl, h⟩
  | rd p e => exact .inl (observe rfl)
  | issue i => exact .inr ⟨_, _, _, s.program, rfl, h⟩
  | cmd i => exact .inr ⟨_, _, _, .wait :: s.program, rfl, h⟩
  | wait =>
    unfold hostAction pollStatus at h
    obtain ⟨v, u, hread, hpoll⟩ := afterRead_cases h
    refine .inl ?_
    rw [memRead_frame hread] at hpoll
    split at hpoll <;> cases hpoll <;> rfl
  | expectErr c => exact .inl (observe rfl)

/-- A write decodes for 32-bit accesses only, and to the place whose bus address it has. -/
theorem memWrite_place_of_next {addr size : Nat} {v : Word} {s t : State} (h : memWrite addr size v s = .next t) :
    size = 4 ∧ ∃ p, placeAt s.lmax (addr - s.base) = some p ∧ addr = s.base + placeOffset p ∧ t = s.writePlace p v := by
  obtain ⟨hown, _, p, hdec, ht⟩ := memWrite_cases h
  simp only [State.owns, Bool.and_eq_true, decide_eq_true_eq] at hown
  unfold decodeAccess at hdec
  split at hdec
  · have := placeOffset_of_placeAt hdec
    exact ⟨‹_›, p, hdec, by omega, ht⟩
  · exact nomatch hdec

/-- A write that changes OVERRUN sets it, while busy and not to STATUS, or clears it, to STATUS with bit 4 (R61, R65). -/
theorem memWrite_overrun {addr size : Nat} {v : Word} {s t : State} (h : memWrite addr size v s = .next t) :
    t.overrun = s.overrun ∨
      (size = 4 ∧ addr ≠ s.base + 0x004 ∧ s.busy = true ∧ t.overrun = true) ∨
      (size = 4 ∧ addr = s.base + 0x004 ∧ v.getLsbD 4 = true ∧ t.overrun = false) := by
  obtain ⟨hsize, p, hp, haddr, rfl⟩ := memWrite_place_of_next h
  obtain ⟨rfl, e⟩ | ⟨hne, hb, e⟩ | ⟨_, _, e⟩ := writePlace_cases s p v
  · rw [e, writeStatus_eq]
    cases hv : v.getLsbD 4 with
    | false => exact .inl (Bool.and_true _)
    | true => exact .inr (.inr ⟨hsize, haddr, rfl, Bool.and_false _⟩)
  · rw [e]
    refine .inr (.inl ⟨hsize, fun hstatus => hne ?_, hb, rfl⟩)
    rw [hstatus, Nat.add_sub_cancel_left] at hp
    exact Option.some.inj (hp.symm.trans (placeAt_reg s.lmax .status))
  · rw [e, writeIdle_frame]
    exact .inl rfl

theorem writeOf_congr {s t : State} (h : t.base = s.base) (a : HostInstr) : Spec.writeOf t a = Spec.writeOf s a := by
  cases a <;> simp only [Spec.writeOf, h]

/-- A host step that changes OVERRUN makes one bus write, and that write changes it. -/
theorem hostStep_overrun {s t : State} (h : hostStep s = .next t) :
    t.overrun = s.overrun ∨ ∃ a rest addr v, s.program = a :: rest ∧ Spec.writeOf s a = some (addr, 4, v) ∧
      ((addr ≠ s.base + 0x004 ∧ s.busy = true ∧ t.overrun = true) ∨
        (addr = s.base + 0x004 ∧ v.getLsbD 4 = true ∧ t.overrun = false)) := by
  unfold hostStep at h
  split at h
  · cases h
    exact .inl rfl
  · rename_i a rest hprog
    obtain hb | ⟨addr, size, v, pr, hwrite, hmem⟩ := hostAction_writeOf h
    · unfold State.sameBlock at hb
      rw [hb]
      exact .inl rfl
    · have hwrite : Spec.writeOf s a = some (addr, size, v) := (writeOf_congr rfl a).trans hwrite
      obtain hsame | ⟨rfl, hset⟩ | ⟨rfl, hclear⟩ := memWrite_overrun hmem
      · exact .inl hsame
      · exact .inr ⟨a, rest, addr, v, hprog, hwrite, .inl hset⟩
      · exact .inr ⟨a, rest, addr, v, hprog, hwrite, .inr hclear⟩

/-- Settles O19: the engine and the release of reset keep OVERRUN, and a host step changes it by one write. -/
theorem overrunIsSticky : Obligations.OverrunIsSticky := by
  intro s t h
  by_cases hsame : t.overrun = s.overrun
  · exact ⟨fun h0 h1 => by simp [h0, h1] at hsame, fun h1 h0 => by simp [h0, h1] at hsame⟩
  obtain ⟨_, rfl, ⟨hturn, hs⟩ | ⟨_, hs⟩ | ⟨hturn, rfl⟩ | ⟨_, rfl⟩⟩ := step_cases h
  · obtain hkeep | ⟨a, rest, addr, v, hprog, hwrite, hcase⟩ := hostStep_overrun hs
    · exact absurd hkeep hsame
    · have hwrite : Spec.writeOf s a = some (addr, 4, v) := (writeOf_congr rfl a).trans hwrite
      obtain ⟨haddr, hb, hset⟩ | ⟨rfl, hv, hclear⟩ := hcase
      · exact ⟨fun _ _ => ⟨hturn, hb, a, rest, addr, v, hprog, hwrite, haddr⟩, fun _ h0 => by simp [hset] at h0⟩
      · exact ⟨fun _ h1 => by simp [hclear] at h1, fun _ _ => .inr ⟨hturn, a, rest, v, hprog, hwrite, hv⟩⟩
  · exact absurd (engineStep_keeps hs).2.1 hsame
  · exact ⟨nofun, fun _ _ => .inl hturn⟩
  · exact absurd rfl hsame

end Sys2Proof.Machine
end

section
/-! A command in flight: what its completion may read, and how it comes to its completion (10_state.md R22;
70_reset_and_hazards.md R184, R185, R189). -/

namespace Sys2Proof.Machine

/-! ## Every command completes, but for U5 -/

/-- Below KS_LEN both keystreams are written (R55(c)). -/
theorem Invariants.isSome_keystream {s : State} (h : Invariants s) (hc : s.constructed = true) (m : CipherMethod) {j : Nat}
    (hj : j < s.ksLen.toNat) : (s.keystream m j).isSome = true := by
  obtain ⟨hbbs, hlcg⟩ := (h.ks hc).2 j hj
  cases m with
  | bbs => rw [State.keystream, Option.isSome_map, hbbs]
  | lcg => rw [State.keystream, Option.isSome_map, hlcg]

/-- Under the invariants the XOR loop stops at an unwritten IN entry only (U5). -/
theorem Invariants.xorFrom_error {s : State} (h : Invariants s) (hc : s.constructed = true) (hl : s.inLen = s.ksLen)
    {m : CipherMethod} {f : Fault} (hf : xorFrom m s s.inCount 0 = .error f) :
    ∃ j, j < s.inLen.toNat ∧ Buffer.read s.inBuf j = none ∧ f = .unwrittenInput j := by
  obtain ⟨j, _, hj, hcase⟩ := Machine.xorFrom_error hf
  rw [Nat.zero_add] at hj
  obtain ⟨rfl, hin⟩ | ⟨_, hks⟩ := hcase
  · exact ⟨j, hj, hin, rfl⟩
  · have hsome := h.isSome_keystream hc m (show j < s.ksLen.toNat from hl ▸ show j < s.inLen.toNat from hj)
    rw [hks] at hsome
    exact nomatch hsome

/-- Under the invariants the engine's step completes the word in flight, or it is U5. -/
theorem Invariants.engineStep_completes {s : State} {w : Word} (h : Invariants s) (hp : s.pending = some w) :
    (∃ u, Machine.engineStep s = .next u ∧ u.pending = none) ∨
      ∃ i m j, decode w = .legal i ∧ (i, m) ∈ Spec.cipherCommands ∧ j < s.inLen.toNat ∧
        Buffer.read s.inBuf j = none ∧ Machine.engineStep s = .fault (.unwrittenInput j) := by
  cases hd : decode w with
  | illegal why =>
    exact .inl ⟨_, engineStep_illegal hp ((decode_illegal_iff w).1 ⟨why, hd⟩), rfl⟩
  | legal i =>
    rw [engineStep_legal hp hd]
    obtain ⟨u, hu⟩ | ⟨m, f, hm, hc, hl, hf, hstop⟩ := exec_stops i s
    · exact .inl ⟨u, hu, exec_pending hu⟩
    · obtain ⟨j, hj, hin, rfl⟩ := h.xorFrom_error hc hl hf
      exact .inr ⟨i, m, j, rfl, hm, hj, hin, hstop⟩

/-- A step that keeps the word in flight, from which the end is reached within the rest of the schedule. -/
theorem completes_of_step {P : State → Prop} {w : Word} {n : Nat} {s u : State} (hs : step s = .next u)
    (h : ∃ (k : Nat) (t : State), k ≤ n ∧ Sys2Proof.core.run k u = .next t ∧ t.pending = some w ∧ P t) :
    ∃ (k : Nat) (t : State), k ≤ n + 1 ∧ Sys2Proof.core.run k s = .next t ∧ t.pending = some w ∧ P t := by
  obtain ⟨k, t, hk, hrun, ht⟩ := h
  exact ⟨k + 1, t, by omega, (run_next hs).trans hrun, ht⟩

/-- Settles O10, by induction on the schedule: the engine's turn and a reset assertion end the command, and every other turn
keeps it in flight. -/
theorem everyCommandCompletes : Obligations.EveryCommandCompletes := by
  intro s w h hp
  generalize hsched : s.schedule = turns
  induction turns generalizing s with
  | nil =>
    refine ⟨0, s, le_refl _, rfl, hp, ?_⟩
    rw [step_nil_busy hsched hp, nextTurn, hsched, defaultTurn, busy_of_pending hp]
    obtain hu | hstop := h.engineStep_completes hp
    · exact .inl hu
    · exact .inr (.inr ⟨rfl, hstop⟩)
  | cons turn rest ih =>
    have hstep := step_cons hsched
    have h' : Invariants { s with schedule := rest } := h.of_sameBlock (State.sameBlock_schedule s rest)
    have hturn : nextTurn s = turn := by rw [nextTurn, hsched]
    cases turn with
    | engine =>
      refine ⟨0, s, Nat.zero_le _, rfl, hp, ?_⟩
      rw [hstep, hturn]
      obtain hu | hstop := h'.engineStep_completes hp
      · exact .inl hu
      · exact .inr (.inr ⟨rfl, hstop⟩)
    | host =>
      by_cases hnext : ∃ u, step s = .next u
      · obtain ⟨u, hu⟩ := hnext
        have hhost : hostStep { s with schedule := rest } = .next u := hstep.symm.trans hu
        obtain ⟨_, _, _, _, _, hrest⟩ := hostStep_keeps hhost
        have hsame := hostCannotChangeACommandInFlight _ u (by simp [hp]) hhost
        unfold State.sameBlock at hsame
        have hpu : u.pending = some w := by rw [hsame]; exact hp
        exact completes_of_step hu (ih u (stepKeepsTheInvariants s u h hu) hpu hrest)
      · exact ⟨0, s, Nat.zero_le _, rfl, hp, .inr (.inl ⟨hturn, fun u hu => hnext ⟨u, hu⟩⟩)⟩
    | assertReset => exact ⟨0, s, Nat.zero_le _, rfl, hp, .inl ⟨_, hstep, rfl⟩⟩
    | releaseReset =>
      have hu : step s = .next (State.releaseReset { s with schedule := rest }) := hstep
      exact completes_of_step hu (ih _ (stepKeepsTheInvariants s _ h hu) hp rfl)

/-! ## Latency: a command does not see what host turns may change while it is in flight -/

/-- `s` with all of `h` that a host step may change while a command is in flight: OVERRUN and what is not the block's. -/
def State.withHost (s h : State) : State :=
  { s with
    overrun := h.overrun, schedule := h.schedule, program := h.program, reads := h.reads, waitStatus := h.waitStatus
    draws := h.draws }

/-- A function of the state, applied to the next state of an outcome. -/
def mapNext (f : State → State) : Host.Outcome State Fault Refusal → Host.Outcome State Fault Refusal
  | .next t => .next (f t)
  | .fault r => .fault r
  | .refused r => .refused r

theorem lcgTicks_withHost (h : State) (n : Nat) (s : State) :
    State.lcgTicks n (s.withHost h) = ((State.lcgTicks n s).1, (State.lcgTicks n s).2.withHost h) := by
  induction n generalizing s with
  | zero => rfl
  | succ n ih =>
    rw [State.lcgTicks, show (s.withHost h).lcgTick = s.lcgTick.withHost h from rfl, ih]
    rfl

theorem bbsTicks_withHost (h : State) (n : Nat) (s : State) :
    State.bbsTicks n (s.withHost h) = ((State.bbsTicks n s).1, (State.bbsTicks n s).2.withHost h) := by
  induction n generalizing s with
  | zero => rfl
  | succ n ih =>
    rw [State.bbsTicks, show (s.withHost h).bbsTick = s.bbsTick.withHost h from rfl, ih]
    rfl

theorem drain_withHost (s h : State) (n : Nat) : (s.withHost h).drain n = (s.drain n).withHost h := by
  rw [State.drain, lcgTicks_withHost, bbsTicks_withHost]
  rfl

theorem xorFrom_withHost (m : CipherMethod) (s h : State) (n i : Nat) :
    xorFrom m (s.withHost h) n i = xorFrom m s n i := by
  induction n generalizing i with
  | zero => rfl
  | succ n ih =>
    rw [xorFrom, ih]
    cases m <;> rfl

theorem execLcgGen_withHost (s h : State) : execLcgGen (s.withHost h) = mapNext (·.withHost h) (execLcgGen s) := by
  unfold execLcgGen
  rw [lcgTicks_withHost, apply_ite (mapNext _), apply_ite (mapNext _)]
  rfl

theorem bbsGen_withHost (m : BbsMethod) (s h : State) :
    bbsGen m (s.withHost h) = mapNext (·.withHost h) (bbsGen m s) := by
  unfold bbsGen
  rw [bbsTicks_withHost, apply_ite (mapNext _), apply_ite (mapNext _)]
  rfl

theorem execConstruct_withHost (s h : State) :
    execConstruct (s.withHost h) = mapNext (·.withHost h) (execConstruct s) := by
  unfold execConstruct
  rw [show (s.withHost h).loadLcg.loadBbs = s.loadLcg.loadBbs.withHost h from rfl, drain_withHost,
    apply_ite (mapNext _), apply_ite (mapNext _), apply_ite (mapNext _)]
  rfl

theorem xorTransform_withHost (m : CipherMethod) (s h : State) :
    xorTransform m (s.withHost h) = mapNext (·.withHost h) (xorTransform m s) := by
  unfold xorTransform
  rw [xorFrom_withHost, show (s.withHost h).inCount = s.inCount from rfl, apply_ite (mapNext _), apply_ite (mapNext _)]
  cases xorFrom m s s.inCount 0 with
  | error f => rfl
  | ok rs =>
    dsimp only
    rw [apply_ite (mapNext _)]
    rfl

/-- No command reads what host turns may change meanwhile: it answers the same, with those fields as they stand. -/
theorem exec_withHost (i : Instr) (s h : State) : exec i (s.withHost h) = mapNext (·.withHost h) (exec i s) := by
  cases i with
  | lcgLoad =>
    exact (apply_ite (mapNext (·.withHost h)) (s.lcgM = 0) (raise .badParameter s) (succeed s.loadLcg)).symm
  | lcgNext =>
    exact (apply_ite (mapNext (·.withHost h)) (s.lcgLoaded = true) (succeed s.lcgTick) (raise .notLoaded s)).symm
  | lcgGen => exact execLcgGen_withHost s h
  | bbsLoad =>
    exact (apply_ite (mapNext (·.withHost h)) (blumOk s.bbsP s.bbsQ = true) (succeed s.loadBbs) (raise .invalidModulus s)).symm
  | bbsNext =>
    exact (apply_ite (mapNext (·.withHost h)) (s.bbsLoaded = true) (succeed s.bbsTick) (raise .notLoaded s)).symm
  | bbsGenLsb => exact bbsGen_withHost .lsb s h
  | bbsGenParity => exact bbsGen_withHost .parity s h
  | bbsGenRaw => exact bbsGen_withHost .raw s h
  | construct => exact execConstruct_withHost s h
  | encryptBbs => exact xorTransform_withHost .bbs s h
  | encryptLcg => exact xorTransform_withHost .lcg s h
  | decryptBbs => exact xorTransform_withHost .bbs s h
  | decryptLcg => exact xorTransform_withHost .lcg s h

/-- Settles O12, by induction on the number of host turns: each leaves the block but for OVERRUN, which no command reads. -/
theorem latencyDoesNotAffectTheResult : Obligations.LatencyDoesNotAffectTheResult := by
  intro k rest w i s t u hp hd hsched hexec hrun
  induction k generalizing s t with
  | zero =>
    have hsched : s.schedule = .engine :: rest := hsched
    have hstep : step s = .next (t.withHost { s with schedule := rest }) := by
      have he := exec_withHost i s { s with schedule := rest }
      rw [hexec] at he
      exact (step_cons hsched).trans ((engineStep_legal (s := { s with schedule := rest }) hp hd).trans he)
    rw [run_next hstep] at hrun
    cases hrun
    rfl
  | succ k ih =>
    have hsched : s.schedule = .host :: (List.replicate k .host ++ .engine :: rest) := hsched
    cases hs : step s with
    | fault f => rw [run_fault hs] at hrun; exact nomatch hrun
    | refused r => rw [run_refused hs] at hrun; exact nomatch hrun
    | next v =>
      rw [run_next hs] at hrun
      have hhost : hostStep { s with schedule := List.replicate k .host ++ .engine :: rest } = .next v :=
        (step_cons hsched).symm.trans hs
      obtain ⟨_, _, _, _, _, hv⟩ := hostStep_keeps hhost
      have hblock := hostCannotChangeACommandInFlight _ v (by simp [hp]) hhost
      have hsame : v = s.withHost v := hblock
      have hvp : v.pending = some w := by rw [hsame]; exact hp
      have he := exec_withHost i s v
      rw [hexec, ← hsame] at he
      exact ih v (t.withHost v) hvp hv he hrun

end Sys2Proof.Machine
end

section
/-! The result codes and their causes (60_exceptions.md R160), and the cipher: what CONSTRUCT's keystreams depend on and
how the cipher commands end (43_cipher.md R140 to R149). -/

namespace Sys2Proof.Machine

/-! ## The commands of one meaning -/

theorem exec_cipher {i : Instr} {m : CipherMethod} (h : (i, m) ∈ Spec.cipherCommands) (s : State) :
    exec i s = xorTransform m s := by
  simp only [Spec.cipherCommands, List.mem_cons, Prod.mk.injEq, List.not_mem_nil, or_false] at h
  obtain ⟨rfl, rfl⟩ | ⟨rfl, rfl⟩ | ⟨rfl, rfl⟩ | ⟨rfl, rfl⟩ := h <;> rfl

theorem keystream_eq_some_iff {s : State} {m : CipherMethod} {j : Nat} {k : Word} :
    s.keystream m j = some k ↔ Spec.keystreamValue s m j k := by
  cases m <;> simp only [State.keystream, Spec.keystreamValue, Option.map_eq_some_iff, eq_comm (a := k)]

/-! ## Code points above the bound (R148) -/

theorem validCp_eq_false_iff (v : Word) : validCp v = false ↔ 0x10FFFF < v.toNat := by
  rw [validCp, decide_eq_false_iff_not, not_le]

/-- The transform overflows exactly when some entry XORed with its keystream value is above 0x10FFFF. -/
theorem xorFrom_overflow_iff {m : CipherMethod} {s : State} {n : Nat} {rs : List Word} (h : xorFrom m s n 0 = .ok rs) :
    rs.all validCp = false ↔ ∃ j v k, j < n ∧ Buffer.read s.inBuf j = some v ∧ s.keystream m j = some k ∧
      0x10FFFF < (v ^^^ k).toNat := by
  obtain ⟨hlen, hrs⟩ := xorFrom_ok h
  simp only [Nat.zero_add] at hrs
  simp only [List.all_eq_false, Bool.not_eq_true, validCp_eq_false_iff]
  constructor
  · rintro ⟨r, hr, hbig⟩
    obtain ⟨j, hj⟩ := List.mem_iff_getElem?.1 hr
    have hjn : j < n := hlen ▸ (List.getElem?_eq_some_iff.1 hj).1
    obtain ⟨v, k, hv, hk, hvk⟩ := hrs j hjn
    obtain rfl := Option.some.inj (hj.symm.trans hvk)
    exact ⟨j, v, k, hjn, hv, hk, hbig⟩
  · rintro ⟨j, v, k, hj, hv, hk, hbig⟩
    obtain ⟨v', k', hv', hk', hvk⟩ := hrs j hj
    obtain rfl := Option.some.inj (hv.symm.trans hv')
    obtain rfl := Option.some.inj (hk.symm.trans hk')
    exact ⟨_, List.mem_iff_getElem?.2 ⟨j, hvk⟩, hbig⟩

/-- A keystream value does not move a code point over the bound, in either direction (R149). -/
theorem overflow_xor_iff {s : State} {m : CipherMethod} {j : Nat} {v k : Word} (hk : s.keystream m j = some k) :
    0x10FFFF < (v ^^^ k).toNat ↔ 0x10FFFF < v.toNat := by
  rw [← validCp_eq_false_iff, ← validCp_eq_false_iff, validCp_xor v k (keystream_lt s m j k hk)]

/-! ## The causes of the codes (R160) -/

theorem not_blum_of_blumOk {p q : Word} (h : blumOk p q = false) : ¬ Spec.blum p.toNat q.toNat := by
  intro hb
  rw [(blumOk_iff p q).2 hb] at h
  exact nomatch h

theorem bbsGen_cause {i : Instr} {m : BbsMethod} {s t : State} (hi : (i, m) ∈ Spec.bbsGenCommands)
    (h : bbsGen m s = .next t) : Spec.cause i t.err s := by
  obtain ⟨hl, rfl⟩ | ⟨_, hn, rfl⟩ | ⟨_, _, rfl⟩ := bbsGen_cases h
  · exact .inr ⟨.inr ⟨m, hi⟩, hl⟩
  · exact .inl ⟨.inr ⟨m, hi⟩, hn⟩
  · trivial

theorem xorTransform_cause {i : Instr} {m : CipherMethod} {s t : State} (hi : (i, m) ∈ Spec.cipherCommands)
    (h : xorTransform m s = .next t) : Spec.cause i t.err s := by
  obtain ⟨hc, rfl⟩ | ⟨_, hl, rfl⟩ | ⟨_, _, rs, hr, ⟨hv, rfl⟩ | ⟨_, rfl⟩⟩ := xorTransform_cases h
  · exact ⟨⟨m, hi⟩, hc⟩
  · exact ⟨⟨m, hi⟩, hl⟩
  · obtain ⟨j, v, k, hj, hin, hk, hbig⟩ := (xorFrom_overflow_iff hr).1 hv
    exact ⟨m, hi, j, v, k, hj, hin, keystream_eq_some_iff.1 hk, hbig⟩
  · trivial

/-- Whatever code a command ends with, its cause holds of the state before. -/
theorem exec_cause {i : Instr} {s t : State} (h : exec i s = .next t) : Spec.cause i t.err s := by
  cases i with
  | lcgLoad =>
    obtain ⟨hm, rfl⟩ | ⟨_, rfl⟩ := execLcgLoad_cases h
    · exact ⟨.inl rfl, hm⟩
    · trivial
  | lcgNext =>
    obtain ⟨hl, rfl⟩ | ⟨_, rfl⟩ := execLcgNext_cases h
    · exact .inl ⟨.inl rfl, hl⟩
    · trivial
  | lcgGen =>
    obtain ⟨hl, rfl⟩ | ⟨_, hn, rfl⟩ | ⟨_, _, rfl⟩ := execLcgGen_cases h
    · exact .inl ⟨.inr rfl, hl⟩
    · exact .inl ⟨.inl rfl, hn⟩
    · trivial
  | bbsLoad =>
    obtain ⟨hb, rfl⟩ | ⟨_, rfl⟩ := execBbsLoad_cases h
    · exact ⟨.inl rfl, not_blum_of_blumOk hb⟩
    · trivial
  | bbsNext =>
    obtain ⟨hl, rfl⟩ | ⟨_, rfl⟩ := execBbsNext_cases h
    · exact .inr ⟨.inl rfl, hl⟩
    · trivial
  | bbsGenLsb => exact bbsGen_cause (m := .lsb) (by decide) h
  | bbsGenParity => exact bbsGen_cause (m := .parity) (by decide) h
  | bbsGenRaw => exact bbsGen_cause (m := .raw) (by decide) h
  | construct =>
    obtain ⟨hn, rfl⟩ | ⟨_, hm, rfl⟩ | ⟨_, _, hb, rfl⟩ | ⟨_, _, _, rfl⟩ := execConstruct_cases h
    · exact .inr ⟨rfl, hn⟩
    · exact ⟨.inr rfl, hm⟩
    · exact ⟨.inr rfl, not_blum_of_blumOk hb⟩
    · trivial
  | encryptBbs => exact xorTransform_cause (m := .bbs) (by decide) h
  | encryptLcg => exact xorTransform_cause (m := .lcg) (by decide) h
  | decryptBbs => exact xorTransform_cause (m := .bbs) (by decide) h
  | decryptLcg => exact xorTransform_cause (m := .lcg) (by decide) h

/-- Settles O21: ERR is a field of STATUS, every failure of a command states its cause, and BAD_COMMAND has none in a command. -/
theorem errCodesAndTheirCauses : Obligations.ErrCodesAndTheirCauses := by
  refine ⟨fun s => ?_, fun i s t h => exec_cause h, fun s t w hp h => ⟨fun hbad => ?_, fun hw => ?_⟩⟩
  · rw [statusErrField_statusWord]
    cases s.err <;> rfl
  · cases hd : decode w with
    | illegal why => exact (decode_illegal_iff w).1 ⟨why, hd⟩
    | legal i =>
      rw [engineStep_legal hp hd] at h
      have hcause := exec_cause h
      rw [hbad] at hcause
      exact hcause.elim
  · rw [engineStep_illegal hp hw] at h
    cases h
    rfl

/-! ## The keystreams (R141) -/

/-- LCG steps read the latched parameters and LCG_STATE only. -/
theorem lcgTicks_congr (n : Nat) (s t : State) (ha : t.lcgAL = s.lcgAL) (hc : t.lcgCL = s.lcgCL) (hm : t.lcgML = s.lcgML)
    (hx : t.lcgState = s.lcgState) : (State.lcgTicks n t).1 = (State.lcgTicks n s).1 := by
  induction n generalizing s t with
  | zero => rfl
  | succ n ih =>
    have h := ih s.lcgTick t.lcgTick ha hc hm (by simp [ha, hc, hm, hx])
    simp only [State.lcgTicks, h, State.lcgTick_lcgOut, ha, hc, hm, hx]

/-- An entry below the number of values that `writeFrom` puts from entry 0 on does not depend on the old content. -/
theorem Buffer.read_writeFrom_congr {w : Nat} (b b' : Buffer w) (vs : List (BitVec w)) {i : Nat} (hi : i < vs.length) :
    Buffer.read (Buffer.writeFrom b 0 vs) i = Buffer.read (Buffer.writeFrom b' 0 vs) i := by
  have hin : 0 ≤ i ∧ i < 0 + vs.length := ⟨Nat.zero_le i, by omega⟩
  rw [Buffer.read_writeFrom, Buffer.read_writeFrom, if_pos hin, if_pos hin]

/-- What a successful CONSTRUCT leaves in KS_LEN and the keystreams: KEYLEN, and the outputs of the two loaded generators. -/
theorem execConstruct_ks {s t : State} (h : execConstruct s = .next t) (hok : t.err = .ok) :
    t.ksLen = s.keyLen ∧
      t.ksLcg = Buffer.writeFrom s.ksLcg 0 (State.lcgTicks s.keyCount s.loadLcg.loadBbs).1 ∧
      t.ksBbs = Buffer.writeFrom s.ksBbs 0 ((State.bbsTicks s.keyCount s.loadLcg.loadBbs).1.map BbsOut.lsb) := by
  obtain ⟨_, rfl⟩ | ⟨_, _, rfl⟩ | ⟨_, _, _, rfl⟩ | ⟨_, _, _, rfl⟩ := execConstruct_cases h
  · exact nomatch hok
  · exact nomatch hok
  · exact nomatch hok
  · exact ⟨rfl, drain_ksLcg _ _, drain_ksBbs _ _⟩

/-- Settles O36: the two loads read the parameters only, and the steps read what the loads leave. -/
theorem keystreamsDependOnlyOnTheParameters : Obligations.KeystreamsDependOnlyOnTheParameters := by
  intro s s' t t' hlen hseed ha hc hm hbseed hp hq h h' hok hok'
  obtain ⟨hks, hlcg, hbbs⟩ := execConstruct_ks h hok
  obtain ⟨hks', hlcg', hbbs'⟩ := execConstruct_ks h' hok'
  have hn : s'.keyCount = s.keyCount := by rw [State.keyCount, ← hlen]
  have hl := lcgTicks_congr s.keyCount s.loadLcg.loadBbs s'.loadLcg.loadBbs (by simp [ha]) (by simp [hc]) (by simp [hm])
    (by simp [hseed, hm])
  have hb := bbsTicks_congr s.keyCount s.loadLcg.loadBbs s'.loadLcg.loadBbs (by simp [hp, hq]) (by simp [hbseed, hp, hq])
  refine ⟨by rw [hks, hks', hlen], fun i hi => ?_⟩
  rw [hks] at hi
  rw [hlcg, hlcg', hbbs, hbbs', hn, hl, hb.1]
  exact ⟨Buffer.read_writeFrom_congr _ _ _ (by rw [lcgTicks_length]; exact hi),
    Buffer.read_writeFrom_congr _ _ _ (by rw [List.length_map, bbsTicks_length]; exact hi)⟩

/-! ## How the cipher commands end -/

/-- Settles O38: with every entry written the transform stops at nothing, and the keystream moves no code point over the
bound. -/
theorem overflowExactlyOnInvalidInput : Obligations.OverflowExactlyOnInvalidInput := by
  intro s i m hi h hc hl hin
  rw [exec_cipher hi]
  obtain ⟨t, ht⟩ | ⟨f, _, _, hf, _⟩ := xorTransform_stops m s
  · refine ⟨t, ht, ?_⟩
    obtain ⟨hc', _⟩ | ⟨_, hl', _⟩ | ⟨_, _, rs, hr, ⟨hv, rfl⟩ | ⟨hv, rfl⟩⟩ := xorTransform_cases ht
    · exact absurd (hc.symm.trans hc') (by decide)
    · exact absurd hl hl'
    · refine ⟨fun _ => rfl, fun hall => ?_⟩
      obtain ⟨j, v, k, hj, hread, hk, hbig⟩ := (xorFrom_overflow_iff hr).1 hv
      exact absurd ((overflow_xor_iff hk).1 hbig) (not_lt.2 (hall j v hj hread))
    · refine ⟨?_, fun _ => ⟨rfl, rfl⟩⟩
      rintro ⟨j, v, hj, hread, hbig⟩
      obtain ⟨k, hk⟩ := Option.isSome_iff_exists.1 (h.isSome_keystream hc m (hl ▸ hj))
      have hover := (xorFrom_overflow_iff hr).2 ⟨j, v, k, hj, hread, hk, (overflow_xor_iff hk).2 hbig⟩
      exact absurd (hv.symm.trans hover) (by decide)
  · obtain ⟨j, hj, hnone, _⟩ := h.xorFrom_error hc hl hf
    have hsome := hin j hj
    rw [hnone] at hsome
    exact nomatch hsome

/-- Settles O40: under the invariants every keystream entry in range is written, so the loop stops at the unwritten IN entry. -/
theorem unwrittenInputIsAFault : Obligations.UnwrittenInputIsAFault := by
  intro s i m j hi h hc hl hj hnone hin
  have hstop : xorFrom m s s.inCount 0 = .error (.unwrittenInput j) :=
    xorFrom_unwritten hnone s.inCount 0 (Nat.zero_le j) (by rw [Nat.zero_add]; exact hj) (fun j' _ hj' => hin j' hj')
      fun j' _ hj' => h.isSome_keystream hc m (by rw [Nat.zero_add] at hj'; rw [← hl]; exact hj')
  rw [exec_cipher hi, xorTransform, if_pos hc, if_neg (not_not.2 hl), hstop]

end Sys2Proof.Machine
end

section
/-! The window of the block (10_state.md R20, R52, R73; 20_memory.md R60 to R66): what each offset names, what a read returns,
what a write does, and the bytes of a 64-bit quantity. -/

namespace Sys2Proof.Machine

/-! ## The map (R52, R73) -/

theorem placeAt_iff {lmax off : Nat} {p : Place} (hl : lmax ≤ 8192) :
    placeAt lmax off = some p ↔ p.wellFormed lmax = true ∧ off = placeOffset p := by
  have h := decodeAccess_iff (off := off) (size := 4) (p := p) hl
  rw [decodeAccess, if_pos rfl] at h
  rw [h, and_iff_right rfl]

theorem mem_registerTable_iff (off : Nat) (r : Reg) : (off, r) ∈ Spec.registerTable ↔ off = regOffset r := by
  cases r <;> simp [Spec.registerTable, regOffset]

/-- Settles O42: an offset names a place exactly when it is that place's offset, and the place lies in the buffers. -/
theorem registerMapAndWindows : Obligations.RegisterMapAndWindows := by
  intro lmax off hl
  refine ⟨fun r => ?_, fun i => ?_, fun i => ?_, fun i => ?_, fun i => ?_, fun i => ?_⟩
  · rw [placeAt_iff hl, mem_registerTable_iff]
    exact and_iff_right rfl
  all_goals
    rw [placeAt_iff hl, Place.wellFormed, decide_eq_true_iff]
    rfl

/-! ## Writing (R61, R53, R65) -/

theorem extractLsb'_eq_ofNat_mod (v : Word) : v.extractLsb' 0 16 = BitVec.ofNat 16 (v.toNat % 2 ^ 16) := by
  apply BitVec.eq_of_toNat_eq
  simp

/-- Settles O45: a write goes one of three ways, and while BUSY = 0 place by place. -/
theorem writeDoes : Obligations.WriteDoes := by
  intro s p v hl hp hr
  rw [memWrite_place v hl hp hr]
  refine ⟨fun hs => ?_, fun hs hb => ?_, fun hs hb => ?_⟩
  · rw [State.writePlace, if_pos hs, State.writeStatus]
  · rw [State.writePlace, if_neg hs, if_pos hb]
  · rw [State.writePlace, if_neg hs, if_neg (by simp [hb])]
    cases p with
    | reg r =>
      cases r with
      | lcgA => rw [← extractLsb'_eq_ofNat_mod]; rfl
      | lcgC => rw [← extractLsb'_eq_ofNat_mod]; rfl
      | _ => rfl
    | _ => rfl

/-! ## Reading (R20, R60) -/

theorem lowWord_toNat (v : DWord) : (lowWord v).toNat = v.toNat % 2 ^ 32 := by
  rw [lowWord, BitVec.extractLsb'_toNat, Nat.shiftRight_zero]

theorem highWord_toNat (v : DWord) : (highWord v).toNat = v.toNat / 2 ^ 32 := by
  have := v.isLt
  rw [highWord, BitVec.extractLsb'_toNat, Nat.shiftRight_eq_div_pow]
  omega

/-- Each register reads as the natural of its fields, reserved bits 0 (R20). -/
theorem regWord_toNat (s : State) (r : Reg) : (s.regWord r).toNat = Spec.regNat s r := by
  cases r with
  | status => exact statusFields s
  | lcgA => exact BitVec.toNat_setWidth_of_le (by decide)
  | lcgC => exact BitVec.toNat_setWidth_of_le (by decide)
  | lcgOut => exact BitVec.toNat_setWidth_of_le (by decide)
  | bbsPar => exact BitVec.toNat_setWidth_of_le (by decide)
  | bbsLsb => exact BitVec.toNat_setWidth_of_le (by decide)
  | bbsXLo => exact lowWord_toNat s.bbsX
  | bbsXHi => exact highWord_toNat s.bbsX
  | bbsMLo => exact lowWord_toNat s.bbsM
  | bbsMHi => exact highWord_toNat s.bbsM
  | bbsRawLo => exact lowWord_toNat s.bbsRaw
  | bbsRawHi => exact highWord_toNat s.bbsRaw
  | _ => rfl

/-- The answer at a place while BUSY = 0 is its word, where it has one. -/
theorem answer_place_idle {s : State} {p : Place} {v : Word} (hl : s.cap.toNat ≤ 8192) (hp : p.wellFormed s.cap.toNat = true)
    (hb : s.busy = false) (hv : s.placeWord p = some v) : s.answer (placeOffset p) 4 = .word v := by
  rw [answer_place hl hp, hb, hv]
  rfl

/-- A read at a place while BUSY = 0 is answered, with the place's word where it has one, and leaves the block as it is. -/
theorem memRead_place_idle {s : State} {p : Place} (hl : s.cap.toNat ≤ 8192) (hp : p.wellFormed s.cap.toNat = true)
    (hr : s.inReset = false) (hb : s.busy = false) :
    ∃ v t, memRead (s.base + placeOffset p) 4 s = .next (v, t) ∧ State.sameBlock s t ∧
      ∀ x, s.placeWord p = some x → v = x := by
  have hown := owns_place hl hp
  have hsub : s.base + placeOffset p - s.base = placeOffset p := Nat.add_sub_cancel_left _ _
  cases hw : s.placeWord p with
  | none =>
    have hany : s.answer (placeOffset p) 4 = .anyWord := by
      rw [answer_place hl hp, hb, hw]
      rfl
    have hread := memRead_any hown hr (hsub ▸ hany)
    exact ⟨_, _, hread, memRead_sameBlock hread, nofun⟩
  | some v =>
    have hread := memRead_word hown hr (hsub.symm ▸ answer_place_idle hl hp hb hw)
    exact ⟨v, _, hread, memRead_sameBlock hread, fun x hx => Option.some.inj hx⟩

/-- Settles O44: the word that is read is the place's, register by register and window by window. -/
theorem readReturns : Obligations.ReadReturns := by
  intro s p hl hp hr hb
  obtain ⟨v, t, hread, hsame, hv⟩ := memRead_place_idle hl hp hr hb
  refine ⟨v, t, hread, hsame, ?_⟩
  cases p with
  | reg r => rw [hv _ rfl, regWord_toNat]
  | inEntry i => exact hv
  | outLo i =>
    intro x hi hx
    rw [hv (lowWord x) (by simp [State.placeWord, State.outVisible, hi, hx]), lowWord_toNat]
  | outHi i =>
    intro x hi hx
    rw [hv (highWord x) (by simp [State.placeWord, State.outVisible, hi, hx]), highWord_toNat]
  | ksBbs i =>
    intro x hi hc hx
    rw [hv (x.setWidth 32) (by simp [State.placeWord, State.ksVisible, hi, hc, hx]), BitVec.toNat_setWidth_of_le (by decide)]
  | ksLcg i =>
    intro x hi hc hx
    rw [hv (x.setWidth 32) (by simp [State.placeWord, State.ksVisible, hi, hc, hx]), BitVec.toNat_setWidth_of_le (by decide)]

/-! ## Bytes (R62) -/

theorem byteLane_lowWord (x : DWord) {k : Nat} (hk : k < 4) : byteLane (lowWord x) k = x.extractLsb' (8 * k) 8 := by
  ext i hi
  simp only [byteLane, lowWord, BitVec.getElem_extractLsb', BitVec.getLsbD_extractLsb', Nat.zero_add, Bool.and_eq_right_iff_imp,
    decide_eq_true_eq]
  omega

theorem byteLane_highWord (x : DWord) {k : Nat} (hk : k < 4) :
    byteLane (highWord x) k = x.extractLsb' (8 * (k + 4)) 8 := by
  ext i hi
  have h1 : 8 * k + i < 32 := by omega
  simp only [byteLane, highWord, BitVec.getElem_extractLsb', BitVec.getLsbD_extractLsb', h1, decide_true, Bool.true_and]
  congr 1
  omega

/-- A byte's value as a natural: bits 8k+7 : 8k (R62). -/
theorem extractLsb'_byte_eq_ofNat {w : Nat} (x : BitVec w) (k : Nat) :
    x.extractLsb' (8 * k) 8 = BitVec.ofNat 8 (x.toNat / 2 ^ (8 * k)) := by
  rw [← Nat.shiftRight_eq_div_pow]
  rfl

/-- Byte lane `k` of a place is the byte at byte offset `k` above the place's offset. -/
theorem byteAt_place {s : State} {p : Place} {v : Word} {k : Nat} (hl : s.cap.toNat ≤ 8192)
    (hp : p.wellFormed s.cap.toNat = true) (hb : s.busy = false) (hv : s.placeWord p = some v) (hk : k < 4) :
    s.byteAt (placeOffset p + k) = some (byteLane v k) := by
  have hmod := placeOffset_mod (p := p)
  have hlane : (placeOffset p + k) % 4 = k := by omega
  rw [State.byteAt, hlane, Nat.add_sub_cancel, answer_place_idle hl hp hb hv]

/-- A 64-bit quantity in two places, the high word 4 above the low word, has its byte `k` at `k` above the lower offset. -/
theorem byteAt_dword {s : State} {lo hi : Place} {x : DWord} {k : Nat} (hl : s.cap.toNat ≤ 8192)
    (hlo : lo.wellFormed s.cap.toNat = true) (hhi : hi.wellFormed s.cap.toNat = true) (hb : s.busy = false)
    (hoff : placeOffset hi = placeOffset lo + 4) (hvlo : s.placeWord lo = some (lowWord x))
    (hvhi : s.placeWord hi = some (highWord x)) (hk : k < 8) :
    s.byteAt (placeOffset lo + k) = some (BitVec.ofNat 8 (x.toNat / 2 ^ (8 * k))) := by
  rw [← extractLsb'_byte_eq_ofNat]
  by_cases h4 : k < 4
  · rw [byteAt_place hl hlo hb hvlo h4, byteLane_lowWord x h4]
  · obtain ⟨j, rfl⟩ : ∃ j, k = j + 4 := ⟨k - 4, by omega⟩
    have hj : j < 4 := by omega
    rw [show placeOffset lo + (j + 4) = placeOffset hi + j by omega, byteAt_place hl hhi hb hvhi hj, byteLane_highWord x hj]

/-- Settles O49: each 64-bit quantity lies in two neighbouring places, and LCG_M in one. -/
theorem littleEndian : Obligations.LittleEndian := by
  intro s k hl hb hk
  refine ⟨?_, ?_, ?_, fun i x hi hout hx => ?_, fun h4 => ?_⟩
  · exact byteAt_dword (lo := .reg .bbsXLo) (hi := .reg .bbsXHi) hl rfl rfl hb rfl rfl rfl hk
  · exact byteAt_dword (lo := .reg .bbsMLo) (hi := .reg .bbsMHi) hl rfl rfl hb rfl rfl rfl hk
  · exact byteAt_dword (lo := .reg .bbsRawLo) (hi := .reg .bbsRawHi) hl rfl rfl hb rfl rfl rfl hk
  · have hwf : decide (i < s.cap.toNat) = true := decide_eq_true hi
    exact byteAt_dword (lo := .outLo i) (hi := .outHi i) hl hwf hwf hb rfl
      (by simp [State.placeWord, State.outVisible, hout, hx]) (by simp [State.placeWord, State.outVisible, hout, hx]) hk
  · rw [← extractLsb'_byte_eq_ofNat]
    exact byteAt_place (p := .reg .lcgM) hl rfl hb rfl h4

/-! ## A write, read back (R66) -/

/-- The registers that hold what the host writes into them (R25 to R34). -/
def paramRegs : List Reg := [.lcgSeed, .lcgA, .lcgC, .lcgM, .bbsSeed, .bbsP, .bbsQ, .keyLen, .genLen, .inLen]

/-- A place that holds what the host writes into it: an IN entry or a parameter register. -/
def holdsWrites (p : Place) : Prop := (∃ i, p = .inEntry i) ∨ ∃ r ∈ paramRegs, p = .reg r

/-- What a place holds of a written word: all of it, or its low 16 bits (R26, R27). -/
def heldWord (p : Place) (v : Word) : Word :=
  if p = .reg .lcgA ∨ p = .reg .lcgC then BitVec.ofNat 32 (v.toNat % 2 ^ 16) else v

theorem setWidth_extractLsb' (v : Word) : (v.extractLsb' 0 16).setWidth 32 = BitVec.ofNat 32 (v.toNat % 2 ^ 16) := by
  apply BitVec.eq_of_toNat_eq
  simp

theorem regWord_writeReg_same {r : Reg} (hr : r ∈ paramRegs) (s : State) (v : Word) :
    (s.writeReg r v).regWord r = heldWord (.reg r) v := by
  simp only [paramRegs, List.mem_cons, List.not_mem_nil, or_false] at hr
  rcases hr with rfl | rfl | rfl | rfl | rfl | rfl | rfl | rfl | rfl | rfl
  case inr.inl => exact setWidth_extractLsb' v
  case inr.inr.inl => exact setWidth_extractLsb' v
  all_goals rfl

/-- A write to a parameter register is seen in that register only. -/
theorem regWord_writeReg_of_ne {r q : Reg} (hr : r ∈ paramRegs) (hq : q ≠ r) (s : State) (v : Word) :
    (s.writeReg r v).regWord q = s.regWord q := by
  have h : (s.writeReg r v).regWord q = if q = r then (s.writeReg r v).regWord q else s.regWord q := by
    simp only [paramRegs, List.mem_cons, List.not_mem_nil, or_false] at hr
    rcases hr with rfl | rfl | rfl | rfl | rfl | rfl | rfl | rfl | rfl | rfl <;> cases q <;> rfl
  rw [h, if_neg hq]

theorem inBuf_writeReg (s : State) (r : Reg) (v : Word) : (s.writeReg r v).inBuf = s.inBuf := by cases r <;> rfl

theorem regWord_writeIdle_inEntry (s : State) (i : Nat) (v : Word) (r : Reg) :
    (s.writeIdle (.inEntry i) v).regWord r = s.regWord r := by cases r <;> rfl

theorem placeWord_writeIdle_same {p : Place} (hp : holdsWrites p) (s : State) (v : Word) :
    (s.writeIdle p v).placeWord p = some (heldWord p v) := by
  obtain ⟨i, rfl⟩ | ⟨r, hr, rfl⟩ := hp
  · exact Buffer.read_write_same s.inBuf i v
  · exact congrArg some (regWord_writeReg_same hr s v)

/-- A write to a place that holds it is seen in that place only. -/
theorem placeWord_writeIdle_of_ne {p q : Place} (hp : holdsWrites p) (hq : q ≠ p) (s : State) (v : Word) :
    (s.writeIdle p v).placeWord q = s.placeWord q := by
  cases q with
  | reg q =>
    obtain ⟨i, rfl⟩ | ⟨r, hr, rfl⟩ := hp
    · exact congrArg some (regWord_writeIdle_inEntry s i v q)
    · exact congrArg some (regWord_writeReg_of_ne hr (fun h => hq (h ▸ rfl)) s v)
  | inEntry j =>
    obtain ⟨i, rfl⟩ | ⟨r, _, rfl⟩ := hp
    · exact Buffer.read_write_other s.inBuf v fun h => hq (h ▸ rfl)
    · exact congrArg (Buffer.read · j) (inBuf_writeReg s r v)
  | outLo j => rw [writeIdle_frame]; rfl
  | outHi j => rw [writeIdle_frame]; rfl
  | ksBbs j => rw [writeIdle_frame]; rfl
  | ksLcg j => rw [writeIdle_frame]; rfl

theorem Buffer.write_write {w : Nat} (b : Buffer w) (i : Nat) (v : BitVec w) :
    Buffer.write (Buffer.write b i v) i v = Buffer.write b i v := by
  induction b with
  | nil => simp [Buffer.write]
  | cons h t ih =>
    obtain ⟨j, u⟩ := h
    rw [Buffer.write]
    split
    · simp [Buffer.write]
    · split
      · simp [Buffer.write]
      · rw [Buffer.write, if_neg ‹_›, if_neg ‹_›, ih]

/-- The same write again changes nothing. -/
theorem writeIdle_writeIdle (s : State) (p : Place) (v : Word) : (s.writeIdle p v).writeIdle p v = s.writeIdle p v := by
  cases p with
  | reg r => cases r <;> rfl
  | inEntry i => exact congrArg (fun b => { s with inBuf := b }) (Buffer.write_write s.inBuf i v)
  | _ => rfl

/-- Two states answer alike at an offset when they are alike in what the answer reads. -/
theorem answer_congr {s t : State} {off size : Nat} (hcap : t.cap = s.cap) (hb : t.busy = s.busy)
    (h : ∀ q, off = placeOffset q → t.placeWord q = s.placeWord q) : t.answer off size = s.answer off size := by
  have hl : t.lmax = s.lmax := by rw [State.lmax, hcap]
  unfold State.answer
  rw [hl, hb]
  cases hd : decodeAccess s.lmax off size with
  | none => rfl
  | some q =>
    unfold decodeAccess at hd
    split at hd
    · dsimp only
      rw [h q (placeOffset_of_placeAt hd)]
    · exact nomatch hd

/-- A place that holds writes is neither STATUS nor CMD, so a write to it while BUSY = 0 is no more than that (R61). -/
theorem writePlace_of_holdsWrites {p : Place} (hp : holdsWrites p) {s : State} (hb : s.busy = false) (v : Word) :
    s.writePlace p v = s.writeIdle p v := by
  have hstatus : p ≠ .reg .status := by rintro rfl; simp [holdsWrites, paramRegs] at hp
  rw [State.writePlace, if_neg hstatus, hb]
  rfl

theorem busy_writeIdle_of_holdsWrites {p : Place} (hp : holdsWrites p) (s : State) (v : Word) :
    (s.writeIdle p v).busy = s.busy := by
  obtain ⟨rfl, _⟩ | ⟨_, hpending, _⟩ := writeIdle_pending s p v
  · simp [holdsWrites, paramRegs] at hp
  · rw [State.busy, hpending, State.busy]

theorem writeIdle_wires (s : State) (p : Place) (v : Word) :
    (s.writeIdle p v).cap = s.cap ∧ (s.writeIdle p v).base = s.base ∧ (s.writeIdle p v).inReset = s.inReset := by
  rw [writeIdle_frame]
  exact ⟨rfl, rfl, rfl⟩

/-- Settles O48: the place holds the word, and no other place, so no byte of another place, reads differently. -/
theorem writeThenReadBack : Obligations.WriteThenReadBack := by
  intro s p v hl hp hb hr hholds
  have hholds : holdsWrites p := hholds
  obtain ⟨hcap, hbase, hreset⟩ := writeIdle_wires s p v
  have hbusy := busy_writeIdle_of_holdsWrites hholds s v
  refine ⟨s.writeIdle p v, ?_, ?_, ?_, fun off hoff => ?_⟩
  · rw [memWrite_place v hl hp hr, writePlace_of_holdsWrites hholds hb]
  · exact answer_place_idle (hcap ▸ hl) (hcap ▸ hp) (hbusy.trans hb) (placeWord_writeIdle_same hholds s v)
  · rw [← hbase, memWrite_place v (hcap ▸ hl) (hcap ▸ hp) (hreset.trans hr),
      writePlace_of_holdsWrites hholds (hbusy.trans hb), writeIdle_writeIdle]
  · have hother : ∀ q, off - off % 4 = placeOffset q → q ≠ p := by
      rintro q hq rfl
      omega
    rw [State.byteAt, State.byteAt, answer_congr hcap hbusy fun q hq => placeWord_writeIdle_of_ne hholds (hother q hq) s v]

end Sys2Proof.Machine
end

section
/-! The two bus primitives as the host meets them (20_memory.md R60 to R66): bus errors, accesses while a command is in flight,
and reads, which have no effect on the block. -/

namespace Sys2Proof.Machine

/-! ## Bus errors (R63, R64) -/

/-- An unmapped offset is the offset of no place of the block. -/
theorem unmapped_iff (lmax off : Nat) :
    Spec.unmapped lmax off ↔ ∀ p : Place, p.wellFormed lmax = true → off ≠ placeOffset p := by
  simp only [Spec.unmapped, mem_registerTable_iff]
  constructor
  · rintro ⟨hreg, hentry⟩ p hp
    cases p with
    | reg r => exact hreg r
    | inEntry i => exact (hentry i (of_decide_eq_true hp)).1
    | outLo i => exact (hentry i (of_decide_eq_true hp)).2.1
    | outHi i => exact (hentry i (of_decide_eq_true hp)).2.2.1
    | ksBbs i => exact (hentry i (of_decide_eq_true hp)).2.2.2.1
    | ksLcg i => exact (hentry i (of_decide_eq_true hp)).2.2.2.2
  · intro h
    refine ⟨fun r => h (.reg r) rfl, fun i hi => ?_⟩
    have hwf : decide (i < lmax) = true := decide_eq_true hi
    exact ⟨h (.inEntry i) hwf, h (.outLo i) hwf, h (.outHi i) hwf, h (.ksBbs i) hwf, h (.ksLcg i) hwf⟩

/-- The accesses that do not decode are those that R64 lists. -/
theorem decodeAccess_eq_none_iff {lmax off size : Nat} (hl : lmax ≤ 8192) :
    decodeAccess lmax off size = none ↔ Spec.badAccess lmax off size := by
  simp only [Option.eq_none_iff_forall_ne_some, ne_eq, decodeAccess_iff hl, Spec.badAccess, unmapped_iff]
  constructor
  · intro h
    by_cases hsize : size = 4
    · exact .inr (.inr fun p hp ho => h p ⟨hsize, hp, ho⟩)
    · exact .inl hsize
  · rintro (hsize | hmod | hun) p ⟨hs, hp, ho⟩
    · exact hsize hs
    · exact hmod (ho ▸ placeOffset_mod)
    · exact hun p hp ho

/-- The block answers a bus error exactly when the access does not decode, whether or not BUSY = 1. -/
theorem answer_eq_busError_iff {s : State} {off size : Nat} :
    s.answer off size = .busError ↔ decodeAccess s.lmax off size = none := by
  unfold State.answer
  cases hd : decodeAccess s.lmax off size with
  | none => simp
  | some p =>
    dsimp only
    split
    · simp
    · cases s.placeWord p <;> simp

theorem owns_eq_true_iff {s : State} {addr : Nat} : s.owns addr = true ↔ s.base ≤ addr ∧ addr < s.base + 0x80000 := by
  simp [State.owns]

theorem memRead_undecoded {s : State} {addr size : Nat} (ho : s.owns addr = true) (hr : s.inReset = false)
    (h : decodeAccess s.lmax (addr - s.base) size = none) : memRead addr size s = .fault (.busError addr size) := by
  rw [memRead, if_pos ho, if_neg (by simp [hr]), answer_eq_busError_iff.2 h]

theorem memRead_decoded {s : State} {addr size : Nat} (ho : s.owns addr = true) (hr : s.inReset = false)
    (h : decodeAccess s.lmax (addr - s.base) size ≠ none) : ∃ r, memRead addr size s = .next r := by
  cases ha : s.answer (addr - s.base) size with
  | busError => exact absurd (answer_eq_busError_iff.1 ha) h
  | anyWord => exact ⟨_, memRead_any ho hr ha⟩
  | word v => exact ⟨_, memRead_word ho hr ha⟩

theorem memWrite_undecoded {s : State} {addr size : Nat} (v : Word) (ho : s.owns addr = true) (hr : s.inReset = false)
    (h : decodeAccess s.lmax (addr - s.base) size = none) : memWrite addr size v s = .fault (.busError addr size) := by
  rw [memWrite, if_pos ho, if_neg (by simp [hr]), h]

theorem memWrite_decoded {s : State} {addr size : Nat} (v : Word) (ho : s.owns addr = true) (hr : s.inReset = false)
    (h : decodeAccess s.lmax (addr - s.base) size ≠ none) : ∃ t, memWrite addr size v s = .next t := by
  obtain ⟨p, hp⟩ := Option.ne_none_iff_exists'.1 h
  rw [memWrite, if_pos ho, if_neg (by simp [hr]), hp]
  exact ⟨_, rfl⟩

/-- An address outside the window is not the block's (R64). -/
theorem owns_eq_false_of_outside {s : State} {addr : Nat} (h : addr < s.base ∨ s.base + 0x80000 ≤ addr) :
    s.owns addr = false := by
  rw [← Bool.not_eq_true, owns_eq_true_iff]
  omega

/-- Settles O43: both primitives answer the bus error exactly when the access does not decode. -/
theorem busErrorExactly : Obligations.BusErrorExactly := by
  intro s size v hl
  refine ⟨fun off hoff hr => ?_, fun addr hout => ?_⟩
  · have hown : s.owns (s.base + off) = true := owns_eq_true_iff.2 ⟨by omega, by omega⟩
    have hdecode : decodeAccess s.lmax (s.base + off - s.base) size = none ↔ Spec.badAccess s.cap.toNat off size := by
      rw [Nat.add_sub_cancel_left, decodeAccess_eq_none_iff hl]
    by_cases hbad : Spec.badAccess s.cap.toNat off size
    · have hnone := hdecode.2 hbad
      exact ⟨iff_of_true (memRead_undecoded hown hr hnone) hbad, iff_of_true (memWrite_undecoded v hown hr hnone) hbad,
        fun hok => absurd hbad hok⟩
    · obtain ⟨r, hread⟩ := memRead_decoded hown hr (mt hdecode.1 hbad)
      obtain ⟨t, hwrite⟩ := memWrite_decoded v hown hr (mt hdecode.1 hbad)
      exact ⟨iff_of_false (hread ▸ nofun) hbad, iff_of_false (hwrite ▸ nofun) hbad, fun _ => ⟨⟨r, hread⟩, t, hwrite⟩⟩
  · have hown := owns_eq_false_of_outside hout
    simp only [memRead, memWrite, hown, Bool.false_eq_true, if_false, and_self]

/-! ## STATUS, while busy or not (R65) -/

theorem answer_status (s : State) : s.answer (regOffset .status) 4 = .word s.statusWord := by
  simp only [State.answer, decodeAccess, if_pos, placeAt_reg, ne_eq, not_true_eq_false, decide_false, Bool.and_false,
    Bool.false_eq_true, if_false, State.placeWord, State.regWord]

theorem memRead_status {s : State} (hr : s.inReset = false) :
    memRead (s.base + regOffset .status) 4 s =
      .next (s.statusWord, s.deliver (s.base + regOffset .status) s.statusWord) := by
  have hlt := (regOffset_lt .status).1
  refine memRead_word (owns_eq_true_iff.2 ⟨by omega, by omega⟩) hr ?_
  rw [Nat.add_sub_cancel_left, answer_status]

/-- STATUS is its high bits, with the five flags below them one by one (R23). -/
theorem statusWord_eq_concat (s : State) :
    s.statusWord =
      (((((0#20 ++ s.err.code ++ 0#3).concat s.overrun).concat s.constructed).concat s.bbsLoaded).concat s.lcgLoaded).concat
        s.busy := rfl

/-- Bits 4 to 0 of STATUS (R23). -/
theorem statusWord_flags (s : State) :
    s.statusWord.getLsbD 0 = s.busy ∧ s.statusWord.getLsbD 1 = s.lcgLoaded ∧ s.statusWord.getLsbD 2 = s.bbsLoaded ∧
      s.statusWord.getLsbD 3 = s.constructed ∧ s.statusWord.getLsbD 4 = s.overrun := by
  simp only [statusWord_eq_concat, BitVec.getLsbD_concat_zero, BitVec.getLsbD_concat_succ, and_self]

/-- Settles O46: STATUS is read and written as ever, and every other place is neither read nor written. -/
theorem accessesWhileBusy : Obligations.AccessesWhileBusy := by
  intro s p v hinv hp hr hb
  have hl := hinv.cap.2
  have herr : s.err = .ok := hinv.busyErr fun hnone => by simp [State.busy, hnone] at hb
  obtain ⟨hbusy, hlcg, hbbs, hcon, hover⟩ := statusWord_flags s
  refine ⟨⟨_, memRead_status hr, memRead_sameBlock (memRead_status hr), hbusy.trans hb, ?_, hlcg, hbbs, hcon, hover⟩,
    fun hne => ?_, (writeDoes s (.reg .status) v hl rfl hr).1 rfl, fun hne => (writeDoes s p v hl hp hr).2.1 hne hb⟩
  · rw [statusErrField_statusWord, herr]
    rfl
  · have hany : s.answer (placeOffset p) 4 = .anyWord := by
      rw [answer_place hl hp, hb, if_pos (by simp [hne])]
    have hread := memRead_any (addr := s.base + placeOffset p) (owns_place hl hp) hr
      (by rw [Nat.add_sub_cancel_left, hany])
    exact ⟨hany, _, _, hread, memRead_sameBlock hread⟩

/-! ## Reads (R66) -/

/-- What the block answers is a matter of the block only. -/
theorem answer_of_sameBlock {s t : State} (h : State.sameBlock s t) (off size : Nat) :
    t.answer off size = s.answer off size := by
  unfold State.sameBlock at h
  rw [h]
  rfl

/-- Settles O47: a read keeps the block, and the block's answer is all that a read returns where it fixes the word. -/
theorem readsHaveNoSideEffect : Obligations.ReadsHaveNoSideEffect := by
  intro s t addr size v h
  have hsame := memRead_sameBlock h
  have hanswer := answer_of_sameBlock hsame
  obtain ⟨hown, hr, hcase⟩ := memRead_cases h
  refine ⟨hsame, hanswer, hcase.imp And.left And.left, fun hv => ?_⟩
  have hown' : t.owns addr = true := by rw [memRead_frame h]; exact hown
  have hr' : t.inReset = false := by rw [memRead_frame h]; exact hr
  have hbase : t.base = s.base := by rw [memRead_frame h]
  have hagain := memRead_word hown' hr' (by rw [hbase, hanswer, hv])
  exact ⟨_, hagain, State.sameBlock_trans hsame (memRead_sameBlock hagain)⟩

end Sys2Proof.Machine
end

section
/-! The end of a host program (70_reset_and_hazards.md R190): along the steps to it a `wait` that counts leaves the block idle with
reset released, and only the instructions still to come decide whether one will count. -/

namespace Sys2Proof.Machine

/-! ## `wait` (R93) -/

/-- With reset released, `wait` keeps the block; it goes round again exactly while BUSY = 1. -/
theorem pollStatus_eq {s : State} (hr : s.inReset = false) :
    pollStatus s =
      if s.busy then
        .next { s.deliver (s.base + regOffset .status) s.statusWord with program := .wait :: s.program }
      else
        .next { s.deliver (s.base + regOffset .status) s.statusWord with waitStatus := some s.statusWord } := by
  rw [pollStatus, memRead_status hr, afterRead, statusBusyBit, (statusWord_flags s).1]
  rfl

/-- A `wait` in an idle block with reset released returns, and keeps the block. -/
theorem wait_idle {s : State} (hp : s.pending = none) (hr : s.inReset = false) :
    ∃ t, hostAction .wait s = .next t ∧ t.program = s.program ∧ State.sameBlock s t := by
  have hwait := pollStatus_eq hr
  rw [busy_eq_false_iff.2 hp] at hwait
  exact ⟨_, hwait, rfl, rfl⟩

/-- A `wait` that returns leaves the block as it was, idle and with reset released. -/
theorem wait_returned {s t : State} (h : hostAction .wait s = .next t) (hp : t.program = s.program) :
    t.pending = none ∧ t.inReset = false := by
  have h : pollStatus s = .next t := h
  have hr : s.inReset = false := by
    rw [pollStatus] at h
    obtain ⟨v, u, hread, _⟩ := afterRead_cases h
    exact (memRead_cases hread).2.1
  rw [pollStatus_eq hr] at h
  split at h
  · cases h
    exact absurd hp (List.cons_ne_self _ _)
  · cases h
    exact ⟨busy_eq_false_iff.1 (Bool.eq_false_iff.2 ‹_›), hr⟩

/-! ## The steps to the end -/

/-- What every step keeps holds at the end, which a run reaches with the program at its end. -/
theorem endFrom_reached {P : Bool → State → Prop}
    (hstep : ∀ waited s u, step s = .next u → P waited s → P (waitedAfter waited s u) u) {k : Nat} {waited : Bool}
    {s t : State} (hP : P waited s) (h : endFrom k waited s = some t) :
    P true t ∧ t.program = [] ∧ ∃ j, j ≤ k ∧ Sys2Proof.core.run j s = .next t := by
  induction k generalizing waited s with
  | zero => exact nomatch h
  | succ k ih =>
    obtain ⟨u, hu, ⟨hlast, hw, rfl⟩ | ⟨_, hrest⟩⟩ := endFrom_cases h
    · refine ⟨hw ▸ hstep waited s t hu hP, ?_, 1, by omega, run_next hu⟩
      simp only [lastInstruction, Bool.and_eq_true, List.isEmpty_iff] at hlast
      exact hlast.2
    · obtain ⟨hPt, hprog, j, hj, hrun⟩ := ih (hstep waited s u hu hP) hrest
      exact ⟨hPt, hprog, j + 1, by omega, (run_next hu).trans hrun⟩

/-- A host step does nothing when the program is over, and else takes the next action off it (R69). -/
theorem hostStep_action {s t : State} (h : hostStep s = .next t) :
    (s.program = [] ∧ t = s) ∨
      ∃ a rest, s.program = a :: rest ∧ hostAction a { s with program := rest } = .next t := by
  unfold hostStep at h
  split at h
  · cases h
    exact .inl ⟨‹_›, rfl⟩
  · exact .inr ⟨_, _, ‹_›, h⟩

/-- The engine leaves the host's program alone. -/
theorem engineStep_program {s t : State} (h : engineStep s = .next t) : t.program = s.program := by
  obtain ⟨_, rfl⟩ | ⟨_, _, ⟨_, _, rfl⟩ | ⟨i, _, he⟩⟩ := engineStep_cases h
  · rfl
  · rfl
  · rw [completionFrame i s t he]

/-- A block that is idle with reset released stays so through a step after which a `wait` still counts, and is so after a `wait`
that returns. -/
theorem waitedAfter_settled {waited : Bool} {s u : State} (h : step s = .next u)
    (hs : waited = true → s.pending = none ∧ s.inReset = false) (hw : waitedAfter waited s u = true) :
    u.pending = none ∧ u.inReset = false := by
  obtain ⟨_, rfl, ⟨hturn, hhost⟩ | ⟨hturn, hengine⟩ | ⟨hturn, _⟩ | ⟨hturn, rfl⟩⟩ := step_cases h
  · obtain ⟨hp, rfl⟩ | ⟨a, rest, hp, hact⟩ := hostStep_action hhost
    · have hp : s.program = [] := hp
      rw [waitedAfter, hturn, hp] at hw
      exact hs hw
    · obtain ⟨rfl, hrest⟩ | ⟨hobs, hwaited⟩ := (waitedAfter_host hturn hp).1 hw
      · exact wait_returned hact hrest
      · obtain ⟨hsame, _⟩ := hostAction_observes hobs hact
        unfold State.sameBlock at hsame
        rw [hsame]
        exact hs hwaited
  · rw [waitedAfter_other (by simp [hturn]) (by simp [hturn])] at hw
    obtain ⟨_, rfl⟩ | ⟨w, hpending, _⟩ := engineStep_cases hengine
    · exact hs hw
    · have hsome : s.pending = some w := hpending
      rw [(hs hw).1] at hsome
      exact nomatch hsome
  · rw [waitedAfter_assertReset hturn] at hw
    exact nomatch hw
  · rw [waitedAfter_other (by simp [hturn]) (by simp [hturn])] at hw
    exact ⟨(hs hw).1, rfl⟩

/-! ## What the rest of a program decides -/

/-- A `wait`, or the `wait` that a `cmd` ends in (R92). -/
def waits (a : HostInstr) : Bool :=
  match a with
  | .wait => true
  | .cmd _ => true
  | _ => false

/-- Whether a `wait` counts at the end of a program, when `waited` says so before it and every instruction goes through. -/
def endsWaited (waited : Bool) (program : List HostInstr) : Bool :=
  program.foldl (fun w a => waits a || (observes a && w)) waited

theorem endsWaited_cons (waited : Bool) (a : HostInstr) (rest : List HostInstr) :
    endsWaited waited (a :: rest) = endsWaited (waits a || (observes a && waited)) rest := rfl

theorem endsWaited_append (waited : Bool) (p q : List HostInstr) :
    endsWaited waited (p ++ q) = endsWaited (endsWaited waited p) q := List.foldl_append

/-- A `wait` that has counted before can only help. -/
theorem endsWaited_mono {waited : Bool} {p : List HostInstr} (h : endsWaited waited p = false) :
    endsWaited false p = false := by
  induction p generalizing waited with
  | nil => rfl
  | cons a rest ih =>
    rw [endsWaited_cons] at h ⊢
    cases hw : waits a with
    | true => rwa [hw, Bool.true_or] at h
    | false => rw [Bool.and_false, Bool.or_false]; exact ih h

/-- A program of reads and assertions adds no `wait`. -/
theorem endsWaited_observes {p : List HostInstr} (h : p.all observes = true) : endsWaited false p = false := by
  induction p with
  | nil => rfl
  | cons a rest ih =>
    rw [List.all_cons, Bool.and_eq_true] at h
    have hw : waits a = false := by cases a <;> simp_all [waits, observes]
    rw [endsWaited_cons, hw, Bool.and_false]
    exact ih h.2

/-- Where the host's turn takes `a` off the program, the rest decides as the whole program did. -/
theorem waitedAfter_host_eq {waited : Bool} {s t : State} {a : HostInstr} {rest : List HostInstr} (hturn : nextTurn s = .host)
    (hp : s.program = a :: rest) (ht : t.program = rest) (ha : ∀ i, a ≠ .cmd i) :
    waitedAfter waited s t = (waits a || (observes a && waited)) := by
  have hw : waits a = decide (a = .wait) := by cases a <;> simp_all [waits]
  rw [Bool.eq_iff_iff, waitedAfter_host hturn hp, hw]
  simp [ht]

/-- No step makes a `wait` count at the end of a program that leads to none. -/
theorem step_keeps_endsWaited {waited : Bool} {s u : State} (h : step s = .next u)
    (hs : endsWaited waited s.program = false) : endsWaited (waitedAfter waited s u) u.program = false := by
  obtain ⟨_, rfl, ⟨hturn, hhost⟩ | ⟨hturn, hengine⟩ | ⟨hturn, rfl⟩ | ⟨hturn, rfl⟩⟩ := step_cases h
  · obtain ⟨hp, rfl⟩ | ⟨a, rest, hp, hact⟩ := hostStep_action hhost
    · have hp : s.program = [] := hp
      rw [waitedAfter, hturn, hp]
      rwa [hp] at hs
    · have hp : s.program = a :: rest := hp
      rw [hp] at hs
      obtain ⟨hrest, ha⟩ | ⟨hagain, ha⟩ := hostAction_program hact
      · rw [hrest, waitedAfter_host_eq hturn hp hrest ha]
        exact hs
      · have hwaits : waits a = true := by obtain rfl | ⟨i, rfl⟩ := ha <;> rfl
        rw [endsWaited_cons, hwaits] at hs
        rw [hagain]
        exact hs
  · rw [waitedAfter_other (by simp [hturn]) (by simp [hturn]), engineStep_program hengine]
    exact hs
  · rw [waitedAfter_assertReset hturn]
    exact endsWaited_mono hs
  · rw [waitedAfter_other (by simp [hturn]) (by simp [hturn])]
    exact hs

/-- A program that leads to no `wait` that counts has no end state. -/
theorem programEnd_eq_none {k : Nat} {s : State} (h : endsWaited false s.program = false) : programEnd k s = none := by
  cases hend : programEnd k s with
  | none => rfl
  | some t =>
    obtain ⟨hP, hprog, _⟩ :=
      endFrom_reached (P := fun w s => endsWaited w s.program = false) (fun _ _ _ => step_keeps_endsWaited) h hend
    rw [hprog] at hP
    exact nomatch hP

/-- No `wait` counts at the end of a program whose last instruction, but for reads and assertions, is neither `wait` nor `cmd`. -/
theorem endsWaited_of_last {before after : List HostInstr} (hafter : after.all observes = true)
    (hlast : ∀ a, before.getLast? = some a → a ≠ .wait ∧ (∀ i, a ≠ .cmd i) ∧ observes a = false) :
    endsWaited false (before ++ after) = false := by
  have hbefore : endsWaited false before = false := by
    cases before using List.reverseRecOn with
    | nil => rfl
    | append_singleton init a =>
      obtain ⟨hwait, hcmd, hobs⟩ := hlast a List.getLast?_concat
      have hw : waits a = false := by cases a <;> simp_all [waits]
      rw [endsWaited_append, endsWaited_cons, hw, hobs]
      rfl
  rw [endsWaited_append, hbefore, endsWaited_observes hafter]

/-! ## The end state -/

theorem answer_of_endValue {s : State} {off : Nat} {x : Word} (h : endValue s off = some x) : s.answer off 4 = .word x := by
  unfold endValue at h
  split at h
  · exact nomatch h
  · cases ha : s.answer off 4 with
    | word v => rw [ha] at h; exact congrArg Answer.word (Option.some.inj h)
    | anyWord => rw [ha] at h; exact nomatch h
    | busError => rw [ha] at h; exact nomatch h

/-- In an end state a read of a place is answered, with the value R190 gives it. -/
theorem memRead_endValue {t : State} {p : Place} (hl : t.cap.toNat ≤ 8192) (hp : p.wellFormed t.cap.toNat = true)
    (hr : t.inReset = false) (hb : t.pending = none) :
    ∃ v u, memRead (t.base + placeOffset p) 4 t = .next (v, u) ∧ ∀ x, endValue t (placeOffset p) = some x → v = x := by
  obtain ⟨v, u, hread, _, _⟩ := memRead_place_idle hl hp hr (busy_eq_false_iff.2 hb)
  refine ⟨v, u, hread, fun x hx => ?_⟩
  obtain ⟨_, _, hcase⟩ := memRead_cases hread
  rw [Nat.add_sub_cancel_left, answer_of_endValue hx] at hcase
  obtain ⟨hword, _⟩ | ⟨hany, _⟩ := hcase
  · exact (Answer.word.inj hword).symm
  · exact nomatch hany

/-! ## Programs that end -/

theorem decode_encode (i : Instr) : decode (encode i) = .legal i := by cases i <;> decide

/-- With no turn on the schedule and nothing in flight, the turn is the host's. -/
theorem nextTurn_idle {s : State} (hs : s.schedule = []) (hp : s.pending = none) : nextTurn s = .host := by
  rw [nextTurn, hs]
  dsimp only
  rw [defaultTurn, busy_eq_false_iff.2 hp]
  rfl

/-- With no turn on the schedule and nothing in flight, the step is the next host action. -/
theorem step_nil_idle {s : State} {a : HostInstr} {rest : List HostInstr} (hs : s.schedule = []) (hp : s.pending = none)
    (hprog : s.program = a :: rest) : step s = hostAction a { s with program := rest } := by
  rw [step_nil hs, defaultTurn, busy_eq_false_iff.2 hp]
  change hostStep s = _
  rw [hostStep, hprog]

/-- With no turn on the schedule, the step completes the command in flight. -/
theorem step_nil_exec {s : State} {i : Instr} (hs : s.schedule = []) (hp : s.pending = some (encode i)) :
    step s = exec i s := by
  rw [step_nil_busy hs hp, engineStep_legal hp (decode_encode i)]

/-- A step after which the program still holds an instruction is not the last. -/
theorem endFrom_succ {k : Nat} {waited : Bool} {s u : State} (h : step s = .next u) (hp : u.program ≠ []) :
    endFrom (k + 1) waited s = endFrom k (waitedAfter waited s u) u := by
  have hlast : lastInstruction s u = false := by simp [lastInstruction, hp]
  simp only [endFrom, h, hlast, Bool.false_eq_true, if_false]

/-- A last `wait` in an idle block with reset released ends the program with the block as it is. -/
theorem endFrom_wait {k : Nat} {waited : Bool} {s : State} (hs : s.schedule = []) (hprog : s.program = [.wait])
    (hp : s.pending = none) (hr : s.inReset = false) : ∃ t, endFrom (k + 1) waited s = some t ∧ State.sameBlock s t := by
  obtain ⟨t, hwait, ht, hsame⟩ := wait_idle (s := { s with program := [] }) hp hr
  have hstep : step s = .next t := (step_nil_idle hs hp hprog).trans hwait
  have hturn := nextTurn_idle hs hp
  have hlast : lastInstruction s t = true := by simp [lastInstruction, hturn, hprog, ht]
  have hwaited : waitedAfter waited s t = true := (waitedAfter_host hturn hprog).2 (.inl ⟨rfl, ht⟩)
  refine ⟨t, ?_, State.sameBlock_trans (State.sameBlock_program s []) hsame⟩
  simp only [endFrom, hstep, hlast, hwaited, if_true]

/-- A last `cmd` ends the program with the block that the command leaves: acceptance, completion, and the `wait`. -/
theorem endFrom_cmd {waited : Bool} {s t : State} {i : Instr} (hs : s.schedule = []) (hprog : s.program = [.cmd i])
    (hp : s.pending = none) (hr : s.inReset = false)
    (he : exec i (State.accept { s with program := [.wait] } (encode i)) = .next t) :
    ∃ u, endFrom 3 waited s = some u ∧ State.sameBlock t u := by
  have hidle : State.busy { s with program := [.wait] } = false := busy_eq_false_iff.2 hp
  have haccept : step s = .next (State.accept { s with program := [.wait] } (encode i)) :=
    (step_nil_idle hs hp hprog).trans (memWrite_cmd_idle (encode i) hr hidle)
  have hcomplete : step (State.accept { s with program := [.wait] } (encode i)) = .next t := by
    refine (step_nil_exec ?_ (State.accept_pending _ _)).trans he
    exact hs
  have hframe := completionFrame i _ t he
  have hprog' : t.program = [.wait] := by rw [hframe]; rfl
  have hs' : t.schedule = [] := by rw [hframe]; exact hs
  have hr' : t.inReset = false := by rw [hframe]; exact hr
  rw [endFrom_succ haccept (List.cons_ne_nil _ _), endFrom_succ hcomplete (by rw [hprog']; exact List.cons_ne_nil _ _)]
  exact endFrom_wait hs' hprog' (exec_pending he) hr'

/-- Settles O57: a `wait` that counts leaves the block idle, no other program makes one count, and the two programs step to
their ends. -/
theorem endOfAHostProgram : Obligations.EndOfAHostProgram := by
  refine ⟨fun k s t h => ?_, fun k s before after hprog hafter hlast => ?_, fun s => endFrom_wait,
    fun s t i => endFrom_cmd⟩
  · obtain ⟨hsettled, hprog, hrun⟩ :=
      endFrom_reached (waited := false) (P := fun w s => w = true → s.pending = none ∧ s.inReset = false)
        (fun _ _ _ => waitedAfter_settled) (fun hw => nomatch hw) h
    obtain ⟨hp, hr⟩ := hsettled rfl
    exact ⟨hrun, hprog, hp, hr, fun p hl hwf => memRead_endValue hl hwf hr hp⟩
  · exact programEnd_eq_none (hprog ▸ endsWaited_of_last hafter hlast)

end Sys2Proof.Machine
end

section
/-! Decoding against encoding (30_encoding.md R80 to R90): the word that decodes to a command is the one that holds its fields, the
tables of R85 list each command's word and mnemonic, and a mnemonic assembles to its command. -/

namespace Sys2Proof.Machine

/-! ## The decoder inverts the encoder (R80, R85, R86) -/

/-- OP, METHOD and RSVD are all of a word (R80). -/
theorem joinFields_splitWord (w : Word) : joinFields (splitWord w) = w := by
  change w.extractLsb' 10 22 ++ w.extractLsb' 8 2 ++ w.extractLsb' 0 8 = w
  rw [BitVec.extractLsb'_append_extractLsb'_eq_extractLsb' (show 10 = 8 + 2 from rfl),
    BitVec.extractLsb'_append_extractLsb'_eq_extractLsb' (show 8 = 0 + 8 from rfl)]
  exact BitVec.extractLsb'_eq_self

/-- A command selected by an OP and a METHOD has them as its fields (R81, R82). -/
theorem fields_of_mem_instrOf {op : BitVec 8} {o : Operation} (h : operationOf op = some o) (m : BitVec 2) :
    ∀ i ∈ instrOf o m, i.fields = ⟨op, m, 0#22⟩ := by
  unfold operationOf at h
  split_ifs at h
  all_goals
    cases h
    subst op
    revert m
    decide

/-- The decoder answers a command on that command's fields only (R86). -/
theorem fields_of_decodeFields_legal {f : CommandFields} {i : Instr} (h : decodeFields f = .legal i) : i.fields = f := by
  unfold decodeFields at h
  split at h
  · exact nomatch h
  · next hrsvd =>
    split at h
    · exact nomatch h
    · next o hop =>
      split at h
      · exact nomatch h
      · next j hj =>
        obtain rfl : j = i := Decoded.legal.inj h
        rw [fields_of_mem_instrOf hop f.method j hj, ← not_not.1 hrsvd]

/-- The words that decode to a command are its encoding alone. -/
theorem decode_eq_legal_iff {w : Word} {i : Instr} : decode w = .legal i ↔ w = encode i := by
  constructor
  · intro h
    rw [encode, fields_of_decodeFields_legal h, joinFields_splitWord]
  · rintro rfl
    exact decode_encode i

/-- The opcode table numbers the bits of a word as R80 does (R88). -/
theorem decodeTableWord_toNat (w : Word) : decodeTableWord 32 w.toNat = (decode w).instr? := by
  rw [decodeTableWord, Nat.mod_eq_of_lt w.isLt, if_pos w.isLt, BitVec.ofNat_toNat, BitVec.setWidth_eq]

/-- Settles O3, from the decoder as the encoder's inverse. -/
theorem decodeAndEncodeAgree : Obligations.DecodeAndEncodeAgree := by
  intro i _
  refine ⟨decode_encode i, fun w => decode_eq_legal_iff.1, ?_⟩
  rw [decodeTableWord_toNat, decode_encode, Decoded.instr?]

/-- Settles O4: a word is legal exactly when it is not illegal. -/
theorem decodeRejectsExactlyTheIllegalWords : Obligations.DecodeRejectsExactlyTheIllegalWords := by
  intro w
  refine ⟨decode_illegal_iff w, ?_⟩
  rw [← decode_illegal_iff]
  cases decode w <;> simp

/-! ## The tables of R85 and the mnemonics (R90) -/

theorem mem_allInstrs (i : Instr) : i ∈ allInstrs := by cases i <;> decide

theorem wordTable_eq : Spec.wordTable = allInstrs.map fun i => (encode i, i) := by decide

theorem mnemonicTable_eq : Spec.mnemonicTable = allInstrs.map fun i => (encode i, i.mnemonic) := by decide

theorem assemble_mnemonic (i : Instr) : assemble i.mnemonic = some i := by cases i <;> decide

/-- No two commands share a mnemonic, since each assembles to one command. -/
theorem mnemonic_inj {i j : Instr} : i.mnemonic = j.mnemonic ↔ i = j := by
  refine ⟨fun h => ?_, congrArg _⟩
  have hij := congrArg assemble h
  rwa [assemble_mnemonic, assemble_mnemonic, Option.some.injEq] at hij

theorem mem_wordTable_iff {w : Word} {i : Instr} : (w, i) ∈ Spec.wordTable ↔ w = encode i := by
  simp [wordTable_eq, mem_allInstrs, eq_comm]

theorem mem_mnemonicTable_iff {w : Word} {m : String} :
    (w, m) ∈ Spec.mnemonicTable ↔ ∃ i : Instr, w = encode i ∧ m = i.mnemonic := by
  simp [mnemonicTable_eq, mem_allInstrs, eq_comm]

/-- Settles O2: both tables list the encoding of each command, and no two commands share a mnemonic. -/
theorem legalWordsAreTheThirteen : Obligations.LegalWordsAreTheThirteen := by
  intro w i
  rw [mem_wordTable_iff, mem_mnemonicTable_iff, decode_eq_legal_iff]
  simp only [mnemonic_inj, exists_eq_right', and_self]

/-- Settles O1, by evaluating the decoder on the seven words. -/
theorem tableWordsDecode : Obligations.TableWordsDecode := by
  unfold Obligations.TableWordsDecode
  decide

/-- Settles O6: a row of the table is a command's word and mnemonic, and the mnemonic assembles to the command. -/
theorem mnemonicsStandForTheirWords : Obligations.MnemonicsStandForTheirWords := by
  refine ⟨fun w m hrow => ?_, assemble_mnemonic, by decide, by decide, by decide⟩
  obtain ⟨i, rfl, rfl⟩ := mem_mnemonicTable_iff.1 hrow
  rw [assemble_mnemonic, Option.map_some]

end Sys2Proof.Machine
end

section
/-! The host's assembly (30_encoding.md R91 to R93): `wait` polls STATUS until the block is idle, and `cmd` is acceptance, completion
and a `wait` that returns. -/

namespace Sys2Proof.Machine

/-- Settles O55: a poll keeps the block, and STATUS holds BUSY and ERR. -/
theorem waitPollsUntilIdle : Obligations.WaitPollsUntilIdle := by
  intro s hr
  have hpoll : hostAction .wait s = _ := pollStatus_eq hr
  constructor
  · intro hb
    rw [if_pos hb] at hpoll
    exact ⟨_, hpoll, rfl, rfl, rfl⟩
  · intro hb
    rw [if_neg (Bool.eq_false_iff.1 hb)] at hpoll
    exact ⟨_, hpoll, rfl, rfl, rfl, statusErrField_statusWord s⟩

theorem State.sameBlock_cmd {s t : State} (h : State.sameBlock s t) : t.cmd = s.cmd := by
  unfold State.sameBlock at h
  rw [h]

/-- A `cmd` at an idle block with reset released is an acceptance, with the `wait` still to come (R92). -/
theorem step_cmd {s : State} {i : Instr} {rest : List HostInstr} (hs : s.schedule = []) (hprog : s.program = .cmd i :: rest)
    (hp : s.pending = none) (hr : s.inReset = false) :
    step s = .next (State.accept { s with program := .wait :: rest } (encode i)) := by
  have hidle : State.busy { s with program := .wait :: rest } = false := busy_eq_false_iff.2 hp
  exact (step_nil_idle hs hp hprog).trans (memWrite_cmd_idle (encode i) hr hidle)

/-- A `wait` at an idle block with reset released returns the STATUS (R93). -/
theorem step_wait {s : State} {rest : List HostInstr} (hs : s.schedule = []) (hprog : s.program = .wait :: rest)
    (hp : s.pending = none) (hr : s.inReset = false) :
    ∃ u, step s = .next u ∧ State.sameBlock s u ∧ u.program = rest ∧ u.waitStatus = some s.statusWord := by
  obtain ⟨u, hwait, hsame, hprog', hstatus, _⟩ :=
    (waitPollsUntilIdle { s with program := rest } hr).2 (busy_eq_false_iff.2 hp)
  exact ⟨u, (step_nil_idle hs hp hprog).trans hwait, State.sameBlock_trans (State.sameBlock_program s rest) hsame, hprog',
    hstatus⟩

/-- Settles O56: the three steps are the acceptance, the completion and the `wait`, and completion keeps CMD and the program. -/
theorem cmdIssuesAndWaits : Obligations.CmdIssuesAndWaits := by
  intro s t i rest hs hprog hp hr he
  have haccept := step_cmd hs hprog hp hr
  have hcomplete : step (State.accept { s with program := .wait :: rest } (encode i)) = .next t := by
    refine (step_nil_exec ?_ (State.accept_pending _ _)).trans he
    exact hs
  have hframe := completionFrame i _ t he
  have hs' : t.schedule = [] := by rw [hframe]; exact hs
  have hprog' : t.program = .wait :: rest := by rw [hframe]
  have hr' : t.inReset = false := by rw [hframe]; exact hr
  have hcmd : t.cmd = encode i := by rw [hframe]
  obtain ⟨u, hwait, hsame, hrest, hstatus⟩ := step_wait hs' hprog' (exec_pending he) hr'
  refine ⟨u, ?_, hsame, hrest, hstatus, ?_⟩
  · rw [run_next haccept, run_next hcomplete, run_next hwait]
    rfl
  · exact (State.sameBlock_cmd hsame).trans hcmd

end Sys2Proof.Machine
end

section
/-! The LCG commands (41_lcg.md): what each answers, that LCG_GEN is LCG_NEXT repeated, the laws of R105, and which steps change
the generator (R106). -/

namespace Sys2Proof.Machine

/-! ## What the commands answer (R100, R101) -/

theorem execLcgLoad_fail {s : State} (h : s.lcgM = 0) : execLcgLoad s = .next (s.finish .badParameter) := if_pos h

theorem execLcgLoad_ok {s : State} (h : s.lcgM ≠ 0) : execLcgLoad s = .next (s.loadLcg.finish .ok) := if_neg h

theorem execLcgNext_fail {s : State} (h : s.lcgLoaded = false) : execLcgNext s = .next (s.finish .notLoaded) :=
  if_neg (Bool.eq_false_iff.1 h)

theorem execLcgNext_ok {s : State} (h : s.lcgLoaded = true) : execLcgNext s = .next (s.lcgTick.finish .ok) := if_pos h

theorem execLcgGen_notLoaded {s : State} (h : s.lcgLoaded = false) : execLcgGen s = .next (s.finish .notLoaded) :=
  if_neg (Bool.eq_false_iff.1 h)

theorem execLcgGen_capacity {s : State} (h : s.lcgLoaded = true) (hn : s.lmax < s.genCount) :
    execLcgGen s = .next (s.finish .capacity) := (if_pos h).trans (if_pos hn)

/-- The reduced seed fits LCG_STATE (R100). -/
theorem State.loadLcg_lcgState_toNat (s : State) : s.loadLcg.lcgState.toNat = s.lcgSeed.toNat % s.lcgM.toNat := by
  rw [State.loadLcg_lcgState, BitVec.toNat_ofNat, Nat.mod_eq_of_lt ((Nat.mod_le _ _).trans_lt s.lcgSeed.isLt)]

/-- Settles O23, by whether LCG_M is 0. -/
theorem lcgLoadEffect : Obligations.LcgLoadEffect :=
  ⟨by decide, fun s => ⟨execLcgLoad_fail, fun hm => ⟨_, execLcgLoad_ok hm, s.loadLcg_lcgState_toNat⟩⟩⟩

/-- Settles O24: the step is exact, and its remainder is below the modulus. -/
theorem lcgNextEffect : Obligations.LcgNextEffect := by
  refine ⟨by decide, fun s => ⟨execLcgNext_fail, fun hl hm => ?_⟩⟩
  have hstate : s.lcgTick.lcgState.toNat = _ := lcgTicks_lcgState 1 s hm
  refine ⟨_, _, execLcgNext_ok hl, hstate, ?_, lcgTicks_lcgOut 1 s hm one_pos⟩
  rw [hstate]
  exact Nat.mod_lt _ hm

/-! ## LCG_GEN (R103) -/

theorem Buffer.read_writeFrom_zero_of_lt {w : Nat} (b : Buffer w) {vs : List (BitVec w)} {i : Nat} (hi : i < vs.length) :
    Buffer.read (Buffer.writeFrom b 0 vs) i = vs[i]? := by
  rw [Buffer.read_writeFrom, if_pos ⟨Nat.zero_le i, by omega⟩, Nat.sub_zero]

theorem Buffer.read_writeFrom_zero_of_le {w : Nat} (b : Buffer w) {vs : List (BitVec w)} {i : Nat} (hi : vs.length ≤ i) :
    Buffer.read (Buffer.writeFrom b 0 vs) i = Buffer.read b i := by
  rw [Buffer.read_writeFrom, if_neg (by omega)]

/-- What LCG_GEN leaves in OUT: below the number of steps the outputs in order, and the old content from there on. -/
theorem read_lcgOutputs (n : Nat) (s : State) (b : Buffer 64) :
    (∀ i, i < n → Buffer.read (Buffer.writeFrom b 0 ((State.lcgTicks n s).1.map (BitVec.setWidth 64))) i =
      (State.lcgTicks n s).1[i]?.map (BitVec.setWidth 64)) ∧
    ∀ i, n ≤ i → Buffer.read (Buffer.writeFrom b 0 ((State.lcgTicks n s).1.map (BitVec.setWidth 64))) i =
      Buffer.read b i := by
  have hlen : ((State.lcgTicks n s).1.map (BitVec.setWidth 64)).length = n := by rw [List.length_map, lcgTicks_length]
  refine ⟨fun i hi => ?_, fun i hi => Buffer.read_writeFrom_zero_of_le b (hlen.trans_le hi)⟩
  rw [Buffer.read_writeFrom_zero_of_lt b (hi.trans_eq hlen.symm), List.getElem?_map]

/-- A 7-bit output, zero-extended to an OUT entry. -/
theorem setWidth_ofNat_mod_128 (x : Nat) : (BitVec.ofNat 7 (x % 128)).setWidth 64 = BitVec.ofNat 64 (x % 128) := by
  apply BitVec.eq_of_toNat_eq
  simp only [BitVec.toNat_setWidth, BitVec.toNat_ofNat]
  omega

/-- Settles O25, from the value and the outputs of a number of steps. -/
theorem lcgGenEffect : Obligations.LcgGenEffect := by
  refine ⟨by decide, fun s => ⟨execLcgGen_notLoaded, execLcgGen_capacity, fun hl hm hn => ?_⟩⟩
  obtain ⟨hbelow, habove⟩ := read_lcgOutputs s.genCount s s.outBuf
  refine ⟨_, _, _, execLcgGen_ok hl hn, lcgTicks_lcgState s.genCount s hm, fun h0 => ?_, lcgTicks_lcgOut s.genCount s hm,
    fun i hi => ?_, habove⟩
  · rw [State.genCount, h0, State.lcgTicks]
  · rw [hbelow i hi, lcgTicks_out s.genCount s hm i hi, Option.map_some, setWidth_ofNat_mod_128]
    rfl

/-! ## LCG_GEN as repeated LCG_NEXT (R101, R103) -/

/-- Steps do not see how the command before ended. -/
theorem lcgTicks_finish (e : ErrCode) (n : Nat) (s : State) :
    State.lcgTicks n (s.finish e) = ((State.lcgTicks n s).1, (State.lcgTicks n s).2.finish e) := by
  induction n generalizing s with
  | zero => rfl
  | succ n ih =>
    rw [State.lcgTicks, show (s.finish e).lcgTick = s.lcgTick.finish e from rfl, ih]
    rfl

/-- LCG_NEXT commands in a row are as many steps, up to ERR and PENDING: zero of them leave these two as they were. -/
theorem execTimes_lcgNext (n : Nat) {s : State} (hl : s.lcgLoaded = true) :
    ∃ u, Spec.execTimes .lcgNext n s = .next u ∧ u.finish .ok = (State.lcgTicks n s).2.finish .ok := by
  induction n generalizing s with
  | zero => exact ⟨s, rfl, rfl⟩
  | succ n ih =>
    have hnext : exec .lcgNext s = .next (s.lcgTick.finish .ok) := execLcgNext_ok hl
    obtain ⟨u, hu, hfin⟩ := ih (s := s.lcgTick.finish .ok) hl
    rw [lcgTicks_finish] at hfin
    exact ⟨u, by rw [Spec.execTimes, hnext]; exact hu, hfin⟩

/-- Each output in the list is LCG_OUT after that many steps. -/
theorem lcgTicks_getElem? {n i : Nat} (s : State) (hi : i < n) :
    (State.lcgTicks n s).1[i]? = some (State.lcgTicks (i + 1) s).2.lcgOut := by
  induction n generalizing s i with
  | zero => exact absurd hi (Nat.not_lt_zero i)
  | succ n ih =>
    cases i with
    | zero => rfl
    | succ i => exact ih s.lcgTick (Nat.lt_of_succ_lt_succ hi)

/-- Settles O26: both sides take the same steps, and the outputs that LCG_GEN stores are the values of LCG_OUT on the way. -/
theorem lcgGenEqualsRepeatedNext : Obligations.LcgGenEqualsRepeatedNext := by
  intro s u hl hn hu
  obtain ⟨hbelow, habove⟩ := read_lcgOutputs s.genCount s s.outBuf
  refine ⟨_, ?_, fun i hi => ?_, habove⟩
  · obtain ⟨u', hu', hfin⟩ := execTimes_lcgNext s.genCount hl
    cases hu.symm.trans hu'
    rw [lcgTicks_frame] at hfin
    refine (execLcgGen_ok hl hn).trans (congrArg Host.Outcome.next ?_)
    exact congrArg (fun v : State => { v with
      outBuf := Buffer.writeFrom s.outBuf 0 ((State.lcgTicks s.genCount s).1.map (BitVec.setWidth 64))
      outLen := s.genLen }) hfin.symm
  · obtain ⟨v, hv, hfin⟩ := execTimes_lcgNext (i + 1) hl
    have hout := congrArg State.lcgOut hfin
    rw [State.finish_lcgOut, State.finish_lcgOut] at hout
    refine ⟨v, hv, ?_⟩
    rw [hbelow i hi, lcgTicks_getElem? s hi, hout, Option.map_some, BitVec.ofNat_toNat]

/-! ## The laws of R105 -/

/-- A recurrence whose values all lie below `m` repeats, from some point on, with a period of at most `m`: among the `m + 1` values
after the first, two are equal. -/
theorem iterate_eventually_periodic {f : Nat → Nat} {m : Nat} (hf : ∀ x, f x < m) (x : Nat) :
    ∃ start period, 1 ≤ period ∧ period ≤ m ∧ ∀ k, start ≤ k → f^[k + period] x = f^[k] x := by
  have hmaps : ∀ k ∈ Finset.range (m + 1), f^[k + 1] x ∈ Finset.range m := fun k _ => by
    rw [Finset.mem_range, Function.iterate_succ_apply']
    exact hf _
  obtain ⟨i, hi, j, hj, hij, heq⟩ : ∃ i ∈ Finset.range (m + 1), ∃ j ∈ Finset.range (m + 1), i < j ∧
      f^[i + 1] x = f^[j + 1] x := by
    obtain ⟨i, hi, j, hj, hne, heq⟩ := Finset.exists_ne_map_eq_of_card_lt_of_maps_to (by simp) hmaps
    obtain hij | hji := Nat.lt_or_gt_of_ne hne
    · exact ⟨i, hi, j, hj, hij, heq⟩
    · exact ⟨j, hj, i, hi, hji, heq.symm⟩
  rw [Finset.mem_range] at hi hj
  refine ⟨i + 1, j - i, by omega, by omega, fun k hk => ?_⟩
  obtain ⟨d, rfl⟩ := Nat.exists_eq_add_of_le' hk
  rw [show d + (i + 1) + (j - i) = d + (j + 1) by omega, Function.iterate_add_apply, ← heq, ← Function.iterate_add_apply]

/-- Settles O27: LCG_STATE follows the recurrence exactly, and its values are remainders below the modulus. -/
theorem lcgSequenceIsEventuallyPeriodic : Obligations.LcgSequenceIsEventuallyPeriodic := by
  intro s hm
  obtain ⟨start, period, hpos, hle, hperiod⟩ := iterate_eventually_periodic
    (f := Spec.lcgNat s.lcgAL.toNat s.lcgCL.toNat s.lcgML.toNat) (fun x => Nat.mod_lt _ hm) s.lcgState.toNat
  refine ⟨start, period, hpos, hle, fun k hk => BitVec.eq_of_toNat_eq ?_⟩
  rw [lcgTicks_lcgState _ s hm, lcgTicks_lcgState _ s hm]
  exact hperiod k hk

/-- States alike in the latched parameters and LCG_STATE stay alike in LCG_STATE through a number of steps. -/
theorem lcgTicks_lcgState_congr (n : Nat) {s t : State} (ha : t.lcgAL = s.lcgAL) (hc : t.lcgCL = s.lcgCL)
    (hm : t.lcgML = s.lcgML) (hx : t.lcgState = s.lcgState) :
    (State.lcgTicks n t).2.lcgState = (State.lcgTicks n s).2.lcgState := by
  induction n generalizing s t with
  | zero => exact hx
  | succ n ih => exact ih (s := s.lcgTick) (t := t.lcgTick) ha hc hm (by simp [ha, hc, hm, hx])

/-- What LCG_GEN leaves right after a successful LCG_LOAD: the steps from the loaded generator. -/
theorem execLcgGen_after_load {s t u : State} (hm : s.lcgM ≠ 0) (hn : s.genCount ≤ s.lmax)
    (ht : exec .lcgLoad s = .next t) (hu : exec .lcgGen t = .next u) :
    u.lcgState = (State.lcgTicks s.genCount s.loadLcg).2.lcgState ∧
      ∀ i, i < s.genCount →
        Buffer.read u.outBuf i = (State.lcgTicks s.genCount s.loadLcg).1[i]?.map (BitVec.setWidth 64) := by
  have hload : exec .lcgLoad s = .next (s.loadLcg.finish .ok) := execLcgLoad_ok hm
  cases ht.symm.trans hload
  have hgen := execLcgGen_ok (s := s.loadLcg.finish .ok) rfl hn
  cases hu.symm.trans hgen
  rw [lcgTicks_finish]
  exact ⟨rfl, (read_lcgOutputs s.genCount s.loadLcg s.outBuf).1⟩

/-- Settles O28: the two loads leave the same latched parameters and the same LCG_STATE. -/
theorem lcgOutputsDependOnTheReducedSeed : Obligations.LcgOutputsDependOnTheReducedSeed := by
  intro s s' t t' u u' hm ha hc hlen hseed hm0 hn hn' ht ht' hu hu'
  obtain ⟨hstate, hout⟩ := execLcgGen_after_load hm0 hn ht hu
  obtain ⟨hstate', hout'⟩ := execLcgGen_after_load (hm ▸ hm0) hn' ht' hu'
  have hx : s.loadLcg.lcgState = s'.loadLcg.lcgState := congrArg (BitVec.ofNat 32) hseed
  have hcount : s.genCount = s'.genCount := congrArg BitVec.toNat hlen
  refine ⟨?_, fun i hi => ?_⟩
  · rw [hstate, hstate', hcount, lcgTicks_lcgState_congr _ ha hc hm hx]
  · rw [hout i hi, hout' i (hcount ▸ hi), hcount, lcgTicks_congr _ s'.loadLcg s.loadLcg ha hc hm hx]

/-! ## Which steps change the generators and the keystreams (R106) -/

/-- A host step writes neither generator and no keystream (R61). -/
theorem hostStep_parts {s t : State} (h : hostStep s = .next t) :
    Spec.lcgPart t = Spec.lcgPart s ∧ Spec.bbsPart t = Spec.bbsPart s ∧ Spec.ksPart t = Spec.ksPart s := by
  obtain ⟨hb, _⟩ | ⟨p, v, pr, _, _, rfl⟩ := hostStep_cases h
  · unfold State.sameBlock at hb
    rw [hb]
    exact ⟨rfl, rfl, rfl⟩
  · obtain ⟨_, e⟩ | ⟨_, _, e⟩ | ⟨_, _, e⟩ := writePlace_cases { s with program := pr } p v
    · rw [e, writeStatus_eq]
      exact ⟨rfl, rfl, rfl⟩
    · rw [e]
      exact ⟨rfl, rfl, rfl⟩
    · rw [e, writeIdle_frame]
      exact ⟨rfl, rfl, rfl⟩

theorem completing_eq_some {s : State} {w : Word} {i : Instr} (hturn : nextTurn s = .engine) (hp : s.pending = some w)
    (hd : decode w = .legal i) : completing s = some i := by
  rw [completing, hturn, hp]
  exact congrArg Decoded.instr? hd

/-- A step that asserts no reset and completes no legal command leaves both generators and the keystreams as they are. -/
theorem step_parts {s t : State} (h : step s = .next t) :
    nextTurn s = .assertReset ∨
      (∃ i, completing s = some i ∧ exec i { s with schedule := s.schedule.tail } = .next t) ∨
      (Spec.lcgPart t = Spec.lcgPart s ∧ Spec.bbsPart t = Spec.bbsPart s ∧ Spec.ksPart t = Spec.ksPart s) := by
  obtain ⟨_, rfl, ⟨_, hs⟩ | ⟨hturn, hs⟩ | ⟨hturn, _⟩ | ⟨_, rfl⟩⟩ := step_cases h
  · have hparts := hostStep_parts hs
    exact .inr (.inr hparts)
  · obtain ⟨_, rfl⟩ | ⟨w, hp, ⟨_, _, rfl⟩ | ⟨i, hd, he⟩⟩ := engineStep_cases hs
    · exact .inr (.inr ⟨rfl, rfl, rfl⟩)
    · exact .inr (.inr ⟨rfl, rfl, rfl⟩)
    · exact .inr (.inl ⟨i, completing_eq_some hturn hp hd, he⟩)
  · exact .inl hturn
  · exact .inr (.inr ⟨rfl, rfl, rfl⟩)

/-- A command that changes the LCG is one of its own or CONSTRUCT, and succeeds. -/
theorem exec_lcgPart {i : Instr} {s t : State} (h : exec i s = .next t) :
    Spec.lcgPart t = Spec.lcgPart s ∨ (i ∈ [Instr.lcgLoad, .lcgNext, .lcgGen, .construct] ∧ t.err = .ok) := by
  cases exec_cases h with
  | failed e _ _ => exact .inl rfl
  | lcgLoad hi _ => exact .inr ⟨by simp [hi], rfl⟩
  | lcgNext hi _ => exact .inr ⟨by simp [hi], rfl⟩
  | lcgGen hi _ _ => exact .inr ⟨by simp [hi], rfl⟩
  | bbsLoad _ _ => exact .inl rfl
  | bbsNext _ _ => exact .inl rfl
  | bbsGen m _ _ _ => exact .inl rfl
  | construct d hi _ _ _ _ => exact .inr ⟨by simp [hi], rfl⟩
  | cipher m rs _ _ _ _ _ => exact .inl rfl

/-- Settles O13: the step asserts reset or completes a command, and the command is one that changes the LCG. -/
theorem lcgStateChangesInThreeWays : Obligations.LcgStateChangesInThreeWays := by
  intro s t h hne
  obtain hreset | ⟨i, hcomp, he⟩ | ⟨hsame, _⟩ := step_parts h
  · exact .inl hreset
  · obtain hsame | ⟨hi, hok⟩ := exec_lcgPart he
    · exact absurd hsame hne
    · exact .inr ⟨i, hi, hcomp, hok⟩
  · exact absurd hsame hne

end Sys2Proof.Machine
end

section
/-! The BBS commands (42_bbs.md): what each answers, that BBS_GEN is BBS_NEXT repeated, the law R127(b), the fixed points of R129,
and which steps change the generator (R128). -/

namespace Sys2Proof.Machine

/-! ## What the commands answer (R120, R122, R126) -/

theorem blumOk_iff_blum (p q : Word) : blumOk p q = true ↔ Spec.blum p.toNat q.toNat := blumOk_iff p q

theorem execBbsLoad_fail {s : State} (h : ¬ Spec.blum s.bbsP.toNat s.bbsQ.toNat) :
    execBbsLoad s = .next (s.finish .invalidModulus) := if_neg (mt (blumOk_iff_blum _ _).1 h)

theorem execBbsLoad_ok {s : State} (h : Spec.blum s.bbsP.toNat s.bbsQ.toNat) :
    execBbsLoad s = .next (s.loadBbs.finish .ok) := if_pos ((blumOk_iff_blum _ _).2 h)

theorem execBbsNext_fail {s : State} (h : s.bbsLoaded = false) : execBbsNext s = .next (s.finish .notLoaded) :=
  if_neg (Bool.eq_false_iff.1 h)

theorem execBbsNext_ok {s : State} (h : s.bbsLoaded = true) : execBbsNext s = .next (s.bbsTick.finish .ok) := if_pos h

theorem bbsGen_notLoaded {s : State} (m : BbsMethod) (h : s.bbsLoaded = false) :
    bbsGen m s = .next (s.finish .notLoaded) := if_neg (Bool.eq_false_iff.1 h)

theorem bbsGen_capacity {s : State} (m : BbsMethod) (h : s.bbsLoaded = true) (hn : s.lmax < s.genCount) :
    bbsGen m s = .next (s.finish .capacity) := (if_pos h).trans (if_pos hn)

/-- The three BBS_GEN commands share one meaning and differ in the method only (R126). -/
theorem exec_bbsGen {i : Instr} {m : BbsMethod} (h : (i, m) ∈ Spec.bbsGenCommands) (s : State) : exec i s = bbsGen m s := by
  simp only [Spec.bbsGenCommands, List.mem_cons, Prod.mk.injEq, List.not_mem_nil, or_false] at h
  obtain ⟨rfl, rfl⟩ | ⟨rfl, rfl⟩ | ⟨rfl, rfl⟩ := h <;> rfl

/-- The product of the primes fits BBS_M (R120). -/
theorem State.loadBbs_bbsM_toNat (s : State) : s.loadBbs.bbsM.toNat = s.bbsP.toNat * s.bbsQ.toNat := by
  rw [State.loadBbs_bbsM, BitVec.toNat_ofNat, Nat.mod_eq_of_lt (mul_words_lt _ _)]

/-- The reduced seed fits BBS_X (R120). -/
theorem State.loadBbs_bbsX_toNat (s : State) :
    s.loadBbs.bbsX.toNat = s.bbsSeed.toNat % (s.bbsP.toNat * s.bbsQ.toNat) := by
  have hseed := s.bbsSeed.isLt
  have hle := Nat.mod_le s.bbsSeed.toNat (s.bbsP.toNat * s.bbsQ.toNat)
  rw [State.loadBbs_bbsX, BitVec.toNat_ofNat, Nat.mod_eq_of_lt (by omega)]

/-- Settles O29: `blum_ok` is exact, and neither the product nor the reduced seed is truncated. -/
theorem bbsLoadEffect : Obligations.BbsLoadEffect :=
  ⟨by decide, fun s => ⟨execBbsLoad_fail, fun hb =>
    ⟨_, _, execBbsLoad_ok hb, s.loadBbs_bbsM_toNat, s.loadBbs_bbsX_toNat⟩⟩⟩

/-- Settles O30: the step is exact, its remainder is below the modulus, and the two bits are those of the remainder. -/
theorem bbsNextEffect : Obligations.BbsNextEffect := by
  refine ⟨by decide, fun s => ⟨execBbsNext_fail, fun hl hm => ?_⟩⟩
  have hraw : s.bbsTick.bbsX.toNat = _ := bbsStep_raw_toNat s.bbsM s.bbsX hm
  refine ⟨_, _, _, execBbsNext_ok hl, hraw, ?_, evenParityBit_toNat _, leastSignificantBit_toNat _⟩
  rw [hraw]
  exact Nat.mod_lt _ hm

/-! ## BBS_GEN (R126) -/

/-- What BBS_GEN leaves in OUT: below the number of steps the selected values in order, and the old content from there on. -/
theorem read_bbsOutputs (m : BbsMethod) (n : Nat) (s : State) (b : Buffer 64) :
    (∀ j, j < n → Buffer.read (Buffer.writeFrom b 0 ((State.bbsTicks n s).1.map (extract m))) j =
      (State.bbsTicks n s).1[j]?.map (extract m)) ∧
    ∀ j, n ≤ j → Buffer.read (Buffer.writeFrom b 0 ((State.bbsTicks n s).1.map (extract m))) j = Buffer.read b j := by
  have hlen : ((State.bbsTicks n s).1.map (extract m)).length = n := by rw [List.length_map, bbsTicks_length]
  refine ⟨fun j hj => ?_, fun j hj => Buffer.read_writeFrom_zero_of_le b (hlen.trans_le hj)⟩
  rw [Buffer.read_writeFrom_zero_of_lt b (hj.trans_eq hlen.symm), List.getElem?_map]

/-- The value a method selects, as the natural it emits at the raw residue (R123, R124). -/
theorem extract_eq_ofNat_emitted (m : BbsMethod) {o : BbsOut} (hpar : o.par = evenParityBit o.raw)
    (hlsb : o.lsb = leastSignificantBit o.raw) : extract m o = BitVec.ofNat 64 (Spec.emitted m o.raw.toNat) := by
  cases m with
  | lsb => rw [extract, Spec.emitted, hlsb, ← leastSignificantBit_toNat, BitVec.ofNat_toNat]
  | parity => rw [extract, Spec.emitted, Spec.parity, hpar, ← evenParityBit_toNat, BitVec.ofNat_toNat]
  | raw => rw [extract, Spec.emitted, BitVec.ofNat_toNat, BitVec.setWidth_eq]

/-- Settles O31, from the value, the result registers and the outputs of a number of steps. -/
theorem bbsGenEffect : Obligations.BbsGenEffect := by
  refine ⟨by decide, fun s i m hi => ?_⟩
  rw [exec_bbsGen hi]
  refine ⟨bbsGen_notLoaded m, bbsGen_capacity m, fun hl hm hn => ?_⟩
  obtain ⟨hbelow, habove⟩ := read_bbsOutputs m s.genCount s s.outBuf
  refine ⟨_, _, _, _, _, bbsGen_ok m hl hn, bbsTicks_bbsX s.genCount s hm, fun h0 => ?_, fun hpos => ?_, fun j hj => ?_,
    habove⟩
  · rw [State.genCount, h0]
    exact ⟨rfl, rfl, rfl⟩
  · obtain ⟨hraw, hpar, hlsb⟩ := bbsTicks_result s.genCount s hpos
    rw [hraw, hpar, hlsb]
    exact ⟨rfl, evenParityBit_toNat _, leastSignificantBit_toNat _⟩
  · obtain ⟨o, hget, hraw, hpar, hlsb⟩ := bbsTicks_out s.genCount s hm j hj
    rw [hbelow j hj, hget, Option.map_some, extract_eq_ofNat_emitted m hpar hlsb, hraw]
    rfl

/-! ## BBS_GEN as repeated BBS_NEXT (R122, R126) -/

/-- Steps do not see how the command before ended. -/
theorem bbsTicks_finish (e : ErrCode) (n : Nat) (s : State) :
    State.bbsTicks n (s.finish e) = ((State.bbsTicks n s).1, (State.bbsTicks n s).2.finish e) := by
  induction n generalizing s with
  | zero => rfl
  | succ n ih =>
    rw [State.bbsTicks, show (s.finish e).bbsTick = s.bbsTick.finish e from rfl, ih]
    rfl

@[simp] theorem State.finish_bbsResult (s : State) (e : ErrCode) : (s.finish e).bbsResult = s.bbsResult := rfl

/-- BBS_NEXT commands in a row are as many steps, up to ERR and PENDING: zero of them leave these two as they were. -/
theorem execTimes_bbsNext (n : Nat) {s : State} (hl : s.bbsLoaded = true) :
    ∃ u, Spec.execTimes .bbsNext n s = .next u ∧ u.finish .ok = (State.bbsTicks n s).2.finish .ok := by
  induction n generalizing s with
  | zero => exact ⟨s, rfl, rfl⟩
  | succ n ih =>
    have hnext : exec .bbsNext s = .next (s.bbsTick.finish .ok) := execBbsNext_ok hl
    obtain ⟨u, hu, hfin⟩ := ih (s := s.bbsTick.finish .ok) hl
    rw [bbsTicks_finish] at hfin
    exact ⟨u, by rw [Spec.execTimes, hnext]; exact hu, hfin⟩

/-- What each step derives is what the result registers hold after it. -/
theorem bbsTicks_getElem? {n j : Nat} (s : State) (hj : j < n) :
    (State.bbsTicks n s).1[j]? = some (State.bbsTicks (j + 1) s).2.bbsResult := by
  induction n generalizing s j with
  | zero => exact absurd hj (Nat.not_lt_zero j)
  | succ n ih =>
    cases j with
    | zero => rfl
    | succ j => exact ih s.bbsTick (Nat.lt_of_succ_lt_succ hj)

/-- The result register that a method selects (R39 to R41, R124). -/
theorem extract_bbsResult (m : BbsMethod) (s : State) :
    extract m s.bbsResult = (match m with
      | .lsb => BitVec.ofNat 64 s.bbsLsb.toNat
      | .parity => BitVec.ofNat 64 s.bbsPar.toNat
      | .raw => s.bbsRaw) := by
  cases m with
  | lsb => exact (BitVec.ofNat_toNat 64 s.bbsLsb).symm
  | parity => exact (BitVec.ofNat_toNat 64 s.bbsPar).symm
  | raw => rfl

/-- Settles O32: both sides take the same steps, and the values that BBS_GEN stores are the result registers on the way. -/
theorem bbsGenEqualsRepeatedNext : Obligations.BbsGenEqualsRepeatedNext := by
  intro s u i m hi hl hn hu
  rw [exec_bbsGen hi]
  obtain ⟨hbelow, habove⟩ := read_bbsOutputs m s.genCount s s.outBuf
  refine ⟨_, ?_, fun j hj => ?_, habove⟩
  · obtain ⟨u', hu', hfin⟩ := execTimes_bbsNext s.genCount hl
    cases hu.symm.trans hu'
    rw [bbsTicks_frame] at hfin
    refine (bbsGen_ok m hl hn).trans (congrArg Host.Outcome.next ?_)
    exact congrArg (fun v : State => { v with
      outBuf := Buffer.writeFrom s.outBuf 0 ((State.bbsTicks s.genCount s).1.map (extract m))
      outLen := s.genLen }) hfin.symm
  · obtain ⟨v, hv, hfin⟩ := execTimes_bbsNext (j + 1) hl
    have hresult := congrArg State.bbsResult hfin
    rw [State.finish_bbsResult, State.finish_bbsResult] at hresult
    refine ⟨v, hv, ?_⟩
    rw [hbelow j hj, bbsTicks_getElem? s hj, ← hresult, Option.map_some]
    exact congrArg some (extract_bbsResult m v)

/-! ## The reduced seed (R127(b)) -/

/-- What BBS_GEN leaves right after a successful BBS_LOAD: the steps from the loaded generator. -/
theorem bbsGen_after_load {s t u : State} {i : Instr} {m : BbsMethod} (hi : (i, m) ∈ Spec.bbsGenCommands)
    (hb : Spec.blum s.bbsP.toNat s.bbsQ.toNat) (hn : s.genCount ≤ s.lmax)
    (ht : exec .bbsLoad s = .next t) (hu : exec i t = .next u) :
    u.bbsX = (State.bbsTicks s.genCount s.loadBbs).2.bbsX ∧
      ∀ j, j < s.genCount →
        Buffer.read u.outBuf j = (State.bbsTicks s.genCount s.loadBbs).1[j]?.map (extract m) := by
  have hload : exec .bbsLoad s = .next (s.loadBbs.finish .ok) := execBbsLoad_ok hb
  cases ht.symm.trans hload
  rw [exec_bbsGen hi] at hu
  have hgen := bbsGen_ok (s := s.loadBbs.finish .ok) m rfl hn
  cases hu.symm.trans hgen
  rw [bbsTicks_finish]
  exact ⟨rfl, (read_bbsOutputs m s.genCount s.loadBbs s.outBuf).1⟩

/-- Settles O33: the two loads leave the same BBS_M and the same BBS_X. -/
theorem bbsOutputsDependOnTheReducedSeed : Obligations.BbsOutputsDependOnTheReducedSeed := by
  intro s s' t t' u u' i m hi hb hb' hprod hseed hlen hn hn' ht ht' hu hu'
  obtain ⟨hx, hout⟩ := bbsGen_after_load hi hb hn ht hu
  obtain ⟨hx', hout'⟩ := bbsGen_after_load hi hb' hn' ht' hu'
  have hM : s.loadBbs.bbsM = s'.loadBbs.bbsM := congrArg (BitVec.ofNat 64) hprod
  have hX : s.loadBbs.bbsX = s'.loadBbs.bbsX := congrArg (BitVec.ofNat 64) (hprod ▸ hseed)
  have hcount : s.genCount = s'.genCount := congrArg BitVec.toNat hlen
  obtain ⟨hvalues, hlast⟩ := bbsTicks_congr s.genCount s'.loadBbs s.loadBbs hM hX
  refine ⟨?_, fun j hj => ?_⟩
  · rw [hx, hlast, hcount, ← hx']
  · rw [hout j hj, hvalues, hcount, ← hout' j (hcount ▸ hj)]

/-! ## Fixed points (R129) -/

/-- A fixed point makes the modulus divide x·(x - 1). -/
theorem dvd_of_bbsNat_eq {m x : Nat} (h : Spec.bbsNat m x = x) : m ∣ x * (x - 1) := by
  have hdvd : m ∣ x * x - x * x % m := Nat.dvd_sub_mod _
  rwa [show x * x % m = x from h, ← Nat.mul_sub_one] at hdvd

/-- A prime divisor of the modulus divides x or x - 1 at a fixed point. -/
theorem prime_dvd_of_bbsNat_eq {m p x : Nat} (hp : p.Prime) (hpm : p ∣ m) (h : Spec.bbsNat m x = x) :
    p ∣ x ∨ p ∣ x - 1 := hp.dvd_mul.1 (hpm.trans (dvd_of_bbsNat_eq h))

/-- The fixed points for M = 253 = 11·23, one for each choice of x or x - 1 at each prime. -/
theorem bbsNat_253_eq_iff {x : Nat} (hx : x < 253) : Spec.bbsNat 253 x = x ↔ x ∈ [0, 1, 23, 231] := by
  simp only [List.mem_cons, List.not_mem_nil, or_false]
  constructor
  · intro h
    have h11 := prime_dvd_of_bbsNat_eq (p := 11) (by norm_num) (by norm_num) h
    have h23 := prime_dvd_of_bbsNat_eq (p := 23) (by norm_num) (by norm_num) h
    omega
  · rintro (rfl | rfl | rfl | rfl) <;> rfl

/-- Settles O34: BBS_NEXT knows no fixed point, and the fixed points are numbers. -/
theorem fixedPointsAreNotErrors : Obligations.FixedPointsAreNotErrors := by
  refine ⟨fun s hl hm hfix => ?_, fun m hm => ⟨Nat.zero_mod m, Nat.mod_eq_of_lt hm⟩, fun _ => bbsNat_253_eq_iff⟩
  have hraw : (bbsStep s.bbsM s.bbsX).raw = s.bbsX :=
    BitVec.eq_of_toNat_eq ((bbsStep_raw_toNat s.bbsM s.bbsX hm).trans hfix)
  exact ⟨_, execBbsNext_ok hl, rfl, hraw, hraw⟩

/-! ## Which steps change the generator (R128) -/

/-- A command that changes the BBS is one of its own or CONSTRUCT, and succeeds. -/
theorem exec_bbsPart {i : Instr} {s t : State} (h : exec i s = .next t) :
    Spec.bbsPart t = Spec.bbsPart s ∨
      (i ∈ [Instr.bbsLoad, .bbsNext, .bbsGenLsb, .bbsGenParity, .bbsGenRaw, .construct] ∧ t.err = .ok) := by
  cases exec_cases h with
  | failed e _ _ => exact .inl rfl
  | lcgLoad _ _ => exact .inl rfl
  | lcgNext _ _ => exact .inl rfl
  | lcgGen _ _ _ => exact .inl rfl
  | bbsLoad hi _ => exact .inr ⟨by simp [hi], rfl⟩
  | bbsNext hi _ => exact .inr ⟨by simp [hi], rfl⟩
  | bbsGen m hi _ _ =>
    have hcommands : [Instr.bbsGenLsb, .bbsGenParity, .bbsGenRaw] ⊆
        [Instr.bbsLoad, .bbsNext, .bbsGenLsb, .bbsGenParity, .bbsGenRaw, .construct] := by decide
    exact .inr ⟨hcommands (List.mem_map_of_mem (f := Prod.fst) hi), rfl⟩
  | construct d hi _ _ _ _ => exact .inr ⟨by simp [hi], rfl⟩
  | cipher m rs _ _ _ _ _ => exact .inl rfl

/-- Settles O14: the step asserts reset or completes a command, and the command is one that changes the BBS. -/
theorem bbsStateChangesInThreeWays : Obligations.BbsStateChangesInThreeWays := by
  intro s t h hne
  obtain hreset | ⟨i, hcomp, he⟩ | ⟨_, hsame, _⟩ := step_parts h
  · exact .inl hreset
  · obtain hsame | ⟨hi, hok⟩ := exec_bbsPart he
    · exact absurd hsame hne
    · exact .inr ⟨i, hi, hcomp, hok⟩
  · exact absurd hsame hne

end Sys2Proof.Machine
end

section
/-! The cipher (43_cipher.md): what CONSTRUCT and the four cipher commands answer, which steps change the keystreams (R142), and
the laws R147 and R149. -/

namespace Sys2Proof.Machine

/-! ## Which steps change the keystreams (R142) -/

/-- A command that changes CONSTRUCTED, KS_LEN or a keystream is CONSTRUCT, and succeeds. -/
theorem exec_ksPart {i : Instr} {s t : State} (h : exec i s = .next t) :
    Spec.ksPart t = Spec.ksPart s ∨ (i = .construct ∧ t.err = .ok) := by
  cases exec_cases h with
  | failed e _ _ => exact .inl rfl
  | lcgLoad _ _ => exact .inl rfl
  | lcgNext _ _ => exact .inl rfl
  | lcgGen _ _ _ => exact .inl rfl
  | bbsLoad _ _ => exact .inl rfl
  | bbsNext _ _ => exact .inl rfl
  | bbsGen m _ _ _ => exact .inl rfl
  | construct d hi _ _ _ _ => exact .inr ⟨hi, rfl⟩
  | cipher m rs _ _ _ _ _ => exact .inl rfl

/-- However it ends, the transform writes neither the keystreams nor a generator (R142). -/
theorem xorTransform_parts {m : CipherMethod} {s t : State} (h : xorTransform m s = .next t) :
    Spec.ksPart t = Spec.ksPart s ∧ Spec.lcgPart t = Spec.lcgPart s ∧ Spec.bbsPart t = Spec.bbsPart s := by
  obtain ⟨_, rfl⟩ | ⟨_, _, rfl⟩ | ⟨_, _, rs, _, ⟨_, rfl⟩ | ⟨_, rfl⟩⟩ := xorTransform_cases h
  · exact ⟨rfl, rfl, rfl⟩
  · exact ⟨rfl, rfl, rfl⟩
  · exact ⟨rfl, rfl, rfl⟩
  · exact ⟨rfl, rfl, rfl⟩

/-- Settles O15: the step asserts reset or completes a command, and the command is CONSTRUCT. -/
theorem keystreamsAreImmutable : Obligations.KeystreamsAreImmutable := by
  refine ⟨fun s t h hne => ?_, fun s t i m hi h => xorTransform_parts ((exec_cipher hi s).symm.trans h)⟩
  obtain hreset | ⟨i, hcomp, he⟩ | ⟨_, _, hsame⟩ := step_parts h
  · exact .inl hreset
  · obtain hsame | ⟨rfl, hok⟩ := exec_ksPart he
    · exact absurd hsame hne
    · exact .inr ⟨hcomp, hok⟩
  · exact absurd hsame hne

/-! ## CONSTRUCT (R140) -/

theorem execConstruct_capacity {s : State} (hn : s.lmax < s.keyCount) :
    execConstruct s = .next (s.finish .capacity) := if_pos hn

theorem execConstruct_badParameter {s : State} (hn : s.keyCount ≤ s.lmax) (hm : s.lcgM = 0) :
    execConstruct s = .next (s.finish .badParameter) := (if_neg (not_lt.2 hn)).trans (if_pos hm)

theorem execConstruct_invalidModulus {s : State} (hn : s.keyCount ≤ s.lmax) (hm : s.lcgM ≠ 0)
    (hb : ¬ Spec.blum s.bbsP.toNat s.bbsQ.toNat) : execConstruct s = .next (s.finish .invalidModulus) :=
  ((if_neg (not_lt.2 hn)).trans (if_neg hm)).trans (if_neg (mt (blumOk_iff_blum _ _).1 hb))

theorem drain_lcgOut (n : Nat) (s : State) : (s.drain n).lcgOut = (State.lcgTicks n s).2.lcgOut := by rw [drain_eq]

/-- The keystreams after a drain: below the number of steps the outputs of the two generators, and the old content from there
on. -/
theorem read_drain (n : Nat) (s : State) :
    (∀ i, i < n → Buffer.read (s.drain n).ksLcg i = (State.lcgTicks n s).1[i]? ∧
      Buffer.read (s.drain n).ksBbs i = (State.bbsTicks n s).1[i]?.map BbsOut.lsb) ∧
    ∀ i, n ≤ i → Buffer.read (s.drain n).ksLcg i = Buffer.read s.ksLcg i ∧
      Buffer.read (s.drain n).ksBbs i = Buffer.read s.ksBbs i := by
  have hlcg : (State.lcgTicks n s).1.length = n := lcgTicks_length n s
  have hbbs : ((State.bbsTicks n s).1.map BbsOut.lsb).length = n := by rw [List.length_map, bbsTicks_length]
  refine ⟨fun i hi => ?_, fun i hi => ?_⟩
  · rw [drain_ksLcg, drain_ksBbs, Buffer.read_writeFrom_zero_of_lt _ (hi.trans_eq hlcg.symm),
      Buffer.read_writeFrom_zero_of_lt _ (hi.trans_eq hbbs.symm), List.getElem?_map]
    exact ⟨rfl, rfl⟩
  · rw [drain_ksLcg, drain_ksBbs, Buffer.read_writeFrom_zero_of_le _ (hlcg.trans_le hi),
      Buffer.read_writeFrom_zero_of_le _ (hbbs.trans_le hi)]
    exact ⟨rfl, rfl⟩

/-- The LCG after CONSTRUCT's load and drain: its state, LCG_OUT and the keystream follow the recurrence from the reduced seed
(R102, R140). -/
theorem construct_lcgValues {s : State} (hm : s.lcgM ≠ 0) (n : Nat) :
    let f := Spec.lcgNat s.lcgA.toNat s.lcgC.toNat s.lcgM.toNat
    let s0 := s.lcgSeed.toNat % s.lcgM.toNat
    let d := s.loadLcg.loadBbs.drain n
    d.lcgState.toNat = f^[n] s0 ∧ (n = 0 → d.lcgOut = s.lcgOut) ∧ (0 < n → d.lcgOut.toNat = d.lcgState.toNat % 128) ∧
      ∀ i, i < n → Buffer.read d.ksLcg i = some (BitVec.ofNat 7 (f^[i + 1] s0 % 128)) := by
  intro f s0 d
  have hpos : 1 ≤ s.loadLcg.loadBbs.lcgML.toNat :=
    Nat.one_le_iff_ne_zero.2 fun h0 => hm (BitVec.eq_of_toNat_eq h0)
  have hseed : s.loadLcg.loadBbs.lcgState.toNat = s0 := s.loadLcg_lcgState_toNat
  refine ⟨?_, ?_, fun hn => ?_, fun i hi => ?_⟩
  · rw [drain_lcgState, lcgTicks_lcgState n _ hpos, hseed]
    rfl
  · rintro rfl
    rfl
  · rw [drain_lcgOut, drain_lcgState, lcgTicks_lcgOut n _ hpos hn]
  · rw [((read_drain n _).1 i hi).1, lcgTicks_out n _ hpos i hi, hseed]
    rfl

/-- The BBS after CONSTRUCT's load and drain: its value, the result registers and the keystream follow the recurrence from the
reduced seed (R123, R140). -/
theorem construct_bbsValues {s : State} (hb : Spec.blum s.bbsP.toNat s.bbsQ.toNat) (n : Nat) :
    let g := Spec.bbsNat (s.bbsP.toNat * s.bbsQ.toNat)
    let x0 := s.bbsSeed.toNat % (s.bbsP.toNat * s.bbsQ.toNat)
    let d := s.loadLcg.loadBbs.drain n
    d.bbsX.toNat = g^[n] x0 ∧
      ∀ i, i < n → Buffer.read d.ksBbs i = some (BitVec.ofNat 1 (g^[i + 1] x0 % 2)) := by
  intro g x0 d
  have hM : s.loadLcg.loadBbs.bbsM.toNat = s.bbsP.toNat * s.bbsQ.toNat := s.loadBbs_bbsM_toNat
  have hseed : s.loadLcg.loadBbs.bbsX.toNat = x0 := s.loadBbs_bbsX_toNat
  obtain ⟨hp, hq, _⟩ := hb
  have hpos : 1 ≤ s.loadLcg.loadBbs.bbsM.toNat := hM ▸ Nat.mul_pos hp.pos hq.pos
  refine ⟨?_, fun i hi => ?_⟩
  · rw [drain_bbsX, bbsTicks_bbsX n _ hpos, hM, hseed]
    rfl
  · obtain ⟨o, hget, hraw, _, hlsb⟩ := bbsTicks_out n _ hpos i hi
    rw [hM, hseed] at hraw
    rw [((read_drain n _).1 i hi).2, hget, Option.map_some, hlsb, leastSignificantBit, hraw]
    rfl

/-- Settles O35, from the values that the load and the drain leave in each generator. -/
theorem constructEffect : Obligations.ConstructEffect := by
  refine ⟨by decide, fun s => ⟨execConstruct_capacity, execConstruct_badParameter, execConstruct_invalidModulus,
    fun hn hm hb => ?_⟩⟩
  obtain ⟨d, rfl, hexec⟩ := execConstruct_ok hn hm ((blumOk_iff_blum _ _).2 hb)
  obtain ⟨hstate, hout0, hout, hkl⟩ := construct_lcgValues hm s.keyCount
  obtain ⟨hx, hkb⟩ := construct_bbsValues hb s.keyCount
  obtain ⟨hresult0, hresult⟩ := drain_result s.loadLcg.loadBbs s.keyCount
  refine ⟨_, _, _, _, _, _, _, _, _, hexec, s.loadBbs_bbsM_toNat, hstate, hx, fun h0 => ⟨hout0 h0, hresult0 h0⟩,
    fun hpos => ?_, fun i hi => ⟨hkl i hi, hkb i hi⟩, (read_drain s.keyCount s.loadLcg.loadBbs).2⟩
  obtain ⟨hraw, hpar, hlsb⟩ := hresult hpos
  rw [hpar, hlsb]
  exact ⟨hout hpos, hraw, evenParityBit_toNat _, leastSignificantBit_toNat _⟩

/-! ## The cipher commands (R143, R144, R146, R148) -/

theorem xorTransform_notConstructed {m : CipherMethod} {s : State} (hc : s.constructed = false) :
    xorTransform m s = .next (s.finish .notConstructed) := if_neg (Bool.eq_false_iff.1 hc)

theorem xorTransform_lengthMismatch {m : CipherMethod} {s : State} (hc : s.constructed = true) (hl : s.inLen ≠ s.ksLen) :
    xorTransform m s = .next (s.finish .lengthMismatch) := (if_pos hc).trans (if_pos hl)

/-- With CONSTRUCTED = 1 and IN_LEN = KS_LEN, the results of the XOR loop are written when all of them are valid code points. -/
theorem xorTransform_of_xorFrom {m : CipherMethod} {s : State} {rs : List Word} (hc : s.constructed = true)
    (hl : s.inLen = s.ksLen) (hr : xorFrom m s s.inCount 0 = .ok rs) :
    xorTransform m s = if rs.all validCp then
        succeed { s with outBuf := Buffer.writeFrom s.outBuf 0 (rs.map (BitVec.setWidth 64)), outLen := s.inLen }
      else raise .codepointOverflow s := by
  rw [xorTransform, if_pos hc, if_neg (not_not.2 hl), hr]

/-- What a cipher command leaves in OUT: the results of the XOR loop in order, and the old content from their number on. -/
theorem read_xorOutputs {m : CipherMethod} {s : State} {n : Nat} {rs : List Word} (hr : xorFrom m s n 0 = .ok rs)
    (b : Buffer 64) :
    (∀ j, j < n → ∃ v k, Buffer.read s.inBuf j = some v ∧ s.keystream m j = some k ∧
      Buffer.read (Buffer.writeFrom b 0 (rs.map (BitVec.setWidth 64))) j = some ((v ^^^ k).setWidth 64)) ∧
    ∀ j, n ≤ j → Buffer.read (Buffer.writeFrom b 0 (rs.map (BitVec.setWidth 64))) j = Buffer.read b j := by
  obtain ⟨hrs, hxor⟩ := xorFrom_ok hr
  have hlen : (rs.map (BitVec.setWidth 64)).length = n := by rw [List.length_map, hrs]
  refine ⟨fun j hj => ?_, fun j hj => Buffer.read_writeFrom_zero_of_le b (hlen.trans_le hj)⟩
  obtain ⟨v, k, hv, hk, hget⟩ := hxor j hj
  rw [Nat.zero_add] at hv hk
  refine ⟨v, k, hv, hk, ?_⟩
  rw [Buffer.read_writeFrom_zero_of_lt b (hj.trans_eq hlen.symm), List.getElem?_map, hget, Option.map_some]

/-- Settles O37: with every entry written the XOR loop reaches its end, and its results decide between OUT and the overflow. -/
theorem xorTransformEffect : Obligations.XorTransformEffect := by
  refine ⟨by decide, fun s i m hi => ?_⟩
  rw [exec_cipher hi]
  refine ⟨xorTransform_notConstructed, xorTransform_lengthMismatch, fun v k hc hl hin => ?_⟩
  have hwritten : ∀ j, j < s.inCount → Buffer.read s.inBuf j = some (v j) ∧ s.keystream m j = some (k j) := fun j hj =>
    (hin j hj).imp_right keystream_eq_some_iff.2
  have hr := xorFrom_of_written v k s.inCount 0 fun j _ hj => hwritten j (hj.trans_eq (Nat.zero_add _))
  rw [xorTransform_of_xorFrom hc hl hr]
  refine ⟨fun hvalid => ?_, fun ⟨j, hj, hbig⟩ => ?_⟩
  · obtain ⟨hbelow, habove⟩ := read_xorOutputs hr s.outBuf
    have hall : ((List.range s.inCount).map fun j => v (0 + j) ^^^ k (0 + j)).all validCp = true := by
      simpa [validCp] using hvalid
    rw [if_pos hall]
    refine ⟨_, rfl, fun j hj => ?_, habove⟩
    obtain ⟨v', k', hv, hk, hread⟩ := hbelow j hj
    cases hv.symm.trans (hwritten j hj).1
    cases hk.symm.trans (hwritten j hj).2
    exact hread
  · obtain ⟨hv, hk⟩ := hwritten j hj
    rw [(xorFrom_overflow_iff hr).2 ⟨j, _, _, hj, hv, hk, hbig⟩]
    rfl

/-! ## What a cipher command leaves of a code point (R149) -/

/-- The number of low bits that a method's keystream values lie in (R49, R50). -/
def keystreamWidth : CipherMethod → Nat
  | .bbs => 1
  | .lcg => 7

theorem keystream_lt_two_pow {s : State} {m : CipherMethod} {j : Nat} {k : Word} (h : s.keystream m j = some k) :
    k.toNat < 2 ^ keystreamWidth m := by
  cases m with
  | bbs =>
    obtain ⟨b, _, rfl⟩ := keystream_eq_some_iff.1 h
    rw [BitVec.toNat_setWidth_of_le (by decide)]
    exact b.isLt
  | lcg => exact keystream_lt s .lcg j k h

/-- An XOR leaves the bits above the operand alone. -/
theorem toNat_xor_div_two_pow {n : Nat} {k : Word} (hk : k.toNat < 2 ^ n) (v : Word) :
    (v ^^^ k).toNat / 2 ^ n = v.toNat / 2 ^ n := by
  rw [BitVec.toNat_xor, Nat.xor_div_two_pow, Nat.div_eq_of_lt hk, Nat.xor_zero]

theorem surrogate_iff_of_div_eq {a b : Nat} (h : a / 128 = b / 128) :
    (0xD800 ≤ a ∧ a ≤ 0xDFFF) ↔ (0xD800 ≤ b ∧ b ≤ 0xDFFF) := by omega

/-- Settles O39: OUT[j] is IN[j] XORed with a value below 2 or 128, and the surrogates are whole blocks of 128 code points. -/
theorem cipherChangesOnlyLowBits : Obligations.CipherChangesOnlyLowBits := by
  intro s t i m j v hi h hok hj hv
  rw [exec_cipher hi] at h
  obtain ⟨_, rfl⟩ | ⟨_, _, rfl⟩ | ⟨_, _, rs, hr, ⟨_, rfl⟩ | ⟨_, rfl⟩⟩ := xorTransform_cases h
  · exact nomatch hok
  · exact nomatch hok
  · exact nomatch hok
  · obtain ⟨v', k, hv', hk, hread⟩ := (read_xorOutputs hr s.outBuf).1 j hj
    cases hv.symm.trans hv'
    have hlow := toNat_xor_div_two_pow (keystream_lt_two_pow hk) v
    have hblock := toNat_xor_div_two_pow (n := 7) (keystream_lt s m j k hk) v
    have hout : ((v ^^^ k).setWidth 64).toNat = (v ^^^ k).toNat := BitVec.toNat_setWidth_of_le (by decide)
    refine ⟨_, hread, ?_, ?_⟩
    · rw [hout]
      cases m with
      | bbs => exact hlow
      | lcg => exact hlow
    · rw [hout]
      exact surrogate_iff_of_div_eq hblock

/-! ## Encrypt, then decrypt (R147) -/

/-- Under the invariants, with CONSTRUCTED = 1, each entry below KS_LEN has a keystream value. -/
theorem Invariants.exists_keystream {s : State} (h : Invariants s) (hc : s.constructed = true) (m : CipherMethod) :
    ∃ k : Nat → Word, ∀ j, j < s.ksLen.toNat → s.keystream m j = some (k j) := by
  have hsome : ∀ j, j < s.ksLen.toNat → ∃ k, s.keystream m j = some k := fun j hj =>
    Option.isSome_iff_exists.1 (h.isSome_keystream hc m hj)
  choose! k hk using hsome
  exact ⟨k, hk⟩

theorem lowWord_setWidth (v : Word) : lowWord (v.setWidth 64) = v := by
  apply BitVec.eq_of_toNat_eq
  rw [lowWord_toNat, BitVec.toNat_setWidth_of_le (by decide), Nat.mod_eq_of_lt v.isLt]

/-- ENCRYPT and DECRYPT of one method share their keystream. -/
theorem exists_cipherMethod {e d : Instr}
    (h : (e, d) ∈ [(Instr.encryptBbs, Instr.decryptBbs), (.encryptLcg, .decryptLcg)]) :
    ∃ m, (e, m) ∈ Spec.cipherCommands ∧ (d, m) ∈ Spec.cipherCommands := by
  simp only [List.mem_cons, Prod.mk.injEq, List.not_mem_nil, or_false] at h
  obtain ⟨rfl, rfl⟩ | ⟨rfl, rfl⟩ := h
  · exact ⟨.bbs, by decide, by decide⟩
  · exact ⟨.lcg, by decide, by decide⟩

/-- Settles O41: both commands XOR with the same keystream, and twice the same XOR gives the plaintext back. -/
theorem decryptOfEncryptIsThePlaintext : Obligations.DecryptOfEncryptIsThePlaintext := by
  intro s e d x inb hed h hc hl hin
  obtain ⟨m, he, hd⟩ := exists_cipherMethod hed
  obtain ⟨k, hk⟩ := h.exists_keystream hc m
  rw [← hl] at hk
  have hks : ∀ j, j < s.inLen.toNat → Spec.keystreamValue s m j (k j) := fun j hj => keystream_eq_some_iff.1 (hk j hj)
  obtain ⟨_, _, hencrypt⟩ := xorTransformEffect.2 s e m he
  obtain ⟨ob, hexec, hout, _⟩ := (hencrypt x k hc hl fun j hj => ⟨(hin j hj).1, hks j hj⟩).1 fun j hj =>
    not_lt.1 (mt (overflow_xor_iff (hk j hj)).1 (not_lt.2 (hin j hj).2))
  refine ⟨_, hexec, rfl, fun hcopy => ?_⟩
  obtain ⟨_, _, hdecrypt⟩ := xorTransformEffect.2
    { s with inBuf := inb, outBuf := ob, outLen := s.inLen, err := .ok, pending := none } d m hd
  have hread : ∀ j, j < s.inLen.toNat → Buffer.read inb j = some (x j ^^^ k j) := fun j hj => by
    rw [hcopy j hj, hout j hj, Option.map_some, lowWord_setWidth]
  have hback : ∀ j, x j ^^^ k j ^^^ k j = x j := fun j => by rw [BitVec.xor_assoc, BitVec.xor_self, BitVec.xor_zero]
  obtain ⟨ob', hexec', hout', _⟩ := (hdecrypt (fun j => x j ^^^ k j) k hc hl fun j hj =>
    ⟨hread j hj, hks j hj⟩).1 fun j hj => (hback j).symm ▸ (hin j hj).2
  exact ⟨_, hexec', rfl, rfl, fun j hj => by rw [hout' j hj, hback]⟩

end Sys2Proof.Machine
end

section
/-! Errors and reset: a command that raises changes ERR and BUSY only (60_exceptions.md R165), the order in which errors are
reported (R166), and what an asserted reset leaves (R167; 70_reset_and_hazards.md R180 to R182). -/

namespace Sys2Proof.Machine

/-! ## A command that raises (R165) -/

/-- A command either fails, and then changes ERR and PENDING only, or ends with ERR = 0. -/
theorem exec_err {i : Instr} {s t : State} (h : exec i s = .next t) : t = s.finish t.err ∨ t.err = .ok := by
  cases exec_cases h with
  | failed e _ _ => exact .inl rfl
  | lcgLoad _ _ => exact .inr rfl
  | lcgNext _ _ => exact .inr rfl
  | lcgGen _ _ _ => exact .inr rfl
  | bbsLoad _ _ => exact .inr rfl
  | bbsNext _ _ => exact .inr rfl
  | bbsGen m _ _ _ => exact .inr rfl
  | construct d _ _ _ _ _ => exact .inr rfl
  | cipher m rs _ _ _ _ _ => exact .inr rfl

/-- Settles O20: an illegal word only raises, and a command that does not end with ERR = 0 has only raised. -/
theorem failedCommandChangesNothingElse : Obligations.FailedCommandChangesNothingElse := by
  intro s t hp h herr
  obtain ⟨hnone, _⟩ | ⟨w, _, ⟨_, _, rfl⟩ | ⟨i, _, he⟩⟩ := engineStep_cases h
  · exact absurd hnone hp
  · rfl
  · exact (exec_err he).resolve_right herr

/-! ## The order of the errors (R166) -/

/-- The last error of a cipher command: every earlier check passes, every entry read is written, and a result is above
0x10FFFF. -/
theorem exec_cipher_overflow {i : Instr} {m : CipherMethod} {s : State} (hi : (i, m) ∈ Spec.cipherCommands)
    (hc : s.constructed = true) (hl : s.inLen = s.ksLen)
    (hin : ∀ j, j < s.inLen.toNat → ∃ v k, Buffer.read s.inBuf j = some v ∧ Spec.keystreamValue s m j k)
    (hbig : ∃ j v k, j < s.inLen.toNat ∧ Buffer.read s.inBuf j = some v ∧ Spec.keystreamValue s m j k ∧
      0x10FFFF < (v ^^^ k).toNat) :
    exec i s = .next (s.finish .codepointOverflow) := by
  choose! v k hv hk using hin
  obtain ⟨_, _, hxor⟩ := xorTransformEffect.2 s i m hi
  obtain ⟨j, v', k', hj, hv', hk', hbig⟩ := hbig
  obtain rfl := Option.some.inj (hv'.symm.trans (hv j hj))
  obtain rfl := Option.some.inj ((keystream_eq_some_iff.2 hk').symm.trans (keystream_eq_some_iff.2 (hk j hj)))
  exact (hxor v k hc hl fun j hj => ⟨hv j hj, hk j hj⟩).2 ⟨j, hj, hbig⟩

/-- Settles O22: each command makes its checks in the order of R166, so each error comes with the earlier ones excluded. -/
theorem errorPriority : Obligations.ErrorPriority := by
  refine ⟨fun s w hp hw => engineStep_illegal hp hw, fun s hm => execLcgLoad_fail hm, fun s hb => execBbsLoad_fail hb,
    ?lcgNotLoaded, fun s hl hn => execLcgGen_capacity hl hn, ?bbsNotLoaded, ?bbsCapacity,
    fun s => ⟨execConstruct_capacity, execConstruct_badParameter, execConstruct_invalidModulus⟩, ?cipher⟩
  case lcgNotLoaded =>
    rintro s i (rfl | rfl) hl
    · exact execLcgNext_fail hl
    · exact execLcgGen_notLoaded hl
  case bbsNotLoaded =>
    rintro s i (rfl | ⟨m, hi⟩) hl
    · exact execBbsNext_fail hl
    · exact (exec_bbsGen hi s).trans (bbsGen_notLoaded m hl)
  case bbsCapacity =>
    intro s i m hi hl hn
    exact (exec_bbsGen hi s).trans (bbsGen_capacity m hl hn)
  case cipher =>
    intro s i m hi
    obtain ⟨hnotConstructed, hlength, _⟩ := xorTransformEffect.2 s i m hi
    exact ⟨hnotConstructed, hlength, exec_cipher_overflow hi⟩

/-! ## While reset is asserted (R181) -/

theorem memRead_duringReset {addr size : Nat} {s : State} (hr : s.inReset = true) (ho : s.owns addr = true) :
    memRead addr size s = .fault (.accessDuringReset addr) := by
  rw [memRead, if_pos ho, if_pos hr]

theorem memWrite_duringReset {addr size : Nat} {v : Word} {s : State} (hr : s.inReset = true) (ho : s.owns addr = true) :
    memWrite addr size v s = .fault (.accessDuringReset addr) := by
  rw [memWrite, if_pos ho, if_pos hr]

/-- While reset is asserted the host writes no place, so a host step that is no fault keeps the block. -/
theorem hostStep_duringReset {s t : State} (h : hostStep s = .next t) (hr : s.inReset = true) :
    State.sameBlock s t ∧ t.schedule = s.schedule :=
  (hostStep_cases h).resolve_right fun ⟨_, _, _, _, hreleased, _⟩ => nomatch hr.symm.trans hreleased

/-- The engine does not drive the reset input. -/
theorem engineStep_inReset {s t : State} (h : engineStep s = .next t) : t.inReset = s.inReset := by
  obtain ⟨_, rfl⟩ | ⟨w, _, ⟨_, _, rfl⟩ | ⟨i, _, he⟩⟩ := engineStep_cases h
  · rfl
  · rfl
  · rw [completionFrame i s t he]

/-- Only the release ends an asserted reset. -/
theorem step_keeps_inReset {s t : State} (hr : s.inReset = true) (hturn : nextTurn s ≠ .releaseReset)
    (h : step s = .next t) : t.inReset = true := by
  obtain ⟨_, rfl, ⟨_, hs⟩ | ⟨_, hs⟩ | ⟨_, rfl⟩ | ⟨hrelease, _⟩⟩ := step_cases h
  · obtain ⟨hsame, _⟩ := hostStep_duringReset hs hr
    unfold State.sameBlock at hsame
    rw [hsame]
    exact hr
  · exact (engineStep_inReset hs).trans hr
  · rfl
  · exact absurd hrelease hturn

/-- From the state that an assertion leaves, every turn but the release leaves that block again. -/
theorem step_keeps_assertReset {s u u' : State} (hu : State.sameBlock s.assertReset u) (hturn : nextTurn u ≠ .releaseReset)
    (h : step u = .next u') : State.sameBlock s.assertReset u' ∧ u'.schedule = u.schedule.tail := by
  have hfields := hu
  unfold State.sameBlock at hfields
  obtain ⟨_, rfl, ⟨_, hs⟩ | ⟨_, hs⟩ | ⟨_, rfl⟩ | ⟨hrelease, _⟩⟩ := step_cases h
  · obtain ⟨hsame, hsched⟩ := hostStep_duringReset hs (by rw [hfields]; rfl)
    exact ⟨State.sameBlock_trans hu (State.sameBlock_trans (State.sameBlock_schedule u _) hsame), hsched⟩
  · obtain ⟨_, rfl⟩ | ⟨w, hw, _⟩ := engineStep_cases hs
    · exact ⟨State.sameBlock_trans hu (State.sameBlock_schedule u _), rfl⟩
    · rw [hfields] at hw
      exact nomatch hw
  · refine ⟨?_, rfl⟩
    rw [hfields]
    rfl
  · exact absurd hrelease hturn

/-! ## From the assertion to the release (R181, R182) -/

/-- A run that ends in a next state takes its first step to one. -/
theorem exists_step_of_run {k : Nat} {s t : State} (h : Sys2Proof.core.run (k + 1) s = .next t) :
    ∃ u, step s = .next u ∧ Sys2Proof.core.run k u = .next t := by
  cases hs : step s with
  | next u => exact ⟨u, rfl, (run_next hs).symm.trans h⟩
  | fault f => exact nomatch (run_fault hs).symm.trans h
  | refused r => exact nomatch (run_refused hs).symm.trans h

/-- The release step, from the state that an assertion left. -/
theorem step_releaseReset {s u t : State} {rest : List Turn} (hu : State.sameBlock s.assertReset u)
    (hsched : u.schedule = .releaseReset :: rest) (h : step u = .next t) :
    State.sameBlock s.assertReset.releaseReset t ∧ t.schedule = rest := by
  rw [step_cons hsched] at h
  cases h
  unfold State.sameBlock at hu
  refine ⟨?_, rfl⟩
  rw [hu]
  rfl

/-- However many turns lie between, a run from the assertion through the first release ends in the released block. -/
theorem run_to_releaseReset {s t : State} {us rest : List Turn} (hus : .releaseReset ∉ us) {u : State}
    (hu : State.sameBlock s.assertReset u) (hsched : u.schedule = us ++ .releaseReset :: rest)
    (h : Sys2Proof.core.run (us.length + 1) u = .next t) :
    State.sameBlock s.assertReset.releaseReset t ∧ t.schedule = rest := by
  induction us generalizing u with
  | nil =>
    obtain ⟨u', hs, hrun⟩ := exists_step_of_run h
    cases hrun
    exact step_releaseReset hu hsched hs
  | cons a us ih =>
    obtain ⟨ha, hus⟩ := not_or.1 (mt List.mem_cons.2 hus)
    obtain ⟨u', hs, hrun⟩ := exists_step_of_run h
    have hturn : nextTurn u = a := by rw [nextTurn, hsched]; rfl
    obtain ⟨hu', hsched'⟩ := step_keeps_assertReset hu (hturn ▸ Ne.symm ha) hs
    exact ih hus hu' (by rw [hsched', hsched]; rfl) hrun

theorem step_assertReset {s : State} {rest : List Turn} (h : s.schedule = .assertReset :: rest) :
    step s = .next { s.assertReset with schedule := rest } := step_cons h

/-- Settles O52: the assertion leaves the reset block, every turn until the release keeps it, and the release ends it. -/
theorem resetAbandonsTheCommand : Obligations.ResetAbandonsTheCommand := by
  refine ⟨fun s rest h => ⟨_, step_assertReset h, rfl, rfl, rfl, fun rest' hrest =>
      step_cons (s := { s.assertReset with schedule := rest }) hrest⟩,
    fun s addr size v hr ho => ⟨memRead_duringReset hr ho, memWrite_duringReset hr ho⟩,
    fun s t hr hturn h => step_keeps_inReset hr hturn h, fun s t us rest hsched hus hrun => ?_⟩
  rw [run_next (step_assertReset hsched)] at hrun
  exact run_to_releaseReset hus (State.sameBlock_schedule s.assertReset _) rfl hrun

end Sys2Proof.Machine
end

section
/-! The state right after reset (70_reset_and_hazards.md R180, R182): what each register reads as, and that no buffer holds an
entry. -/

namespace Sys2Proof.Machine

/-- No flag, no code of ERR and nothing in flight: every field of STATUS is 0 (R23). -/
theorem State.reset_statusWord : State.reset.statusWord = 0 := by
  apply BitVec.eq_of_toNat_eq
  rw [statusFields]
  simp [Spec.statusNat, ErrCode.code]

/-- The wired CAP is the one register that does not reset to 0 (R44). -/
theorem State.reset_regWord {r : Reg} (h : r ≠ .cap) : State.reset.regWord r = 0 := by
  cases r with
  | status => exact State.reset_statusWord
  | cap => exact absurd rfl h
  | _ => rfl

theorem Buffer.read_nil {w : Nat} (i : Nat) : Buffer.read ([] : Buffer w) i = none := rfl

/-- Settles O51: STATUS and the other registers field by field, the latches, and the four empty buffers. -/
theorem resetValues : Obligations.ResetValues :=
  ⟨State.reset_statusWord, fun _ h => State.reset_regWord h, State.reset_cap,
    ⟨State.reset_lcgAL, State.reset_lcgCL, State.reset_lcgML, State.reset_pending⟩,
    fun i => ⟨Buffer.read_nil i, Buffer.read_nil i, Buffer.read_nil i, Buffer.read_nil i⟩⟩

end Sys2Proof.Machine
end
